-- ==== Sys2Proof/Word.lean ====
section
/-! DEFINITION. The word types of the SipHash round core (00_scope R9, R11) and the record of four state words. -/

namespace Sys2Proof

/-- A lane register's value, an address pointer, `ARG`, a key half: `u64` (R11; `WORD`, `ADDR_BITS` of R9). -/
abbrev Word := BitVec 64

/-- One byte of caller memory (R60). -/
abbrev Byte := BitVec 8

/-- One encoded micro-op (`UOP_BITS`, R9, R90). -/
abbrev MicroWord := BitVec 16

/-- One hash output (`OUT_BITS`, R9). -/
abbrev OutWord := BitVec 32

/-- The four 64-bit state words `v0..v3` (R120), also the shape of `IV0..IV3` (R37) and of `INIT_CONST` (R122). -/
structure SipState where
  v0 : Word
  v1 : Word
  v2 : Word
  v3 : Word
  deriving DecidableEq, Repr

end Sys2Proof
end

