-- ==== Sys2Proof/Config.lean ====
section
/-! DEFINITION. What an instance of the hardware fixes (00_scope R9), and the free values. -/

namespace Sys2Proof

/-- The five engine variants (R3), in the order of the `ID.VARIANT` codes (R41). -/
inductive Variant where
  | scalar
  | scalarImm
  | dual
  | quad
  | ref
  deriving DecidableEq, Repr

/-- `LANES` (R9, R200): lanes per call. -/
def Variant.lanes : Variant → Nat
  | .scalar => 1
  | .scalarImm => 1
  | .dual => 2
  | .quad => 4
  | .ref => 1

/-- The variants that deliver to output slots and refuse the standard format (R172, R174): DUAL and QUAD. -/
def Variant.multiLane : Variant → Bool
  | .scalar => false
  | .scalarImm => false
  | .dual => true
  | .quad => true
  | .ref => false

namespace Config

/-- `2^ADDR_BITS` (R9, R60): every address lies below it. -/
def addressSpace : Nat := 2 ^ 64

/-- `SLOT_BYTES` (R9, R67): the pitch of output slots. -/
def slotBytes : Nat := 4

/-- The default of the parameter `INIT_CONST` (R122, D5).
PRESUMED (log entry 2): the spec supplies the values from general knowledge. UNSAFE for concrete hash values. -/
def initConst : SipState :=
  { v0 := 0x736f6d6570736575#64
    v1 := 0x646f72616e646f6d#64
    v2 := 0x6c7967656e657261#64
    v3 := 0x7465646279746573#64 }

/-- What an unlisted byte of caller memory reads as.
DESIGN CHOICE (log entry 5): the spec gives no contents of caller memory (R44). UNSAFE. -/
def unlistedByte : Byte := 0#8

/-- `random_key()` (R223, R239): the `n`-th 16-byte draw of a CONFIGURE with an absent key, a free value under no law (D13).
It has no body, so nothing can be proved of a drawn key (log entry 7). SAFE. -/
opaque randomKey : Nat → BitVec 128

end Config

end Sys2Proof
end

