-- ==== Sys2Proof/Syntax.lean ====
section
/-! DEFINITION. The syntax of the twelve micro-operations (00_scope R2, 30_encoding R99 to R103). -/

namespace Sys2Proof

/-- The six lane registers (R22), in index order. Indices 6 and 7 name none. -/
inductive Reg where
  | v0
  | v1
  | v2
  | v3
  | m
  | t
  deriving DecidableEq, Repr

/-- One constructor per row of the opcode map (R99), operands in the order of R103. -/
inductive Instr where
  /-- INIT (R170). -/
  | init
  /-- ADD rd, rs (R151). -/
  | add (rd rs : Reg)
  /-- XOR rd, rs (R152). -/
  | xor (rd rs : Reg)
  /-- OR rd, rs (R153). -/
  | or (rd rs : Reg)
  /-- SHL rd, n (R154). -/
  | shl (rd : Reg) (n : Nat)
  /-- ROTL rd, n (R155). -/
  | rotl (rd : Reg) (n : Nat)
  /-- LDI rd, b (R165). -/
  | ldi (rd : Reg) (b : Nat)
  /-- LD8 rd (R161). -/
  | ld8 (rd : Reg)
  /-- LD16 rd (R162). -/
  | ld16 (rd : Reg)
  /-- LD32 rd (R163). -/
  | ld32 (rd : Reg)
  /-- LD64 rd (R164). -/
  | ld64 (rd : Reg)
  /-- FIN rs, s (R171): `standard` is the flag `s`. -/
  | fin (rs : Reg) (standard : Bool)
  deriving DecidableEq, Repr

/-- The twelve mnemonics (R2), the rows of the opcode map without their operands. -/
inductive Mnemonic where
  | init
  | add
  | xor
  | or
  | shl
  | rotl
  | ldi
  | ld8
  | ld16
  | ld32
  | ld64
  | fin
  deriving DecidableEq, Repr

/-- The row of the opcode map an instruction belongs to. -/
def Instr.mnemonic : Instr → Mnemonic
  | .init => .init
  | .add _ _ => .add
  | .xor _ _ => .xor
  | .or _ _ => .or
  | .shl _ _ => .shl
  | .rotl _ _ => .rotl
  | .ldi _ _ => .ldi
  | .ld8 _ => .ld8
  | .ld16 _ => .ld16
  | .ld32 _ => .ld32
  | .ld64 _ => .ld64
  | .fin _ _ => .fin

end Sys2Proof
end

