-- ==== Sys2Proof/WellFormed.lean ====
section
/-! DEFINITION. Which terms spell a micro-op (30_encoding R100, R103): an operand out of its range is a syntax error of the
assembler, not a micro-op. Register operands are in range by their type. -/

namespace Sys2Proof

/-- The range check of R103: shift and rotate amounts 0 to 63, immediate bytes 0 to 255. -/
def Instr.wellFormed : Instr → Bool
  | .init => true
  | .add _ _ => true
  | .xor _ _ => true
  | .or _ _ => true
  | .shl _ n => decide (n ≤ 63)
  | .rotl _ n => decide (n ≤ 63)
  | .ldi _ b => decide (b ≤ 255)
  | .ld8 _ => true
  | .ld16 _ => true
  | .ld32 _ => true
  | .ld64 _ => true
  | .fin _ _ => true

end Sys2Proof
end

