-- ==== Sys2Proof/Decode.lean ====
section
/-! DEFINITION. Decoding and encoding of micro-op words (30_encoding R90 to R102). The decoder is total on 16-bit words and
rejects by name; the encoder is written from the same opcode map. -/

namespace Sys2Proof

/-- Why a word is illegal, the three reasons of R101. -/
inductive Illegal where
  /-- `op` is 0x0, 0xD, 0xE or 0xF. -/
  | opcode
  /-- A bit the format requires to be zero is one. -/
  | mustBeZero
  /-- A register field the format uses holds 6 or 7. -/
  | register
  deriving DecidableEq, Repr

/-- A row of the opcode map (R99): the mnemonic, `match` and `mask`. -/
structure OpcodeRow where
  mnemonic : Mnemonic
  code : MicroWord
  mask : MicroWord
  deriving DecidableEq, Repr

/-- The opcode map (R99). -/
def opcodeTable : List OpcodeRow :=
  [ ⟨.init, 0x1000#16, 0xFFFF#16⟩,
    ⟨.add, 0x2000#16, 0xF03F#16⟩,
    ⟨.xor, 0x3000#16, 0xF03F#16⟩,
    ⟨.or, 0x4000#16, 0xF03F#16⟩,
    ⟨.shl, 0x5000#16, 0xF1C0#16⟩,
    ⟨.rotl, 0x6000#16, 0xF1C0#16⟩,
    ⟨.ldi, 0x7000#16, 0xF100#16⟩,
    ⟨.ld8, 0x8000#16, 0xF1FF#16⟩,
    ⟨.ld16, 0x9000#16, 0xF1FF#16⟩,
    ⟨.ld32, 0xA000#16, 0xF1FF#16⟩,
    ⟨.ld64, 0xB000#16, 0xF1FF#16⟩,
    ⟨.fin, 0xC000#16, 0xF1FE#16⟩ ]

/-- The field of `width` bits of `w` whose lowest bit is `lo`, as an unsigned integer (R11, R92). -/
def field (w : MicroWord) (lo width : Nat) : Nat :=
  w.toNat / 2 ^ lo % 2 ^ width

/-- The register of an index (R22); indices 6 and 7 name none. -/
def regOfIndex : Nat → Option Reg
  | 0 => some .v0
  | 1 => some .v1
  | 2 => some .v2
  | 3 => some .v3
  | 4 => some .m
  | 5 => some .t
  | _ => none

/-- The index of a register (R22). -/
def Reg.index : Reg → Nat
  | .v0 => 0
  | .v1 => 1
  | .v2 => 2
  | .v3 => 3
  | .m => 4
  | .t => 5

/-- Formats RS, RI, RL, RF: `build` applied to the register of `ra` (R95 to R98, R102). -/
def decodeOne (w : MicroWord) (build : Reg → Instr) : Except Illegal Instr :=
  match regOfIndex (field w 9 3) with
  | none => .error .register
  | some ra => .ok (build ra)

/-- Format RR: `build` applied to the registers of `ra` and `rb` (R94, R102). -/
def decodeTwo (w : MicroWord) (build : Reg → Reg → Instr) : Except Illegal Instr :=
  match regOfIndex (field w 9 3), regOfIndex (field w 6 3) with
  | some ra, some rb => .ok (build ra rb)
  | _, _ => .error .register

/-- The operand fields a row's format lists (R93 to R98, R100). -/
def decodeOperands (w : MicroWord) : Mnemonic → Except Illegal Instr
  | .init => .ok .init
  | .add => decodeTwo w .add
  | .xor => decodeTwo w .xor
  | .or => decodeTwo w .or
  | .shl => decodeOne w (fun ra => .shl ra (field w 0 6))
  | .rotl => decodeOne w (fun ra => .rotl ra (field w 0 6))
  | .ldi => decodeOne w (fun ra => .ldi ra (field w 0 8))
  | .ld8 => decodeOne w .ld8
  | .ld16 => decodeOne w .ld16
  | .ld32 => decodeOne w .ld32
  | .ld64 => decodeOne w .ld64
  | .fin => decodeOne w (fun ra => .fin ra (field w 0 1 == 1))

/-- The decoding algorithm of R102: the row with the word's `op`, the must-be-zero bits, the register fields, in this order. -/
def decode (w : MicroWord) : Except Illegal Instr :=
  match opcodeTable.find? (fun r => field r.code 12 4 == field w 12 4) with
  | none => .error .opcode
  | some r => if w &&& r.mask = r.code then decodeOperands w r.mnemonic else .error .mustBeZero

/-- The `match` word of a mnemonic's row (R99). -/
def Mnemonic.code : Mnemonic → MicroWord
  | .init => 0x1000#16
  | .add => 0x2000#16
  | .xor => 0x3000#16
  | .or => 0x4000#16
  | .shl => 0x5000#16
  | .rotl => 0x6000#16
  | .ldi => 0x7000#16
  | .ld8 => 0x8000#16
  | .ld16 => 0x9000#16
  | .ld32 => 0xA000#16
  | .ld64 => 0xB000#16
  | .fin => 0xC000#16

/-- `match | ra << 9 | rb << 6 | low` (R102), the unused fields taken as 0. -/
def assembleWord (op : Mnemonic) (ra rb low : Nat) : MicroWord :=
  op.code ||| BitVec.ofNat 16 (ra * 2 ^ 9) ||| BitVec.ofNat 16 (rb * 2 ^ 6) ||| BitVec.ofNat 16 low

/-- The encoder (R102), the inverse of `decode` on well-formed terms. -/
def encode : Instr → MicroWord
  | .init => assembleWord .init 0 0 0
  | .add rd rs => assembleWord .add rd.index rs.index 0
  | .xor rd rs => assembleWord .xor rd.index rs.index 0
  | .or rd rs => assembleWord .or rd.index rs.index 0
  | .shl rd n => assembleWord .shl rd.index 0 n
  | .rotl rd n => assembleWord .rotl rd.index 0 n
  | .ldi rd b => assembleWord .ldi rd.index 0 b
  | .ld8 rd => assembleWord .ld8 rd.index 0 0
  | .ld16 rd => assembleWord .ld16 rd.index 0 0
  | .ld32 rd => assembleWord .ld32 rd.index 0 0
  | .ld64 rd => assembleWord .ld64 rd.index 0 0
  | .fin rs s => assembleWord .fin rs.index 0 s.toNat

/-- The 16-bit word the host's opcode table numbers as `w`: every micro-op is one word (R90), so its low 16 bits, of which the
table gives the lowest `nbits`. Program words have no byte order (R67). -/
def tableWord (nbits w : Nat) : MicroWord :=
  BitVec.ofNat 16 (w % 2 ^ nbits)

/-- What the decoder reads from the word the opcode table numbers as `w`. -/
def decodeTableWord (nbits w : Nat) : Option Instr :=
  match decode (tableWord nbits w) with
  | .ok i => some i
  | .error _ => none

/-- The 2449 legal words (R99): those that decode. -/
def legalWord (w : MicroWord) : Bool :=
  match decode w with
  | .ok _ => true
  | .error _ => false

end Sys2Proof
end

