-- ==== Sys2Proof/Machine/State.lean ====
section
/-! DEFINITION. The state of the machine as plain data (10_state R20 to R45): five engines, one of each variant, the caller
memory they share, the platform's parameters, and the host's events still to come; and the state after reset. -/

namespace Sys2Proof.Machine

/-- The registers of one lane (R21, R22). `none` is the spec's NOVALUE (R24). -/
structure Lane where
  v0 : Option Word
  v1 : Option Word
  v2 : Option Word
  v3 : Option Word
  m : Option Word
  t : Option Word
  deriving DecidableEq, Repr

/-- `STATUS.STATE` (R40), in the order of its codes 0 to 3. -/
inductive Status where
  | unconfigured
  | ready
  | busy
  | fault
  deriving DecidableEq, Repr

/-- `N_SIZE`, `N_STRIDE`, `N_C`, `N_D`, `N_AS`, `N_STD`, the normalised configuration (R38, R221). -/
structure Norm where
  size : BitVec 16
  stride : BitVec 32
  c : BitVec 8
  d : BitVec 8
  asSpecified : Bool
  standard : Bool
  deriving DecidableEq, Repr

/-- The ten causes with the info a fault value carries (R250). These are faults of the ENGINE, which the model takes as a next
state with `STATUS = FAULT` (R262). -/
inductive Cause where
  /-- `CE_MISSING_SIZE` (R251): CONFIGURE or batch set-up with `CFG_SIZE` not set. -/
  | missingSize
  /-- `CE_STANDARD_BATCH` (R252): STANDARD on DUAL, QUAD or a batch. -/
  | standardBatch
  /-- `CE_IMM_AS_SPECIFIED` (R253): SCALAR_IMM with `N_AS = 1`. -/
  | immAsSpecified
  /-- `CE_IMM_SIZE` (R254): SCALAR_IMM with a size other than 8. -/
  | immSize (size : BitVec 16)
  /-- `CE_WIDTH_ZERO` (R255): batch set-up with width 0. -/
  | widthZero
  /-- `UE_LOAD_UNSUPPORTED` (R256). -/
  | loadUnsupported (word : MicroWord) (upc : Nat)
  /-- `UE_ILLEGAL_OP` (R257). -/
  | illegalOp (word : MicroWord) (upc : Nat)
  /-- `UE_UNWRITTEN_REG` (R258). -/
  | unwrittenReg (word : MicroWord) (upc : Nat) (reg : Reg)
  /-- `UE_NO_FIN` (R259). -/
  | noFin (upc : Nat)
  /-- `UE_FIN_MODE` (R260). -/
  | finMode (word : MicroWord) (upc : Nat)
  deriving DecidableEq, Repr

/-- One engine (R20). An `Option` field's `none` is the spec's NOVALUE. -/
structure Engine where
  /-- `ID.VARIANT` (R41); `ID.LANES` follows from it. Never changes. -/
  variant : Variant
  /-- `x[l][r]`, lane `l` at index `l` (R21); `LANES` of them. -/
  lanes : List Lane
  /-- The micro-program counter (R26). -/
  upc : Nat
  /-- The input cursor (R27). -/
  cur : Nat
  /-- `CFG_SIZE` (R29, R30). -/
  cfgSize : Option (BitVec 16)
  /-- `CFG_STRIDE` (R29, R31). -/
  cfgStride : Option (BitVec 32)
  /-- `CFG_C` (R29, R32). -/
  cfgC : BitVec 8
  /-- `CFG_D` (R29, R33). -/
  cfgD : BitVec 8
  /-- `CFG_FLAGS` (R29, R34). -/
  cfgFlags : BitVec 32
  /-- `CFG_WIDTH` (R29, R35). -/
  cfgWidth : BitVec 16
  /-- `KEY0` (R29, R36). -/
  key0 : Option Word
  /-- `KEY1` (R29, R36). -/
  key1 : Option Word
  /-- `IV0..IV3` (R37); CONFIGURE writes the four together. -/
  iv : Option SipState
  /-- `N_*` (R38); CONFIGURE writes the six together. -/
  norm : Option Norm
  /-- `PROG` (R38, R91). -/
  prog : List MicroWord
  /-- `IN_PTR` (R39). -/
  inPtr : Option Word
  /-- `OUT_PTR` (R39). -/
  outPtr : Option Word
  /-- `ARG` (R39). -/
  arg : Option Word
  /-- `RES` (R39). -/
  res : Option OutWord
  /-- `STATUS.STATE` (R40). -/
  status : Status
  /-- `CAUSE.CODE` (R40, R250). -/
  cause : BitVec 8
  /-- The model's own: the fault `CAUSE` records, with its info (R250: "what a model's fault value carries"; log entry 3). -/
  raised : Option Cause
  deriving DecidableEq, Repr

/-- One engine of each variant (R3, R270). -/
structure Engines where
  scalar : Engine
  scalarImm : Engine
  dual : Engine
  quad : Engine
  ref : Engine
  deriving DecidableEq, Repr

/-- What a region of the platform's address map is (R73): plain memory, or a device the engine must not be pointed at. -/
inductive RegionKind where
  | memory
  | device
  deriving DecidableEq, Repr

/-- A region the host declared (R64): the addresses `base` to `base + size - 1`. -/
structure Region where
  base : Nat
  size : Nat
  kind : RegionKind
  readable : Bool
  writable : Bool
  deriving DecidableEq, Repr

/-- The parameters of the instance (R9, R44): no step writes `initConst`, `hasDual`, `hasQuad`; the host declares `regions`. -/
structure Platform where
  /-- `INIT_CONST[0..3]` (R122, D5). -/
  initConst : SipState
  /-- `HAS_DUAL` (R212, D14). -/
  hasDual : Bool
  /-- `HAS_QUAD` (R212, D14). -/
  hasQuad : Bool
  /-- The regions the host declared (R63, R64, R73). -/
  regions : List Region
  deriving DecidableEq, Repr

/-- What a host can ask of one engine (R220 to R231). -/
inductive Command where
  /-- RESET (R230, R280). -/
  | reset
  /-- CONFIGURE (R220). -/
  | configure
  /-- `CALL(in_ptr)`, for SCALAR and REF (R227). -/
  | call (inPtr : Word)
  /-- `CALL(in_ptr, out_ptr)`, for DUAL and QUAD (R227). -/
  | callOut (inPtr outPtr : Word)
  /-- `CALL_IMM(value)`, for SCALAR_IMM (R228). -/
  | callImm (value : Word)
  /-- A write of `CFG_SIZE` (R29, R231); the others alike. -/
  | writeSize (v : BitVec 16)
  | writeStride (v : BitVec 32)
  | writeC (v : BitVec 8)
  | writeD (v : BitVec 8)
  | writeFlags (v : BitVec 32)
  | writeWidth (v : BitVec 16)
  | writeKey0 (v : Word)
  | writeKey1 (v : Word)
  deriving DecidableEq, Repr

/-- What the host does next (R241). Each event lands between two micro-ops. -/
inductive HostEvent where
  /-- The host issues a command to engine `v`. -/
  | issue (v : Variant) (c : Command)
  /-- The host does nothing while engine `v` takes one step. -/
  | tick (v : Variant)
  /-- A synchronous host waits until engine `v` is not BUSY (R77, R227). -/
  | await (v : Variant)
  /-- The host writes one byte of its memory (R283 step 5, R72). -/
  | poke (addr : Word) (b : Byte)
  /-- The host declares the regions (R64). -/
  | declare (regions : List Region)
  /-- Batch set-up, the source's `compile_multi` (R236, R240). -/
  | batchSetup
  /-- `BATCH(in_ptr, out_ptr)` (R232). -/
  | batch (inPtr outPtr : Word)
  /-- The host wrapper of `Call1`: `MemWrite(out, 4, RES)` with the RES of SCALAR (R233). `slot` is a natural number, which R64 does
  not wrap. -/
  | storeRes (slot : Nat)
  /-- The host comes to an engine call of a batch with a pointer at or above `2^64` (R232, R64; log entry 19). -/
  | callBeyond
  deriving DecidableEq, Repr

/-- A batch that was set up: the `config` the source's `compile_multi` closes over (R232, R236, R240; log entry 8). -/
structure BatchConfig where
  /-- `CFG_WIDTH.WIDTH`, the number `W` of records. -/
  width : BitVec 16
  /-- The normalised configuration every engine of the batch holds. -/
  norm : Norm
  /-- The `IV` every engine of the batch holds (R232: the same key bytes). -/
  iv : SipState
  deriving DecidableEq, Repr

/-- The whole machine. -/
structure State where
  engines : Engines
  /-- The model's own: the engine that executes the next micro-op (R229, R270; log entry 1). -/
  active : Variant
  /-- Caller memory (R42, R60): address and byte, in canonical form. -/
  mem : List Host.Cell
  platform : Platform
  /-- The model's own: how many keys were drawn (R223; log entry 7). -/
  draws : Nat
  /-- The composer's: the batch that was set up and is still in force, if any (R232, R236; log entries 8, 25). -/
  batch : Option BatchConfig
  /-- The model's own: the host's events still to come, oldest first (R241; log entry 9). -/
  pending : List HostEvent
  deriving DecidableEq, Repr

/-- A control register a micro-op needs as a number. -/
inductive ControlReg where
  | inPtr
  | outPtr
  | arg
  | nStride
  deriving DecidableEq, Repr

/-- Why the machine stops: the spec's "stuck", no step exists. -/
inductive Fault where
  /-- A load would read a byte at or above `2^64`, outside the regions the host declared readable, or in a device region
  (R64, R73, U6). Raised by LD8, LD16, LD32, LD64. SAFE: the spec gives no step. -/
  | readNotAdmitted
  /-- FIN on DUAL or QUAD, or the host wrapper of `Call1`, would write such a byte (R64, R73, U6). SAFE: the spec gives no step. -/
  | writeNotAdmitted
  /-- A batch comes to an engine call whose `IN_PTR` or `OUT_PTR` would be at or above `2^64`, which the 64-bit register cannot hold
  and R64 does not wrap (U6; log entry 19). Raised by the host event `callBeyond`, no instruction raises it. SAFE: no step exists. -/
  | pointerBeyond
  /-- A load or FIN needs a control register that holds NOVALUE (R281: NOVALUE cannot be read as a number). Raised by the four
  loads and by FIN on DUAL and QUAD; no command leads there, since CALL and CALL_IMM write these registers. SAFE. -/
  | noValue (r : ControlReg)
  deriving DecidableEq, Repr

/-- Why an instruction has no meaning. -/
inductive Refusal where
  /-- Raised by an arm of `exec` whose instruction has no meaning yet; no arm is left so. SAFE. -/
  | notModelled (mnemonic : String)
  deriving DecidableEq, Repr

/-- A lane no micro-op has written (R24). -/
def Lane.empty : Lane :=
  { v0 := none, v1 := none, v2 := none, v3 := none, m := none, t := none }

/-- An engine after power-on, equal to its state after RESET (R45, R281). -/
def Engine.powerOn (v : Variant) : Engine :=
  { variant := v
    lanes := List.replicate v.lanes Lane.empty
    upc := 0
    cur := 0
    cfgSize := none
    cfgStride := none
    cfgC := 2#8
    cfgD := 4#8
    cfgFlags := 0#32
    cfgWidth := 1#16
    key0 := none
    key1 := none
    iv := none
    norm := none
    prog := []
    inPtr := none
    outPtr := none
    arg := none
    res := none
    status := .unconfigured
    cause := 0#8
    raised := none }

/-- The five engines after power-on (R270: each starts UNCONFIGURED). -/
def Engines.powerOn : Engines :=
  { scalar := Engine.powerOn .scalar
    scalarImm := Engine.powerOn .scalarImm
    dual := Engine.powerOn .dual
    quad := Engine.powerOn .quad
    ref := Engine.powerOn .ref }

/-- The platform the model resets to: the default `INIT_CONST` (log entry 2), both multi-lane engines present (log entry 4), one
readable and writable region over the whole address space (log entry 6). The spec leaves the three open. -/
def Platform.default : Platform :=
  { initConst := Config.initConst
    hasDual := true
    hasQuad := true
    regions := [{ base := 0, size := 2 ^ 64, kind := .memory, readable := true, writable := true }] }

/-- The machine right after reset (R45, R280, R281). -/
def State.reset : State :=
  { engines := Engines.powerOn
    active := .scalar
    mem := []
    platform := Platform.default
    draws := 0
    batch := none
    pending := [] }

end Sys2Proof.Machine
end

