-- ==== Sys2Proof/Machine/Flags.lean ====
section
/-! DEFINITION. Flag and status words. The core has no arithmetic flags (10_state R28): what it has are the two configuration flags
of `CFG_FLAGS` (R34), the status words the host reads (R40, R41) and the cause codes (R250). -/

namespace Sys2Proof.Machine

/-- `CFG_FLAGS.AS_SPECIFIED`, bit 0 (R29, R34). -/
def flagAsSpecified (flags : BitVec 32) : Bool :=
  flags.getLsbD 0

/-- `CFG_FLAGS.STANDARD`, bit 1 (R29, R34). -/
def flagStandard (flags : BitVec 32) : Bool :=
  flags.getLsbD 1

/-- What a host write of `CFG_FLAGS` leaves: bits 31:2 read as 0 and ignore writes (R29, U14). -/
def flagsWritten (v : BitVec 32) : BitVec 32 :=
  v &&& 3#32

/-- The code of a status in `STATUS.STATE` (R40). -/
def Status.code : Status → BitVec 2
  | .unconfigured => 0#2
  | .ready => 1#2
  | .busy => 2#2
  | .fault => 3#2

/-- The 32-bit `STATUS` word: `STATE` in bits 1:0, the rest 0 (R40). -/
def statusWord (s : Status) : BitVec 32 :=
  s.code.setWidth 32

/-- The 32-bit `CAUSE` word: `CODE` in bits 7:0, the rest 0 (R40). -/
def causeWord (code : BitVec 8) : BitVec 32 :=
  code.setWidth 32

/-- `ID.VARIANT` (R41). -/
def variantCode : Variant → Nat
  | .scalar => 0
  | .scalarImm => 1
  | .dual => 2
  | .quad => 3
  | .ref => 4

/-- The 32-bit `ID` word: `VARIANT` in bits 2:0, `LANES` in bits 6:4, the rest 0 (R41). -/
def idWord (v : Variant) : BitVec 32 :=
  BitVec.ofNat 32 (variantCode v + v.lanes * 16)

/-- The codes of the ten causes (R250). -/
def Cause.code : Cause → BitVec 8
  | .missingSize => 1#8
  | .standardBatch => 2#8
  | .immAsSpecified => 3#8
  | .immSize _ => 4#8
  | .widthZero => 5#8
  | .loadUnsupported _ _ => 16#8
  | .illegalOp _ _ => 17#8
  | .unwrittenReg _ _ _ => 18#8
  | .noFin _ => 19#8
  | .finMode _ _ => 20#8

end Sys2Proof.Machine
end

