-- ==== Sys2Proof/Machine/Ops.lean ====
section
/-! DEFINITION. The named operations over memory, lane registers and engines, with the one operation that takes a fault
(60_exceptions R262) and, beside it, RESET, the only way out of one (R263, R280). -/

namespace Sys2Proof.Machine

/-! ### Byte order (R11) -/

/-- `LE(b0, b1, ...)` (R11): the byte listed first is the least significant. -/
def leValue : List Byte → Nat
  | [] => 0
  | b :: bs => b.toNat + 256 * leValue bs

/-- `bytesLE_k(v)` (R11): the `k` low bytes of `v`, least significant first. -/
def bytesLE : Nat → Nat → List Byte
  | 0, _ => []
  | k + 1, v => BitVec.ofNat 8 v :: bytesLE k (v / 256)

/-! ### Caller memory (R60 to R62) -/

/-- Caller memory: address and byte, addresses strictly rising, no byte that an unlisted address reads as. -/
abbrev Memory := List Host.Cell

/-- The canonical form from address `lo` on. -/
def Memory.wfFrom : Nat → Memory → Bool
  | _, [] => true
  | lo, (a, v) :: m => decide (lo ≤ a) && decide (v ≠ Config.unlistedByte) && Memory.wfFrom (a + 1) m

/-- The canonical form: addresses strictly rising, no entry equal to what an unlisted address reads as. -/
def Memory.wf (m : Memory) : Bool :=
  Memory.wfFrom 0 m

/-- The byte at an address. -/
def Memory.read : Memory → Nat → Byte
  | [], _ => Config.unlistedByte
  | (b, v) :: m, a => if a = b then v else Memory.read m a

/-- Memory with one byte written, in canonical form again. -/
def Memory.write : Memory → Nat → Byte → Memory
  | [], a, v => if v = Config.unlistedByte then [] else [(a, v)]
  | (b, w) :: m, a, v =>
    if a < b then (if v = Config.unlistedByte then (b, w) :: m else (a, v) :: (b, w) :: m)
    else if a = b then (if v = Config.unlistedByte then m else (a, v) :: m)
    else (b, w) :: Memory.write m a v

/-- The `n` bytes from address `a` up. -/
def Memory.readBytes (m : Memory) : Nat → Nat → List Byte
  | _, 0 => []
  | a, n + 1 => m.read a :: Memory.readBytes m (a + 1) n

/-- Memory with a list of bytes written from address `a` up. -/
def Memory.writeBytes : Memory → Nat → List Byte → Memory
  | m, _, [] => m
  | m, a, b :: bs => Memory.writeBytes (m.write a b) (a + 1) bs

/-- `MemRead(addr, n)` (R61). -/
def memRead (m : Memory) (a n : Nat) : Nat :=
  leValue (m.readBytes a n)

/-- `MemWrite(addr, n, v)` (R62). -/
def memWrite (m : Memory) (a n v : Nat) : Memory :=
  m.writeBytes a (bytesLE n v)

/-- A row of output slots from address `a` up, at a pitch of `SLOT_BYTES` (R67). -/
def storeSlots : Memory → Nat → List OutWord → Memory
  | m, _, [] => m
  | m, a, w :: ws => storeSlots (memWrite m a 4 w.toNat) (a + Config.slotBytes) ws

/-! ### Lane registers (R21 to R23) -/

/-- The register `r` of a lane. -/
def Lane.get (l : Lane) : Reg → Option Word
  | .v0 => l.v0
  | .v1 => l.v1
  | .v2 => l.v2
  | .v3 => l.v3
  | .m => l.m
  | .t => l.t

/-- A lane with register `r` written. -/
def Lane.set (l : Lane) (r : Reg) (v : Option Word) : Lane :=
  match r with
  | .v0 => { l with v0 := v }
  | .v1 => { l with v1 := v }
  | .v2 => { l with v2 := v }
  | .v3 => { l with v3 := v }
  | .m => { l with m := v }
  | .t => { l with t := v }

/-! ### Engines -/

/-- The engine of a variant. -/
def Engines.get (es : Engines) : Variant → Engine
  | .scalar => es.scalar
  | .scalarImm => es.scalarImm
  | .dual => es.dual
  | .quad => es.quad
  | .ref => es.ref

/-- The engines with the one of a variant replaced. -/
def Engines.set (es : Engines) (v : Variant) (e : Engine) : Engines :=
  match v with
  | .scalar => { es with scalar := e }
  | .scalarImm => { es with scalarImm := e }
  | .dual => { es with dual := e }
  | .quad => { es with quad := e }
  | .ref => { es with ref := e }

/-- The engine of a variant. -/
def State.engine (s : State) (v : Variant) : Engine :=
  s.engines.get v

/-- The state with the engine of a variant replaced. -/
def State.setEngine (s : State) (v : Variant) (e : Engine) : State :=
  { s with engines := s.engines.set v e }

/-- The engine that executes the next micro-op. -/
def State.eng (s : State) : Engine :=
  s.engine s.active

/-- The state with the active engine replaced. -/
def State.putEng (s : State) (e : Engine) : State :=
  s.setEngine s.active e

/-- `upc <- upc + 1`, the end of every micro-op but FIN (R26). -/
def Engine.advance (e : Engine) : Engine :=
  { e with upc := e.upc + 1 }

/-- An engine whose lane `l` is changed to `f l` of it, for every lane (R209: all lanes in the same step). -/
def Engine.mapLanes (e : Engine) (f : Nat → Lane → Lane) : Engine :=
  { e with lanes := e.lanes.mapIdx f }

/-! ### Fault entry and RESET -/

/-- `raise <Cause>(info)` (R262): the first cause is kept, `STATUS <- FAULT`, `RES <- NOVALUE`, nothing else.
DEDUCED (log entry 10): R262 lets a model show it as the step's fault outcome; it is a next state here, so that RESET can leave it. -/
def Engine.raise (c : Cause) (e : Engine) : Engine :=
  { e with
    cause := if e.cause = 0#8 then c.code else e.cause
    raised := if e.cause = 0#8 then some c else e.raised
    status := .fault
    res := none }

/-- The active engine takes a fault. -/
def State.raise (c : Cause) (s : State) : State :=
  s.putEng (s.eng.raise c)

/-- RESET (R230, R263, R280), the only way out of FAULT: every register to its reset value, `ID` kept. -/
def Engine.reset (e : Engine) : Engine :=
  { e with
    lanes := List.replicate e.variant.lanes Lane.empty
    upc := 0
    cur := 0
    cfgSize := none
    cfgStride := none
    cfgC := 2#8
    cfgD := 4#8
    cfgFlags := 0#32
    cfgWidth := 1#16
    key0 := none
    key1 := none
    iv := none
    norm := none
    prog := []
    inPtr := none
    outPtr := none
    arg := none
    res := none
    status := .unconfigured
    cause := 0#8
    raised := none }

end Sys2Proof.Machine
end

