-- ==== Sys2Proof/Machine/Operands.lean ====
section
/-! DEFINITION. The operand forms: lane registers that may hold NOVALUE (10_state R24), immediates (30_encoding R100), the
cursor-relative address with lane stride (42_load_ops R160), and the access rule of 20_memory R64. -/

namespace Sys2Proof.Machine

/-! ### Register operands -/

/-- Does register `r` hold NOVALUE in some lane (R258)? -/
def Engine.unwritten (e : Engine) (r : Reg) : Bool :=
  e.lanes.any (fun l => (l.get r).isNone)

/-- The first register of a micro-op's operands that holds NOVALUE in some lane (R258).
DESIGN CHOICE (log entry 11): the order of the list decides which one the info names. -/
def Engine.firstUnwritten (e : Engine) (rs : List Reg) : Option Reg :=
  rs.find? e.unwritten

/-- A one-operand operation on values that may be NOVALUE. -/
def lift1 (f : Word → Word) : Option Word → Option Word
  | some a => some (f a)
  | none => none

/-- A two-operand operation on values that may be NOVALUE. -/
def lift2 (f : Word → Word → Word) : Option Word → Option Word → Option Word
  | some a, some b => some (f a b)
  | _, _ => none

/-- `rotl64(a, n)` (R11). -/
def rotl64 (a : Word) (n : Nat) : Word :=
  if n = 0 then a else (a <<< n) ||| (a >>> (64 - n))

/-- `zext_64(imm8)` (R100). -/
def zextByte (b : Nat) : Word :=
  BitVec.ofNat 64 b

/-- The common shape of ADD, XOR, OR, SHL, ROTL (R150): the check on the registers read, over all lanes and before any write;
then `f` on every lane and `upc <- upc + 1`. -/
def aluOp (i : Instr) (reads : List Reg) (f : Lane → Lane) (s : State) : Host.Outcome State Fault Refusal :=
  match s.eng.firstUnwritten reads with
  | some r => .next (s.raise (.unwrittenReg (encode i) s.eng.upc r))
  | none => .next (s.putEng (s.eng.mapLanes (fun _ l => f l)).advance)

/-! ### Memory operands -/

/-- Does a region hold the address? -/
def Region.holds (r : Region) (a : Nat) : Bool :=
  decide (r.base ≤ a) && decide (a < r.base + r.size)

/-- Is the address in a device region (R73)? -/
def deviceAt (regions : List Region) (a : Nat) : Bool :=
  regions.any (fun r => r.holds a && r.kind == .device)

/-- May the engine read the byte at `a` (R64)? -/
def readable (regions : List Region) (a : Nat) : Bool :=
  decide (a < Config.addressSpace) && !deviceAt regions a &&
    regions.any (fun r => r.holds a && r.kind == .memory && r.readable)

/-- May the engine write the byte at `a` (R64)? -/
def writable (regions : List Region) (a : Nat) : Bool :=
  decide (a < Config.addressSpace) && !deviceAt regions a &&
    regions.any (fun r => r.holds a && r.kind == .memory && r.writable)

/-- Does `ok` hold of the `n` addresses from `a` up? -/
def allAddresses (ok : Nat → Bool) (a n : Nat) : Bool :=
  (List.range n).all (fun i => ok (a + i))

/-- May the engine read `n` bytes at `a`? -/
def admitsRead (p : Platform) (a n : Nat) : Bool :=
  allAddresses (readable p.regions) a n

/-- May the engine write `n` bytes at `a`? -/
def admitsWrite (p : Platform) (a n : Nat) : Bool :=
  allAddresses (writable p.regions) a n

/-- The number a pointer register gives; used only where it holds one. -/
def ptrValue (p : Option Word) : Nat :=
  match p with
  | some a => a.toNat
  | none => 0

/-- The lane stride; used only where `N_STRIDE` holds a value, or for lane 0, where it has no effect (R201). -/
def Engine.strideValue (e : Engine) : Nat :=
  match e.norm with
  | some n => n.stride.toNat
  | none => 0

/-- `EA(l) = IN_PTR + l * N_STRIDE + cur` (R160), on natural numbers (R64). -/
def Engine.ea (e : Engine) (l : Nat) : Nat :=
  ptrValue e.inPtr + l * e.strideValue + e.cur

/-- Why a load of `n` bytes per lane has no step, if so: a control register holds NOVALUE (R281), or a lane's access is not
admitted (R64). The order of the lanes is open (R76) and the answer names none. -/
def loadStop (s : State) (n : Nat) : Option Fault :=
  if s.eng.inPtr = none then some (.noValue .inPtr)
  else if s.eng.norm = none ∧ 1 < s.eng.lanes.length then some (.noValue .nStride)
  else if (List.range s.eng.lanes.length).all (fun l => admitsRead s.platform (s.eng.ea l) n) then none
  else some .readNotAdmitted

/-- A load of `n` bytes into `rd` in every lane (R160): all lanes use the old `cur`, which advances once. -/
def Engine.loaded (e : Engine) (mem : Memory) (n : Nat) (rd : Reg) : Engine :=
  { (e.mapLanes (fun l x => x.set rd (some (BitVec.ofNat 64 (memRead mem (e.ea l) n))))).advance with
    cur := e.cur + n }

/-- LD8, LD16, LD32, LD64 on the variants that read memory (R160). -/
def memLoad (n : Nat) (rd : Reg) (s : State) : Host.Outcome State Fault Refusal :=
  match loadStop s n with
  | some f => .fault f
  | none => .next (s.putEng (s.eng.loaded s.mem n rd))

/-- A load that SCALAR_IMM does not support (R166, R256). -/
def loadUnsupported (i : Instr) (s : State) : Host.Outcome State Fault Refusal :=
  .next (s.raise (.loadUnsupported (encode i) s.eng.upc))

/-- LD64 at `cur = 0` on SCALAR_IMM (R166): `ARG` reaches the register, no memory is touched. -/
def immLoad (rd : Reg) (s : State) : Host.Outcome State Fault Refusal :=
  match s.eng.arg with
  | none => .fault (.noValue .arg)
  | some a => .next (s.putEng { (s.eng.mapLanes (fun _ x => x.set rd (some a))).advance with cur := 8 })

/-! ### Output formats and delivery -/

/-- The standard format (40_algorithm R133) or the internal one (R134). -/
def formatOut (standard : Bool) (h : Word) : OutWord :=
  if standard then h.setWidth 32 else (h >>> 32).setWidth 32 <<< 1

/-- `out[l]` of a lane (R171); used only where `rs` holds a value. -/
def laneOut (standard : Bool) (rs : Reg) (l : Lane) : OutWord :=
  match l.get rs with
  | some h => formatOut standard h
  | none => 0

/-- `out[0 .. LANES-1]` (R171). -/
def Engine.outs (e : Engine) (standard : Bool) (rs : Reg) : List OutWord :=
  e.lanes.map (laneOut standard rs)

/-- Delivery on SCALAR, SCALAR_IMM, REF (R172): `RES <- out[0]`; then the call ends (R173). -/
def deliverRes (rs : Reg) (standard : Bool) (s : State) : Host.Outcome State Fault Refusal :=
  .next (s.putEng { s.eng with res := (s.eng.outs standard rs).head?, status := .ready })

/-- Delivery on DUAL, QUAD (R172): slot `i` at `OUT_PTR + 4*i`; then the call ends (R173). -/
def deliverSlots (rs : Reg) (standard : Bool) (s : State) : Host.Outcome State Fault Refusal :=
  match s.eng.outPtr with
  | none => .fault (.noValue .outPtr)
  | some p =>
    if admitsWrite s.platform p.toNat (Config.slotBytes * s.eng.lanes.length) then
      .next { s.putEng { s.eng with status := .ready } with
        mem := storeSlots s.mem p.toNat (s.eng.outs standard rs) }
    else .fault .writeNotAdmitted

end Sys2Proof.Machine
end

