-- ==== Sys2Proof/Machine/Algorithm.lean ====
section
/-! DEFINITION. What the hardware computes, as pure functions (40_algorithm R120 to R137). CONFIGURE uses `initState`; the rest is the
function level of the spec, which the micro-programs of the sequencer agree with (44_sequencer R192). -/

namespace Sys2Proof.Machine

/-- `InitState(key)` for the 16 key bytes (R121, R66), with `INIT_CONST` as a parameter (R122). -/
def initState (ic : SipState) (key : List Byte) : SipState :=
  let k0 : Word := BitVec.ofNat 64 (leValue (key.take 8))
  let k1 : Word := BitVec.ofNat 64 (leValue ((key.drop 8).take 8))
  { v0 := ic.v0 ^^^ k0, v1 := ic.v1 ^^^ k1, v2 := ic.v2 ^^^ k0, v3 := ic.v3 ^^^ k1 }

/-- `SipRound` (R123), its fourteen steps in order. -/
def sipRound (v : SipState) : SipState :=
  let v := { v with v0 := v.v0 + v.v1 }
  let v := { v with v1 := rotl64 v.v1 13 }
  let v := { v with v1 := v.v1 ^^^ v.v0 }
  let v := { v with v0 := rotl64 v.v0 32 }
  let v := { v with v2 := v.v2 + v.v3 }
  let v := { v with v3 := rotl64 v.v3 16 }
  let v := { v with v3 := v.v3 ^^^ v.v2 }
  let v := { v with v0 := v.v0 + v.v3 }
  let v := { v with v3 := rotl64 v.v3 21 }
  let v := { v with v3 := v.v3 ^^^ v.v0 }
  let v := { v with v2 := v.v2 + v.v1 }
  let v := { v with v1 := rotl64 v.v1 17 }
  let v := { v with v1 := v.v1 ^^^ v.v2 }
  { v with v2 := rotl64 v.v2 32 }

/-- `SipRound^n` (R124). -/
def sipRounds : Nat → SipState → SipState
  | 0, v => v
  | n + 1, v => sipRounds n (sipRound v)

/-- `Compress(v, m, c)` (R125). -/
def compress (v : SipState) (m : Word) (c : Nat) : SipState :=
  let v := { v with v3 := v.v3 ^^^ m }
  let v := sipRounds c v
  { v with v0 := v.v0 ^^^ m }

/-- `B` full blocks of a record, compressed in order (R126). -/
def compressBlocks (c : Nat) : Nat → SipState → List Byte → SipState
  | 0, v, _ => v
  | b + 1, v, bytes => compressBlocks c b (compress v (BitVec.ofNat 64 (leValue (bytes.take 8))) c) (bytes.drop 8)

/-- `TailBytes` (R127): the last `size mod 8` bytes of a record. -/
def tailBytes (size : Nat) (record : List Byte) : Word :=
  BitVec.ofNat 64 (leValue (record.drop (8 * (size / 8))))

/-- `m_tail` of the as-specified policy (R128). -/
def tailWordAs (size : Nat) (record : List Byte) : Word :=
  tailBytes size record ||| (BitVec.ofNat 64 (size % 256) <<< 56)

/-- The tail step of either policy (R128, R129, R131). -/
def tailStep (n : Norm) (record : List Byte) (v : SipState) : SipState :=
  if n.asSpecified then compress v (tailWordAs n.size.toNat record) n.c.toNat
  else if 0 < n.size.toNat % 8 then compress v (tailBytes n.size.toNat record) n.c.toNat
  else v

/-- `Finalize(v, d)` (R132). -/
def finalize (v : SipState) (d : Nat) : Word :=
  let v := { v with v2 := v.v2 ^^^ 0xff#64 }
  let v := sipRounds d v
  v.v0 ^^^ v.v1 ^^^ v.v2 ^^^ v.v3

/-- `H64` from an initial state (R135). -/
def hash64From (iv : SipState) (n : Norm) (record : List Byte) : Word :=
  finalize (tailStep n record (compressBlocks n.c.toNat (n.size.toNat / 8) iv record)) n.d.toNat

/-- `H` from an initial state (R133 to R135). -/
def hashFrom (iv : SipState) (n : Norm) (record : List Byte) : OutWord :=
  formatOut n.standard (hash64From iv n record)

/-- `H(cfg, key, b)` (R135). -/
def hash (ic : SipState) (n : Norm) (key record : List Byte) : OutWord :=
  hashFrom (initState ic key) n record

end Sys2Proof.Machine
end

