-- ==== Sys2Proof/Machine/Arith.lean ====
section
/-! DEFINITION. The arithmetic and bitwise micro-ops (41_arith_ops R150 to R155). -/

namespace Sys2Proof.Machine

/-- ADD rd, rs (R151): modulo `2^64`, the carry discarded, no carry between lanes. -/
def execAdd (rd rs : Reg) (s : State) : Host.Outcome State Fault Refusal :=
  aluOp (.add rd rs) [rd, rs] (fun l => l.set rd (lift2 (fun a b => a + b) (l.get rd) (l.get rs))) s

/-- XOR rd, rs (R152). -/
def execXor (rd rs : Reg) (s : State) : Host.Outcome State Fault Refusal :=
  aluOp (.xor rd rs) [rd, rs] (fun l => l.set rd (lift2 (fun a b => a ^^^ b) (l.get rd) (l.get rs))) s

/-- OR rd, rs (R153). -/
def execOr (rd rs : Reg) (s : State) : Host.Outcome State Fault Refusal :=
  aluOp (.or rd rs) [rd, rs] (fun l => l.set rd (lift2 (fun a b => a ||| b) (l.get rd) (l.get rs))) s

/-- SHL rd, n (R154): `x * 2^n` modulo `2^64`. -/
def execShl (rd : Reg) (n : Nat) (s : State) : Host.Outcome State Fault Refusal :=
  aluOp (.shl rd n) [rd] (fun l => l.set rd (lift1 (fun a => a <<< n) (l.get rd))) s

/-- ROTL rd, n (R155). -/
def execRotl (rd : Reg) (n : Nat) (s : State) : Host.Outcome State Fault Refusal :=
  aluOp (.rotl rd n) [rd] (fun l => l.set rd (lift1 (fun a => rotl64 a n) (l.get rd))) s

end Sys2Proof.Machine
end

