-- ==== Sys2Proof/Machine/Load.lean ====
section
/-! DEFINITION. The load micro-ops (42_load_ops R160 to R166). -/

namespace Sys2Proof.Machine

/-- LDI rd, b (R165): every lane, no register read, no memory, `cur` kept. -/
def execLdi (rd : Reg) (b : Nat) (s : State) : Host.Outcome State Fault Refusal :=
  .next (s.putEng (s.eng.mapLanes (fun _ l => l.set rd (some (zextByte b)))).advance)

/-- LD8 rd (R161; on SCALAR_IMM R166). -/
def execLd8 (rd : Reg) (s : State) : Host.Outcome State Fault Refusal :=
  if s.eng.variant = .scalarImm then loadUnsupported (.ld8 rd) s else memLoad 1 rd s

/-- LD16 rd (R162; on SCALAR_IMM R166). -/
def execLd16 (rd : Reg) (s : State) : Host.Outcome State Fault Refusal :=
  if s.eng.variant = .scalarImm then loadUnsupported (.ld16 rd) s else memLoad 2 rd s

/-- LD32 rd (R163; on SCALAR_IMM R166). -/
def execLd32 (rd : Reg) (s : State) : Host.Outcome State Fault Refusal :=
  if s.eng.variant = .scalarImm then loadUnsupported (.ld32 rd) s else memLoad 4 rd s

/-- LD64 rd (R164; on SCALAR_IMM R166: `ARG`, once, at `cur = 0`). -/
def execLd64 (rd : Reg) (s : State) : Host.Outcome State Fault Refusal :=
  if s.eng.variant = .scalarImm then
    if s.eng.cur = 0 then immLoad rd s else loadUnsupported (.ld64 rd) s
  else memLoad 8 rd s

end Sys2Proof.Machine
end

