-- ==== Sys2Proof/Machine/System.lean ====
section
/-! DEFINITION. The system micro-ops INIT and FIN (43_system_ops R170 to R174). -/

namespace Sys2Proof.Machine

/-- The four state words written into a lane, M and T kept (R170). An `IV` that holds NOVALUE is copied as NOVALUE: INIT raises
no fault, and no command leads there (the `IV` registers hold values when the engine is READY). -/
def Lane.initFrom (iv : Option SipState) (l : Lane) : Lane :=
  { l with
    v0 := iv.map (fun k => k.v0)
    v1 := iv.map (fun k => k.v1)
    v2 := iv.map (fun k => k.v2)
    v3 := iv.map (fun k => k.v3) }

/-- INIT (R170): every lane gets the same four words; `cur` kept. -/
def execInit (s : State) : Host.Outcome State Fault Refusal :=
  .next (s.putEng (s.eng.mapLanes (fun _ l => l.initFrom s.eng.iv)).advance)

/-- FIN rs, s (R171 to R174): first `UE_FIN_MODE`, then `UE_UNWRITTEN_REG` (R265), then the delivery of the variant. -/
def execFin (rs : Reg) (standard : Bool) (s : State) : Host.Outcome State Fault Refusal :=
  if standard && s.eng.variant.multiLane then
    .next (s.raise (.finMode (encode (.fin rs standard)) s.eng.upc))
  else match s.eng.firstUnwritten [rs] with
  | some r => .next (s.raise (.unwrittenReg (encode (.fin rs standard)) s.eng.upc r))
  | none => if s.eng.variant.multiLane then deliverSlots rs standard s else deliverRes rs standard s

end Sys2Proof.Machine
end

