-- ==== Sys2Proof/Machine/Dispatch.lean ====
section
/-! DEFINITION. One arm per constructor of Instr (30_encoding R99), each a direct call of its meaning. -/

namespace Sys2Proof.Machine

def exec (i : Instr) (s : State) : Host.Outcome State Fault Refusal :=
  match i with
  -- 43_system_ops
  | .init => Sys2Proof.Machine.execInit s
  -- 41_arith_ops
  | .add rd rs => Sys2Proof.Machine.execAdd rd rs s
  | .xor rd rs => Sys2Proof.Machine.execXor rd rs s
  | .or rd rs => Sys2Proof.Machine.execOr rd rs s
  | .shl rd n => Sys2Proof.Machine.execShl rd n s
  | .rotl rd n => Sys2Proof.Machine.execRotl rd n s
  -- 42_load_ops
  | .ldi rd b => Sys2Proof.Machine.execLdi rd b s
  | .ld8 rd => Sys2Proof.Machine.execLd8 rd s
  | .ld16 rd => Sys2Proof.Machine.execLd16 rd s
  | .ld32 rd => Sys2Proof.Machine.execLd32 rd s
  | .ld64 rd => Sys2Proof.Machine.execLd64 rd s
  -- 43_system_ops
  | .fin rs standard => Sys2Proof.Machine.execFin rs standard s

end Sys2Proof.Machine
end

