-- ==== Sys2Proof/Machine/Fetch.lean ====
section
/-! DEFINITION. One step of an engine (46_commands R229): fetch `PROG[upc]`, decode, execute; and the placing of a word where
the next step fetches. -/

namespace Sys2Proof.Machine

/-- Fetch and execute one micro-op on the active engine (R229), with the two fetch faults in the order of R265. -/
def fetchExec (s : State) : Host.Outcome State Fault Refusal :=
  match s.eng.prog[s.eng.upc]? with
  | none => .next (s.raise (.noFin s.eng.upc))
  | some w =>
    match decode w with
    | .error _ => .next (s.raise (.illegalOp w s.eng.upc))
    | .ok i => exec i s

/-- One step of the active engine: it executes only while BUSY (R227, R282); otherwise nothing happens (R281). -/
def engineStep (s : State) : Host.Outcome State Fault Refusal :=
  if s.eng.status = .busy then fetchExec s else .next s

/-- The five variants, in the order of their `ID` codes (R41). -/
def allVariants : List Variant :=
  [.scalar, .scalarImm, .dual, .quad, .ref]

/-- Which engine moves when the host has nothing to do: the active one while it is BUSY, else the first BUSY one (R242: an accepted
command runs to completion). DESIGN CHOICE (log entry 9). -/
def schedule (s : State) : State :=
  if s.eng.status = .busy then s
  else match allVariants.find? (fun v => (s.engine v).status == .busy) with
  | some v => { s with active := v }
  | none => s

/-- A program with word `w` at index `k`, padded with the illegal word 0x0000 where it is shorter (R101). -/
def placeWord : List MicroWord → Nat → MicroWord → List MicroWord
  | [], 0, w => [w]
  | _ :: p, 0, w => w :: p
  | [], k + 1, w => 0#16 :: placeWord [] k w
  | x :: p, k + 1, w => x :: placeWord p k w

/-- A pointer or argument register as a CALL with argument 0 would leave it, where it holds NOVALUE. -/
def orZero (p : Option Word) : Option Word :=
  match p with
  | some a => some a
  | none => some 0#64

/-- The active engine in the middle of a call whose next word is `w`: what a CONFIGURE and a CALL make of it (log entry 14). -/
def Engine.withNextWord (e : Engine) (w : MicroWord) : Engine :=
  { e with
    prog := placeWord e.prog e.upc w
    status := .busy
    inPtr := orZero e.inPtr
    outPtr := orZero e.outPtr
    arg := orZero e.arg }

/-- The state whose next step fetches and runs `w`: no host event comes first. -/
def placeNextWord (s : State) (w : MicroWord) : State :=
  { s.putEng (s.eng.withNextWord w) with pending := [] }

end Sys2Proof.Machine
end

