-- ==== Sys2Proof/Machine/Sequencer.lean ====
section
/-! DEFINITION. The sequencer (44_sequencer R180 to R194): the micro-program of a configuration. -/

namespace Sys2Proof.Machine

/-- `n` copies of a list, one after the other (R180: the loops are unrolled). -/
def repeatOps : Nat → List Instr → List Instr
  | 0, _ => []
  | n + 1, p => p ++ repeatOps n p

/-- `ROUND` (R181). -/
def roundOps : List Instr :=
  [ .add .v0 .v1, .rotl .v1 13, .xor .v1 .v0, .rotl .v0 32,
    .add .v2 .v3, .rotl .v3 16, .xor .v3 .v2,
    .add .v0 .v3, .rotl .v3 21, .xor .v3 .v0,
    .add .v2 .v1, .rotl .v1 17, .xor .v1 .v2, .rotl .v2 32 ]

/-- `COMPRESS c` (R182). -/
def compressOps (c : Nat) : List Instr :=
  [.xor .v3 .m] ++ repeatOps c roundOps ++ [.xor .v0 .m]

/-- `BLOCK c` (R183). -/
def blockOps (c : Nat) : List Instr :=
  .ld64 .m :: compressOps c

/-- The load of a chunk's width in bytes (R130). -/
def chunkLoad (width : Nat) (rd : Reg) : Instr :=
  if width = 4 then .ld32 rd else if width = 2 then .ld16 rd else .ld8 rd

/-- The chunks of `r` tail bytes, each its width and its tail byte offset (R130). -/
def tailChunks (r : Nat) : List (Nat × Nat) :=
  (if r / 4 % 2 = 1 then [(4, 0)] else []) ++
  (if r / 2 % 2 = 1 then [(2, 4 * (r / 4 % 2))] else []) ++
  (if r % 2 = 1 then [(1, r - 1)] else [])

/-- A chunk through T: loaded, shifted to its little-endian position when that is not bit 0, merged into M (R184). -/
def mergeChunk (chunk : Nat × Nat) : List Instr :=
  [chunkLoad chunk.1 .t] ++ (if 0 < chunk.2 then [.shl .t (8 * chunk.2)] else []) ++ [.or .m .t]

/-- `TAIL_AS r, size` (R184). -/
def tailAsOps (r size : Nat) : List Instr :=
  [.ldi .m (size % 256), .shl .m 56] ++ (tailChunks r).flatMap mergeChunk

/-- `TAIL_FIXED r` (R185): the first chunk straight into M, the others merged. -/
def tailFixedOps (r : Nat) : List Instr :=
  match tailChunks r with
  | [] => []
  | c :: cs => chunkLoad c.1 .m :: cs.flatMap mergeChunk

/-- `FINAL d, s` (R186). -/
def finalOps (d : Nat) (standard : Bool) : List Instr :=
  [.ldi .t 255, .xor .v2 .t] ++ repeatOps d roundOps ++
    [.xor .v0 .v1, .xor .v2 .v3, .xor .v0 .v2, .fin .v0 standard]

/-- The tail of a program (R180). -/
def tailOps (n : Norm) : List Instr :=
  if n.asSpecified then tailAsOps (n.size.toNat % 8) n.size.toNat ++ compressOps n.c.toNat
  else if 0 < n.size.toNat % 8 then tailFixedOps (n.size.toNat % 8) ++ compressOps n.c.toNat
  else []

/-- `Program(size, c, d, as, std)` (R180); it reads no stride (R191). -/
def program (n : Norm) : List Instr :=
  [.init] ++ repeatOps (n.size.toNat / 8) (blockOps n.c.toNat) ++ tailOps n ++ finalOps n.d.toNat n.standard

/-- `PROG <- encode(Program(...))` (R220). -/
def programWords (n : Norm) : List MicroWord :=
  (program n).map encode

end Sys2Proof.Machine
end

