-- ==== Sys2Proof/Machine/Commands.lean ====
section
/-! DEFINITION. The host's commands to one engine (46_commands R220 to R231), the key helpers (R238, R239) and what the host can
read (R231). -/

namespace Sys2Proof.Machine

/-! ### CONFIGURE -/

/-- Normalisation (R221) for a `CFG_SIZE` that is set. -/
def Engine.normalised (e : Engine) (size : BitVec 16) : Norm :=
  { size := size
    stride := e.cfgStride.getD (size.setWidth 32)
    c := e.cfgC
    d := e.cfgD
    asSpecified := flagStandard e.cfgFlags || flagAsSpecified e.cfgFlags
    standard := flagStandard e.cfgFlags }

/-- Validation in the order of R222 (R265): the first failing check gives the cause. -/
def Engine.configCheck (e : Engine) : Except Cause Norm :=
  match e.cfgSize with
  | none => .error .missingSize
  | some size =>
    if e.variant = .scalarImm ∧ (e.normalised size).asSpecified = true then .error .immAsSpecified
    else if e.variant = .scalarImm ∧ size ≠ 8#16 then .error (.immSize size)
    else if e.variant.multiLane = true ∧ (e.normalised size).standard = true then .error .standardBatch
    else .ok (e.normalised size)

/-- `bytesLE_8(KEY0) ++ bytesLE_8(KEY1)` (R223). -/
def keyBytes (k0 k1 : Word) : List Byte :=
  bytesLE 8 k0.toNat ++ bytesLE 8 k1.toNat

/-- The key the host supplied: both halves written, or none (R36, R223, U18). -/
def Engine.suppliedKey (e : Engine) : Option (List Byte) :=
  match e.key0, e.key1 with
  | some k0, some k1 => some (keyBytes k0 k1)
  | _, _ => none

/-- `random_key()` (R239): the 16 bytes of the `n`-th draw, a free value (D13). -/
def drawnKey (n : Nat) : List Byte :=
  bytesLE 16 (Config.randomKey n).toNat

/-- Steps 3 to 6 of CONFIGURE (R220), with the key registers cleared (R223, R295). -/
def Engine.configured (e : Engine) (ic : SipState) (n : Norm) (key : List Byte) : Engine :=
  { e with
    iv := some (initState ic key)
    norm := some n
    prog := programWords n
    key0 := none
    key1 := none
    status := .ready }

/-- CONFIGURE (R220) on engine `v`, once accepted. -/
def configure (s : State) (v : Variant) : State :=
  match (s.engine v).configCheck with
  | .error c => s.setEngine v ((s.engine v).raise c)
  | .ok n =>
    match (s.engine v).suppliedKey with
    | some key => s.setEngine v ((s.engine v).configured s.platform.initConst n key)
    | none =>
      { s.setEngine v ((s.engine v).configured s.platform.initConst n (drawnKey s.draws)) with
        draws := s.draws + 1 }

/-! ### CALL and CALL_IMM -/

/-- A range of addresses, `lo` included and `hi` not; empty when `hi ≤ lo`. -/
structure Span where
  lo : Nat
  hi : Nat
  deriving DecidableEq, Repr

/-- Do two ranges share an address? -/
def Span.overlaps (a b : Span) : Bool :=
  decide (max a.lo b.lo < min a.hi b.hi)

/-- The input region of `lanes` records (R237; for one call, log entry 12): empty when the size is 0. -/
def inputSpan (n : Norm) (lanes inPtr : Nat) : Span :=
  if n.size.toNat = 0 then ⟨inPtr, inPtr⟩
  else ⟨inPtr, inPtr + (lanes - 1) * n.stride.toNat + n.size.toNat⟩

/-- The output region of `lanes` slots (R67, R71, R237). -/
def outputSpan (lanes outPtr : Nat) : Span :=
  ⟨outPtr, outPtr + Config.slotBytes * lanes⟩

/-- The input region of the call in progress on an engine (R70); SCALAR_IMM reads no memory (R69). -/
def Engine.callInput (e : Engine) : Span :=
  match e.norm with
  | none => ⟨0, 0⟩
  | some n => if e.variant = .scalarImm then ⟨0, 0⟩ else inputSpan n e.variant.lanes (ptrValue e.inPtr)

/-- The output region of the call in progress on an engine (R71): only DUAL and QUAD have one. -/
def Engine.callOutput (e : Engine) : Span :=
  if e.variant.multiLane then outputSpan e.variant.lanes (ptrValue e.outPtr) else ⟨0, 0⟩

/-- Does a range touch a device region (R73)? -/
def touchesDevice (regions : List Region) (a : Span) : Bool :=
  regions.any (fun r => r.kind == .device && a.overlaps ⟨r.base, r.base + r.size⟩)

/-- May a call with these regions run beside the calls in progress on the engines (R77, R293)? -/
def disjointFromBusy (s : State) (input output : Span) : Bool :=
  allVariants.all (fun u => decide ((s.engine u).status ≠ .busy) ||
    (!output.overlaps (s.engine u).callInput && !output.overlaps (s.engine u).callOutput &&
      !input.overlaps (s.engine u).callOutput))

/-- The region discipline of a launch (R73, R74, R77, U8): what breaks it is refused. `pointers` are the values it would write to
`IN_PTR` and `OUT_PTR`: none may lie in a device region, also when its region is empty. -/
def launchAllowed (s : State) (pointers : List Nat) (input output : Span) : Bool :=
  pointers.all (fun p => !deviceAt s.platform.regions p) &&
    !input.overlaps output && !touchesDevice s.platform.regions input &&
    !touchesDevice s.platform.regions output && disjointFromBusy s input output

/-- An engine at the start of a call (R24, R227). -/
def Engine.startCall (e : Engine) : Engine :=
  { e with
    lanes := List.replicate e.variant.lanes Lane.empty
    upc := 0
    cur := 0
    status := .busy }

/-! ### Acceptance and effect -/

/-- Does the host have an engine of this variant (R212)? -/
def Platform.has (p : Platform) : Variant → Bool
  | .scalar => true
  | .scalarImm => true
  | .dual => p.hasDual
  | .quad => p.hasQuad
  | .ref => true

/-- May CONFIGURE and configuration writes be accepted in this status (R220, R263, R290; log entry 13)? -/
def Status.quiescent : Status → Bool
  | .unconfigured => true
  | .ready => true
  | .busy => false
  | .fault => false

/-- Is `CALL(in_ptr)` accepted on engine `v` (R227, R228)? Only SCALAR and REF take it. -/
def acceptsCall (s : State) (v : Variant) (inPtr : Word) : Bool :=
  match (s.engine v).norm with
  | none => false
  | some n => (decide (v = .scalar) || decide (v = .ref)) && decide ((s.engine v).status = .ready) &&
      launchAllowed s [inPtr.toNat] (inputSpan n v.lanes inPtr.toNat) ⟨0, 0⟩

/-- Is `CALL(in_ptr, out_ptr)` accepted on engine `v` (R227)? Only DUAL and QUAD take it. -/
def acceptsCallOut (s : State) (v : Variant) (inPtr outPtr : Word) : Bool :=
  match (s.engine v).norm with
  | none => false
  | some n => v.multiLane && decide ((s.engine v).status = .ready) &&
      launchAllowed s [inPtr.toNat, outPtr.toNat] (inputSpan n v.lanes inPtr.toNat) (outputSpan v.lanes outPtr.toNat)

/-- Is a command accepted (R220, R227, R228, R230, R263, R290, U16)? -/
def accepts (s : State) (v : Variant) : Command → Bool
  | .reset => s.platform.has v
  | .configure => s.platform.has v && (s.engine v).status.quiescent
  | .call inPtr => s.platform.has v && acceptsCall s v inPtr
  | .callOut inPtr outPtr => s.platform.has v && acceptsCallOut s v inPtr outPtr
  | .callImm _ => decide (v = .scalarImm) && decide ((s.engine v).status = .ready)
  | .writeSize _ => s.platform.has v && (s.engine v).status.quiescent
  | .writeStride _ => s.platform.has v && (s.engine v).status.quiescent
  | .writeC _ => s.platform.has v && (s.engine v).status.quiescent
  | .writeD _ => s.platform.has v && (s.engine v).status.quiescent
  | .writeFlags _ => s.platform.has v && (s.engine v).status.quiescent
  | .writeWidth _ => s.platform.has v && (s.engine v).status.quiescent
  | .writeKey0 _ => s.platform.has v && (s.engine v).status.quiescent
  | .writeKey1 _ => s.platform.has v && (s.engine v).status.quiescent

/-- The engines of a batch: SCALAR, and DUAL and QUAD where the host has them (R283). -/
def composerEngines (p : Platform) : List Variant :=
  [.scalar] ++ (if p.hasDual then [.dual] else []) ++ (if p.hasQuad then [.quad] else [])

/-- A RESET or CONFIGURE of an engine of a batch ends the batch set-up in force, a command to another engine does not.
DESIGN CHOICE (log entry 25): the spec does not say what becomes of a set-up whose engines the host resets or reconfigures. -/
def State.endSetup (s : State) (v : Variant) : State :=
  { s with batch := if v ∈ composerEngines s.platform then none else s.batch }

/-- The effect of an accepted command (R220, R227, R228, R230, R231). A call makes its engine the active one. On the engines that
deliver to `RES` a call clears it: R294 lets no hardware state keep a result beyond the next call (DEDUCED, log entry 23). -/
def perform (s : State) (v : Variant) : Command → State
  | .reset => (s.setEngine v (s.engine v).reset).endSetup v
  | .configure => (configure s v).endSetup v
  | .call inPtr =>
    { s.setEngine v { (s.engine v).startCall with inPtr := some inPtr, res := none } with active := v }
  | .callOut inPtr outPtr =>
    { s.setEngine v { (s.engine v).startCall with inPtr := some inPtr, outPtr := some outPtr } with active := v }
  | .callImm value =>
    { s.setEngine v { (s.engine v).startCall with arg := some value, res := none } with active := v }
  | .writeSize x => s.setEngine v { s.engine v with cfgSize := some x }
  | .writeStride x => s.setEngine v { s.engine v with cfgStride := some x }
  | .writeC x => s.setEngine v { s.engine v with cfgC := x }
  | .writeD x => s.setEngine v { s.engine v with cfgD := x }
  | .writeFlags x => s.setEngine v { s.engine v with cfgFlags := flagsWritten x }
  | .writeWidth x => s.setEngine v { s.engine v with cfgWidth := x }
  | .writeKey0 x => s.setEngine v { s.engine v with key0 := some x }
  | .writeKey1 x => s.setEngine v { s.engine v with key1 := some x }

/-- The host issues a command: one that is not accepted changes nothing (R282, U16). -/
def issue (s : State) (v : Variant) (c : Command) : State :=
  if accepts s v c then perform s v c else s

/-! ### Host reads and key helpers -/

/-- The result the host may read: `RES`, but not during a call (R294; log entry 23). -/
def Engine.validRes (e : Engine) : Option OutWord :=
  if e.status = .busy then none else e.res

/-- What the host reads from the register of a number (R29, R39 to R41, R231, U17): `none` where it may use nothing, that is
NOVALUE, RES during a call (R294), a write-only register (KEY0, KEY1), an internal one (IN_PTR, OUT_PTR, ARG), or no register at all. -/
def Engine.hostRead (e : Engine) (number : Nat) : Option Word :=
  match number with
  | 0x00 => e.cfgSize.map (fun x => x.setWidth 64)
  | 0x01 => e.cfgStride.map (fun x => x.setWidth 64)
  | 0x02 => some (e.cfgC.setWidth 64)
  | 0x03 => some (e.cfgD.setWidth 64)
  | 0x04 => some (e.cfgFlags.setWidth 64)
  | 0x05 => some (e.cfgWidth.setWidth 64)
  | 0x13 => e.validRes.map (fun x => x.setWidth 64)
  | 0x14 => some ((statusWord e.status).setWidth 64)
  | 0x15 => some ((causeWord e.cause).setWidth 64)
  | 0x1F => some ((idWord e.variant).setWidth 64)
  | _ => none

/-- `derive_key_from_seed(seed)` (R238): the low 4 bytes the seed, the other 12 zero. -/
def deriveKeyFromSeed (seed : BitVec 32) : List Byte :=
  bytesLE 4 seed.toNat ++ List.replicate 12 0#8

end Sys2Proof.Machine
end

