-- ==== Sys2Proof/Machine/Composer.lean ====
section
/-! DEFINITION. The batch composer (46_commands R232 to R237, R240): batch set-up, the greedy decomposition of a batch into engine
calls with the capability fallback, and the launch of a batch. -/

namespace Sys2Proof.Machine

/-! ### Set-up -/

/-- The errors of batch set-up, in the order of R265 (R236). -/
def Engine.batchCheck (e : Engine) : Except Cause Norm :=
  match e.cfgSize with
  | none => .error .missingSize
  | some size =>
    if e.cfgWidth = 0#16 then .error .widthZero
    else if flagStandard e.cfgFlags = true then .error .standardBatch
    else .ok (e.normalised size)

/-- The host writes the configuration of `src` to another engine (R232, R283). -/
def Engine.copyConfig (e src : Engine) : Engine :=
  { e with
    cfgSize := src.cfgSize
    cfgStride := src.cfgStride
    cfgC := src.cfgC
    cfgD := src.cfgD
    cfgFlags := src.cfgFlags
    cfgWidth := src.cfgWidth }

/-- CONFIGURE of the engines of a batch, with the same configuration and the same key bytes (R232, R283). -/
def configureAll (src : Engine) (n : Norm) (key : List Byte) : List Variant → State → State
  | [], s => s
  | v :: vs, s => configureAll src n key vs
      (s.setEngine v (((s.engine v).copyConfig src).configured s.platform.initConst n key))

/-- The set-up of a batch once its checks have passed. -/
def configureBatch (s : State) (n : Norm) (key : List Byte) : State :=
  { configureAll (s.engine .scalar) n key (composerEngines s.platform) s with
    batch := some
      { width := (s.engine .scalar).cfgWidth
        norm := n
        iv := initState s.platform.initConst key } }

/-- Batch set-up, the one command of the source's `compile_multi` (R236, R240): the checks, then CONFIGURE of every engine of the
batch. A key the host did not supply is drawn once for all engines (R283).
DESIGN CHOICE (log entry 8): the configuration is that of the SCALAR engine, which also records a set-up error.
DESIGN CHOICE (log entry 25): a set-up that fails ends the one in force, so no BATCH runs an earlier set-up after it. -/
def batchSetup (s : State) : State :=
  if (composerEngines s.platform).all (fun v => (s.engine v).status.quiescent) then
    match (s.engine .scalar).batchCheck with
    | .error c => { s.setEngine .scalar ((s.engine .scalar).raise c) with batch := none }
    | .ok n =>
      match (s.engine .scalar).suppliedKey with
      | some key => configureBatch s n key
      | none => { configureBatch s n (drawnKey s.draws) with draws := s.draws + 1 }
  else s

/-! ### The decomposition -/

/-- One engine call of a batch, by a synchronous host: the records from `input` up, the slots from `output` up. -/
structure EngineCall where
  variant : Variant
  input : Nat
  output : Nat
  deriving DecidableEq, Repr

/-- `Call1` (R233). -/
def call1 (input output : Nat) : List EngineCall :=
  [⟨.scalar, input, output⟩]

/-- `Call2` with the fallback on two `Call1` (R233). -/
def call2 (p : Platform) (stride input output : Nat) : List EngineCall :=
  if p.hasDual then [⟨.dual, input, output⟩]
  else call1 input output ++ call1 (input + stride) (output + 4)

/-- `Call4` with the fallback on two `Call2` (R233). -/
def call4 (p : Platform) (stride input output : Nat) : List EngineCall :=
  if p.hasQuad then [⟨.quad, input, output⟩]
  else call2 p stride input output ++ call2 p stride (input + 2 * stride) (output + 8)

/-- `q` times `Call4`, each advancing by four records and four slots (R232). -/
def call4s (p : Platform) (stride : Nat) : Nat → Nat → Nat → List EngineCall
  | 0, _, _ => []
  | q + 1, input, output => call4 p stride input output ++ call4s p stride q (input + 4 * stride) (output + 16)

/-- The greedy decomposition of a batch of `w` records (R232). -/
def batchCalls (p : Platform) (stride w input output : Nat) : List EngineCall :=
  call4s p stride (w / 4) input output ++
  (if w / 2 % 2 = 1 then call2 p stride (input + 4 * (w / 4) * stride) (output + 16 * (w / 4)) else []) ++
  (if w % 2 = 1 then
    call1 (input + 4 * (w / 4) * stride + 2 * (w / 2 % 2) * stride) (output + 16 * (w / 4) + 8 * (w / 2 % 2))
  else [])

/-- Can the call registers hold the pointers of an engine call? Only DUAL and QUAD take an `OUT_PTR` (R39, R227). -/
def EngineCall.addressed (c : EngineCall) : Bool :=
  decide (c.input < Config.addressSpace) && (!c.variant.multiLane || decide (c.output < Config.addressSpace))

/-- The host events of one engine call (R233): issue it, wait for it, and for SCALAR store `RES` into the slot. Where a pointer is no
address the batch gets stuck here, after the calls before it (R64, log entry 19). -/
def callEvents (c : EngineCall) : List HostEvent :=
  if c.addressed = false then [.callBeyond]
  else if c.variant.multiLane then
    [.issue c.variant (.callOut (BitVec.ofNat 64 c.input) (BitVec.ofNat 64 c.output)), .await c.variant]
  else [.issue c.variant (.call (BitVec.ofNat 64 c.input)), .await c.variant, .storeRes c.output]

/-! ### The launch -/

/-- Is engine `v` READY with the configuration and the `IV` of the batch (R232, U19)? -/
def batchReady (s : State) (b : BatchConfig) (v : Variant) : Bool :=
  decide ((s.engine v).status = .ready) && decide ((s.engine v).norm = some b.norm) &&
    decide ((s.engine v).iv = some b.iv)

/-- Is a BATCH accepted: every engine it uses is READY and alike, and its pointers and regions obey R73, R74, R77 and R237? One that
comes to an access that R64 does not admit is accepted, and gets stuck there (U6). -/
def acceptsBatch (s : State) (b : BatchConfig) (inPtr outPtr : Word) : Bool :=
  (batchCalls s.platform b.norm.stride.toNat b.width.toNat inPtr.toNat outPtr.toNat).all
      (fun c => batchReady s b c.variant) &&
    launchAllowed s
      ([inPtr.toNat, outPtr.toNat] ++
        (batchCalls s.platform b.norm.stride.toNat b.width.toNat inPtr.toNat outPtr.toNat).map EngineCall.input)
      (inputSpan b.norm b.width.toNat inPtr.toNat) (outputSpan b.width.toNat outPtr.toNat)

/-- The launch of a batch: the host goes on with its engine calls, in order (R232); one that is not accepted changes nothing. -/
def launchBatch (s : State) (b : BatchConfig) (inPtr outPtr : Word) : State :=
  if acceptsBatch s b inPtr outPtr then
    { s with pending :=
        (batchCalls s.platform b.norm.stride.toNat b.width.toNat inPtr.toNat outPtr.toNat).flatMap callEvents ++
          s.pending }
  else s

/-- The batch of engines that the host configured one by one (R283 steps 1 to 4): `N_*` and `IV` of the READY SCALAR engine and its
`CFG_WIDTH` (log entry 8), with the checks of R236 that such an engine can still fail, in the order of R265. `none` where SCALAR is
not READY: there is then no batch. -/
def Engine.ownBatch (e : Engine) : Option (Except Cause BatchConfig) :=
  match e.norm, e.iv with
  | some n, some iv =>
    if e.status ≠ .ready then none
    else if e.cfgWidth = 0#16 then some (.error .widthZero)
    else if n.standard = true then some (.error .standardBatch)
    else some (.ok { width := e.cfgWidth, norm := n, iv := iv })
  | _, _ => none

/-- `BATCH(in_ptr, out_ptr)` (R232): of the set-up in force, else of the engines as the host configured them (R283); an error of
R236 is recorded by the SCALAR engine, before any call. -/
def startBatch (s : State) (inPtr outPtr : Word) : State :=
  match s.batch with
  | some b => launchBatch s b inPtr outPtr
  | none =>
    match (s.engine .scalar).ownBatch with
    | none => s
    | some (.error c) => s.setEngine .scalar ((s.engine .scalar).raise c)
    | some (.ok b) => launchBatch s b inPtr outPtr

end Sys2Proof.Machine
end

