-- ==== Sys2Proof/Machine/Events.lean ====
section
/-! DEFINITION. What a host event does (46_commands R241), between two micro-ops. -/

namespace Sys2Proof.Machine

/-- The host wrapper of `Call1` (R233): `MemWrite(slot, 4, RES)`. A `RES` that holds NOVALUE (U17) or is not valid (R294) cannot be
read: nothing is stored. -/
def storeRes (slot : Nat) (s : State) : Host.Outcome State Fault Refusal :=
  match (s.engine .scalar).validRes with
  | none => .next s
  | some r =>
    if admitsWrite s.platform slot Config.slotBytes then
      .next { s with mem := storeSlots s.mem slot [r] }
    else .fault .writeNotAdmitted

/-- A synchronous host waits for engine `v` (R77, R227): while it is BUSY the engine takes a step and the host goes on waiting. -/
def awaitEngine (v : Variant) (s : State) : Host.Outcome State Fault Refusal :=
  if (s.engine v).status = .busy then
    engineStep { s with active := v, pending := .await v :: s.pending }
  else .next s

/-- The effect of a host event on a state whose `pending` no longer lists it. -/
def hostStep (ev : HostEvent) (s : State) : Host.Outcome State Fault Refusal :=
  match ev with
  | .issue v c => .next (issue s v c)
  | .tick v => engineStep { s with active := v }
  | .await v => awaitEngine v s
  | .poke addr b => .next { s with mem := Memory.write s.mem addr.toNat b }
  | .declare regions => .next { s with platform := { s.platform with regions := regions } }
  | .batchSetup => .next (batchSetup s)
  | .batch inPtr outPtr => .next (startBatch s inPtr outPtr)
  | .storeRes slot => storeRes slot s
  | .callBeyond => .fault .pointerBeyond

end Sys2Proof.Machine
end

