-- ==== Sys2Proof/Machine/Step.lean ====
section
/-! DEFINITION. One step of the machine (46_commands R229, R241), and the placing of an instruction where the next step fetches. -/

namespace Sys2Proof.Machine

/-- The host's next event if one is pending, else one micro-op of the engine that moves. -/
def step (s : State) : Host.Outcome State Fault Refusal :=
  match s.pending with
  | [] => engineStep (schedule s)
  | ev :: rest => hostStep ev { s with pending := rest }

/-- `s` with the word the opcode table numbers as `w` where the next step fetches: in `PROG` at `upc` of the active engine, in
the middle of a call (log entry 14). -/
def State.withFetchWord (s : State) (nbits w : Nat) : State :=
  placeNextWord s (tableWord nbits w)

end Sys2Proof.Machine
end

