-- ==== Sys2Proof/Safety.lean ====
section
/-! DEFINITION. The terms the statements use: what an instruction reads, what a step may change (frames), the invariants of the
machine, and the start of a call. Nothing here is used by the step. -/

namespace Sys2Proof.Machine

/-! ### Instructions -/

/-- The lane registers a micro-op reads (10_state R23). -/
def readsOf : Instr → List Reg
  | .init => []
  | .add rd rs => [rd, rs]
  | .xor rd rs => [rd, rs]
  | .or rd rs => [rd, rs]
  | .shl rd _ => [rd]
  | .rotl rd _ => [rd]
  | .ldi _ _ => []
  | .ld8 _ => []
  | .ld16 _ => []
  | .ld32 _ => []
  | .ld64 _ => []
  | .fin rs _ => [rs]

/-- The lane registers a micro-op writes (10_state R23). -/
def writesOf : Instr → List Reg
  | .init => [.v0, .v1, .v2, .v3]
  | .add rd _ => [rd]
  | .xor rd _ => [rd]
  | .or rd _ => [rd]
  | .shl rd _ => [rd]
  | .rotl rd _ => [rd]
  | .ldi rd _ => [rd]
  | .ld8 rd => [rd]
  | .ld16 rd => [rd]
  | .ld32 rd => [rd]
  | .ld64 rd => [rd]
  | .fin _ _ => []

/-- The bytes per lane a load reads, 0 for the other micro-ops (20_memory R69). -/
def loadWidth : Instr → Nat
  | .init => 0
  | .add _ _ => 0
  | .xor _ _ => 0
  | .or _ _ => 0
  | .shl _ _ => 0
  | .rotl _ _ => 0
  | .ldi _ _ => 0
  | .ld8 _ => 1
  | .ld16 _ => 2
  | .ld32 _ => 4
  | .ld64 _ => 8
  | .fin _ _ => 0

/-- Is the instruction FIN? -/
def isFin : Instr → Bool
  | .fin _ _ => true
  | _ => false

/-! ### Frames -/

/-- The number in a register of a lane, 0 for NOVALUE; used under the premise that it holds a value. -/
def laneNat (x : Lane) (r : Reg) : Nat :=
  match x.get r with
  | some a => a.toNat
  | none => 0

/-- Register `r` holds a value in every lane of the active engine (R258). -/
def Written (s : State) (r : Reg) : Prop :=
  ∀ x ∈ s.eng.lanes, x.get r ≠ none

/-- From `s` to `t` every lane `l` of the active engine gets `value l (its registers before)` in `rd`, every other register
of every lane is kept, and no lane is added or lost. -/
def WritesReg (s t : State) (rd : Reg) (value : Nat → Lane → Nat) : Prop :=
  t.eng.lanes.length = s.eng.lanes.length ∧
  ∀ (l : Nat) (x : Lane), s.eng.lanes[l]? = some x →
    ∃ y w, t.eng.lanes[l]? = some y ∧ y.get rd = some w ∧ w.toNat = value l x ∧
      ∀ r, r ≠ rd → y.get r = x.get r

/-- Everything outside the active engine is kept: the other engines, memory byte for byte, the platform, the host's queue. -/
def OutsideKept (s t : State) : Prop :=
  t.putEng s.eng = s ∧ ∀ a, Memory.read t.mem a = Memory.read s.mem a

/-- In the active engine only the lanes, `upc` and `cur` may differ: every configuration, call, status and identity register
is kept. -/
def ControlKept (s t : State) : Prop :=
  { t.eng with lanes := s.eng.lanes, upc := s.eng.upc, cur := s.eng.cur } = s.eng

/-- The fault entry of R262 for a micro-op of the active engine: the first cause is kept, `STATUS = FAULT`, `RES` NOVALUE, and
nothing else changes. -/
def TakesFault (s t : State) (c : Cause) : Prop :=
  t.eng.status = .fault ∧
  t.eng.cause = (if s.eng.cause = 0#8 then c.code else s.eng.cause) ∧
  t.eng.raised = (if s.eng.cause = 0#8 then some c else s.eng.raised) ∧
  t.eng.res = none ∧
  { t.eng with
      status := s.eng.status, cause := s.eng.cause, raised := s.eng.raised, res := s.eng.res } = s.eng ∧
  OutsideKept s t

/-- The rule of R150 and R258 for a micro-op that reads the registers of `readsOf i` and writes `value` of each lane into `rd`:
with every operand written it completes; with one that holds NOVALUE in some lane it takes `UE_UNWRITTEN_REG`. -/
def AluRule (i : Instr) (rd : Reg) (value : Lane → Nat) : Prop :=
  (∀ s : State, (∀ r ∈ readsOf i, Written s r) →
    ∃ t, exec i s = .next t ∧ WritesReg s t rd (fun _ x => value x) ∧
      t.eng.upc = s.eng.upc + 1 ∧ t.eng.cur = s.eng.cur ∧ ControlKept s t ∧ OutsideKept s t) ∧
  (∀ s : State, ¬ (∀ r ∈ readsOf i, Written s r) →
    ∃ t r, exec i s = .next t ∧ r ∈ readsOf i ∧ ¬ Written s r ∧
      TakesFault s t (.unwrittenReg (encode i) s.eng.upc r))

/-- `EA(l)` (R160), for an input pointer that holds `p`. -/
def effectiveAddress (s : State) (p : Word) (l : Nat) : Nat :=
  p.toNat + l * s.eng.strideValue + s.eng.cur

/-- `LE` of the `n` bytes at `a` (R11, R61), as a sum. -/
def bytesAt (s : State) (a n : Nat) : Nat :=
  ∑ k ∈ Finset.range n, (Memory.read s.mem (a + k)).toNat * 256 ^ k

/-- The rule of R160 for a load `i` of `n` bytes into `rd`, on a variant that reads memory and with every byte admitted. -/
def LoadRule (i : Instr) (n : Nat) (rd : Reg) : Prop :=
  ∀ (s : State) (p : Word), s.eng.variant ≠ .scalarImm → s.eng.inPtr = some p →
    (1 < s.eng.lanes.length → s.eng.norm ≠ none) →
    (∀ l < s.eng.lanes.length, ∀ k < n, readable s.platform.regions (effectiveAddress s p l + k) = true) →
    ∃ t, exec i s = .next t ∧ WritesReg s t rd (fun l _ => bytesAt s (effectiveAddress s p l) n) ∧
      t.eng.upc = s.eng.upc + 1 ∧ t.eng.cur = s.eng.cur + n ∧ ControlKept s t ∧ OutsideKept s t

/-- `UE_LOAD_UNSUPPORTED` is taken by the micro-op `i` (R166, R256). -/
def LoadUnsupportedAt (i : Instr) (s : State) : Prop :=
  ∃ t, exec i s = .next t ∧ TakesFault s t (.loadUnsupported (encode i) s.eng.upc)

/-- The same registers hold values, whatever the values (R298). -/
def SameWritten (ls ls' : List Lane) : Prop :=
  ls'.length = ls.length ∧
  ∀ (l : Nat) (x y : Lane), ls[l]? = some x → ls'[l]? = some y → ∀ r, (y.get r).isSome = (x.get r).isSome

/-- The effect of a command on one engine: only engine `v`, the counter of draws, the active engine and the batch set-up in force may
differ, and the host's queue goes on. -/
def OnlyEngineOrSetup (s t : State) (v : Variant) (rest : List HostEvent) : Prop :=
  (∀ u, u ≠ v → t.engine u = s.engine u) ∧ t.mem = s.mem ∧ t.platform = s.platform ∧ t.pending = rest

/-- The same, with the batch set-up in force kept. -/
def OnlyEngine (s t : State) (v : Variant) (rest : List HostEvent) : Prop :=
  OnlyEngineOrSetup s t v rest ∧ t.batch = s.batch

/-- A command to an engine of a batch ends the set-up in force, one to another engine keeps it (log entry 25). -/
def EndsSetupOf (s t : State) (v : Variant) : Prop :=
  (v ∈ composerEngines s.platform → t.batch = none) ∧ (v ∉ composerEngines s.platform → t.batch = s.batch)

/-! ### Regions of a launch (R67, R70, R73, R77) -/

/-- Address `a` is a byte of one of the `lanes` records from `inPtr` up. -/
def InRecords (n : Norm) (inPtr lanes a : Nat) : Prop :=
  ∃ l < lanes, inPtr + l * n.stride.toNat ≤ a ∧ a < inPtr + l * n.stride.toNat + n.size.toNat

/-- Address `a` is a byte of one of the `lanes` output slots from `outPtr` up. -/
def InSlots (outPtr lanes a : Nat) : Prop :=
  outPtr ≤ a ∧ a < outPtr + 4 * lanes

/-- Address `a` lies in a region the host declared a device. -/
def InDevice (s : State) (a : Nat) : Prop :=
  ∃ r ∈ s.platform.regions, r.kind = .device ∧ r.base ≤ a ∧ a < r.base + r.size

/-- Address `a` is an input byte of the call in progress on engine `u`. -/
def CallReads (s : State) (u : Variant) (a : Nat) : Prop :=
  (s.engine u).status = .busy ∧ (s.engine u).variant ≠ .scalarImm ∧
    ∃ n p, (s.engine u).norm = some n ∧ (s.engine u).inPtr = some p ∧ InRecords n p.toNat (s.engine u).variant.lanes a

/-- Address `a` is an output byte of the call in progress on engine `u`. -/
def CallWrites (s : State) (u : Variant) (a : Nat) : Prop :=
  (s.engine u).status = .busy ∧ (s.engine u).variant.multiLane = true ∧
    ∃ o, (s.engine u).outPtr = some o ∧ InSlots o.toNat (s.engine u).variant.lanes a

/-! ### Invariants -/

/-- Every engine is the one its place names and has the lanes of its variant (R9, R41). -/
def ShapeInv (s : State) : Prop :=
  ∀ v, (s.engine v).variant = v ∧ (s.engine v).lanes.length = v.lanes

/-- Memory is in canonical form. -/
def MemoryInv (s : State) : Prop :=
  Memory.wf s.mem = true

/-- The reserved bits of `CFG_FLAGS` read 0 (R29, U14). -/
def ReservedInv (s : State) : Prop :=
  ∀ v k, 2 ≤ k → (s.engine v).cfgFlags.getLsbD k = false

/-- The code of the recorded fault, 0 when none (R250). -/
def recordedCode : Option Cause → BitVec 8
  | none => 0#8
  | some c => c.code

/-- An engine is in FAULT exactly when `CAUSE.CODE` is not 0, `CAUSE.CODE` is the code of the recorded fault, and `RES` holds no
value in FAULT (R40, R262). -/
def FaultInv (s : State) : Prop :=
  ∀ v, ((s.engine v).status = .fault ↔ (s.engine v).cause ≠ 0#8) ∧
    (s.engine v).cause = recordedCode (s.engine v).raised ∧
    ((s.engine v).status = .fault → (s.engine v).res = none)

/-- The configurations a variant admits (R200, R221, R224, R225). -/
def legalNorm (v : Variant) (n : Norm) : Prop :=
  (n.standard = true → n.asSpecified = true) ∧
  (v = .scalarImm → n.size = 8#16 ∧ n.asSpecified = false) ∧
  (v.multiLane = true → n.standard = false)

/-- A READY or BUSY engine holds an `IV`, a configuration its variant admits, and the program the sequencer generates for it
(R220, R193, D36). -/
def ConfiguredInv (s : State) : Prop :=
  ∀ v, ((s.engine v).status = .ready ∨ (s.engine v).status = .busy) →
    (s.engine v).iv ≠ none ∧
    ∃ n, (s.engine v).norm = some n ∧ legalNorm v n ∧ (s.engine v).prog = programWords n

/-- During a call `upc` is in the program or at its end, and the call registers of the variant hold values (R26, R227, R228). -/
def CallInv (s : State) : Prop :=
  ∀ v, (s.engine v).status = .busy →
    (s.engine v).upc ≤ (s.engine v).prog.length ∧
    (v = .scalarImm → (s.engine v).arg ≠ none) ∧
    (v ≠ .scalarImm → (s.engine v).inPtr ≠ none) ∧
    (v.multiLane = true → (s.engine v).outPtr ≠ none)

/-! ### The life of an engine (R282) -/

/-- The step is a RESET of engine `v`. -/
def ResetOf (s : State) (v : Variant) : Prop :=
  ∃ rest, s.pending = .issue v .reset :: rest

/-- The step is a CONFIGURE of engine `v`, or the batch set-up that configures it. -/
def ConfigureOf (s : State) (v : Variant) : Prop :=
  ∃ rest, s.pending = .issue v .configure :: rest ∨ (v ∈ composerEngines s.platform ∧ s.pending = .batchSetup :: rest)

/-- The step is a CONFIGURE of engine `v` that fails, or a batch set-up that fails and records its cause in `v`: the set-up event, or,
on a READY engine, a BATCH of engines the host configured one by one (log entry 8). The cause is a `CE_*`. -/
def ConfigureFailsOf (s t : State) (v : Variant) : Prop :=
  (∃ c : Cause, c.code.toNat ≤ 5 ∧ t.engine v = (s.engine v).raise c) ∧
  ∃ rest, s.pending = .issue v .configure :: rest ∨ (v = .scalar ∧ s.pending = .batchSetup :: rest) ∨
    (v = .scalar ∧ (s.engine v).status = .ready ∧ ∃ p o, s.pending = .batch p o :: rest)

/-- The step is a call of engine `v` that is accepted. -/
def CallOf (s : State) (v : Variant) : Prop :=
  ∃ rest c, s.pending = .issue v c :: rest ∧ accepts { s with pending := rest } v c = true ∧
    ((∃ p, c = .call p) ∨ (∃ p o, c = .callOut p o) ∨ ∃ a, c = .callImm a)

/-- The step is a FIN of engine `v` that delivers. -/
def FinOf (s t : State) (v : Variant) : Prop :=
  ∃ p w rs standard, (s.engine v).prog[(s.engine v).upc]? = some w ∧ decode w = .ok (.fin rs standard) ∧
    exec (.fin rs standard) { s with active := v, pending := p } = .next t

/-- The step is a micro-op of engine `v`, or its fetch, that raises a `UE_*`. -/
def MicroOpFaultOf (s t : State) (v : Variant) : Prop :=
  ∃ (p : List HostEvent) (c : Cause), 16 ≤ c.code.toNat ∧
    t = ({ s with active := v, pending := p } : State).raise c

/-- The table of R282: what a step that takes engine `v` from one status to another must be. A status that stays needs nothing. -/
def transitionAllowed (s t : State) (v : Variant) : Status → Status → Prop
  | .unconfigured, .unconfigured => True
  | .unconfigured, .ready => ConfigureOf s v
  | .unconfigured, .busy => False
  | .unconfigured, .fault => ConfigureFailsOf s t v
  | .ready, .unconfigured => ResetOf s v
  | .ready, .ready => True
  | .ready, .busy => CallOf s v
  | .ready, .fault => ConfigureFailsOf s t v
  | .busy, .unconfigured => ResetOf s v
  | .busy, .ready => FinOf s t v
  | .busy, .busy => True
  | .busy, .fault => MicroOpFaultOf s t v
  | .fault, .unconfigured => ResetOf s v
  | .fault, .ready => False
  | .fault, .busy => False
  | .fault, .fault => True

/-! ### Calls -/

/-- The `size` bytes lane `l` hashes (R126, R192). -/
def recordAt (mem : Memory) (n : Norm) (inPtr l : Nat) : List Byte :=
  Memory.readBytes mem (inPtr + l * n.stride.toNat) n.size.toNat

/-- The active engine has just accepted a call (R227, R228) and the host has nothing pending. -/
def AtCallStart (s : State) (n : Norm) (iv : SipState) : Prop :=
  s.pending = [] ∧ s.eng.status = .busy ∧ s.eng.upc = 0 ∧ s.eng.cur = 0 ∧
  s.eng.iv = some iv ∧ s.eng.norm = some n ∧ s.eng.prog = programWords n ∧
  legalNorm s.eng.variant n ∧ s.eng.lanes.length = s.eng.variant.lanes

/-- The host declared every record of the call readable (R64). -/
def InputAdmitted (s : State) (n : Norm) (inPtr lanes : Nat) : Prop :=
  ∀ l < lanes, admitsRead s.platform (inPtr + l * n.stride.toNat) n.size.toNat = true

/-- The bytes `k` of the little-endian word `w`. -/
def slotByte (w : OutWord) (k : Nat) : Byte :=
  BitVec.ofNat 8 (w.toNat / 256 ^ k)

/-- The length of a program (R187). -/
def programLength (n : Norm) : Nat :=
  let b := n.size.toNat / 8
  let r := n.size.toNat % 8
  let p := r / 4 % 2 + r / 2 % 2 + r % 2
  let tail :=
    if n.asSpecified then 2 + 2 * p + (p - 1) + (2 + 14 * n.c.toNat)
    else if 0 < r then 1 + 3 * (p - 1) + (2 + 14 * n.c.toNat)
    else 0
  1 + b * (3 + 14 * n.c.toNat) + tail + (6 + 14 * n.d.toNat)

/-- The records a batch call covers, each with its slot: the engine's lanes, in order (R232). -/
def coveredBy (stride : Nat) (c : EngineCall) : List (Nat × Nat) :=
  (List.range c.variant.lanes).map (fun i => (c.input + i * stride, c.output + 4 * i))

end Sys2Proof.Machine
end

