-- ==== Sys2Proof/Certificates/Slice0/Obligations.lean ====
section
/-! DEFINITION. The statements for the provers. Each docstring names the rule of the spec it formalises. -/

open Sys2Proof Sys2Proof.Machine

/-! ### Encoding (30_encoding) -/

/-- R102: decode after encode is the identity on well-formed terms, every operand at every value the encoding admits. -/
def Obligations.DecodeOfEncode : Prop :=
  ∀ i : Instr, i.wellFormed = true → decode (encode i) = .ok i

/-- R102: encode after decode is the identity on legal words, and the decoder gives only well-formed terms. -/
def Obligations.EncodeOfDecode : Prop :=
  ∀ (w : MicroWord) (i : Instr), decode w = .ok i → i.wellFormed = true ∧ encode i = w

/-- R101: a word is illegal exactly when its `op` has no row, a bit its row requires to be zero is one, or a register field its
format uses (`ra` for every row but INIT, `rb` for ADD, XOR, OR) is above 5. -/
def Obligations.IllegalWordsAreExactly : Prop :=
  ∀ w : MicroWord, (∃ r, decode w = .error r) ↔
    (field w 12 4 = 0 ∨ 13 ≤ field w 12 4) ∨
    (∃ r ∈ opcodeTable, field r.code 12 4 = field w 12 4 ∧ w &&& r.mask ≠ r.code) ∨
    (2 ≤ field w 12 4 ∧ field w 12 4 ≤ 12 ∧ 5 < field w 9 3) ∨
    (2 ≤ field w 12 4 ∧ field w 12 4 ≤ 4 ∧ 5 < field w 6 3)

/-- R99, R94 to R98: words written out from the formats decode to the micro-ops they stand for (one of each format and family). -/
def Obligations.SpecWordsDecode : Prop :=
  decode 0x1000#16 = .ok .init ∧
  decode 0x2B40#16 = .ok (.add .t .t) ∧
  decode 0x4940#16 = .ok (.or .m .t) ∧
  decode 0x5A30#16 = .ok (.shl .t 48) ∧
  decode 0x620D#16 = .ok (.rotl .v1 13) ∧
  decode 0x7AFF#16 = .ok (.ldi .t 255) ∧
  decode 0xAA00#16 = .ok (.ld32 .t) ∧
  decode 0xC001#16 = .ok (.fin .v0 true)

/-! ### Arithmetic micro-ops (41_arith_ops) -/

/-- R151: ADD, its word, its result per lane, its frame, its fault. -/
def Obligations.AddRule : Prop :=
  ∀ rd rs : Reg,
    encode (.add rd rs) = 0x2000#16 ||| BitVec.ofNat 16 rd.index <<< 9 ||| BitVec.ofNat 16 rs.index <<< 6 ∧
    AluRule (.add rd rs) rd (fun x => (laneNat x rd + laneNat x rs) % 2 ^ 64)

/-- R152: XOR. -/
def Obligations.XorRule : Prop :=
  ∀ rd rs : Reg,
    encode (.xor rd rs) = 0x3000#16 ||| BitVec.ofNat 16 rd.index <<< 9 ||| BitVec.ofNat 16 rs.index <<< 6 ∧
    AluRule (.xor rd rs) rd (fun x => laneNat x rd ^^^ laneNat x rs)

/-- R153: OR. -/
def Obligations.OrRule : Prop :=
  ∀ rd rs : Reg,
    encode (.or rd rs) = 0x4000#16 ||| BitVec.ofNat 16 rd.index <<< 9 ||| BitVec.ofNat 16 rs.index <<< 6 ∧
    AluRule (.or rd rs) rd (fun x => laneNat x rd ||| laneNat x rs)

/-- R154: SHL, for every amount that can be spelled. -/
def Obligations.ShlRule : Prop :=
  ∀ (rd : Reg) (n : Nat), n ≤ 63 →
    encode (.shl rd n) = 0x5000#16 ||| BitVec.ofNat 16 rd.index <<< 9 ||| BitVec.ofNat 16 n ∧
    AluRule (.shl rd n) rd (fun x => laneNat x rd * 2 ^ n % 2 ^ 64)

/-- R155: ROTL, for every amount that can be spelled, 0 being the identity. -/
def Obligations.RotlRule : Prop :=
  ∀ (rd : Reg) (n : Nat), n ≤ 63 →
    encode (.rotl rd n) = 0x6000#16 ||| BitVec.ofNat 16 rd.index <<< 9 ||| BitVec.ofNat 16 n ∧
    AluRule (.rotl rd n) rd
      (fun x => if n = 0 then laneNat x rd
        else (laneNat x rd * 2 ^ n ||| laneNat x rd / 2 ^ (64 - n)) % 2 ^ 64)

/-! ### Load micro-ops (42_load_ops) -/

/-- R161: LD8, its word, its result per lane, its frame, and its fault on SCALAR_IMM. -/
def Obligations.LdByteRule : Prop :=
  ∀ rd : Reg, encode (.ld8 rd) = 0x8000#16 ||| BitVec.ofNat 16 rd.index <<< 9 ∧ LoadRule (.ld8 rd) 1 rd ∧
    ∀ s : State, s.eng.variant = .scalarImm → LoadUnsupportedAt (.ld8 rd) s

/-- R162: LD16. -/
def Obligations.LdHalfRule : Prop :=
  ∀ rd : Reg, encode (.ld16 rd) = 0x9000#16 ||| BitVec.ofNat 16 rd.index <<< 9 ∧ LoadRule (.ld16 rd) 2 rd ∧
    ∀ s : State, s.eng.variant = .scalarImm → LoadUnsupportedAt (.ld16 rd) s

/-- R163: LD32. -/
def Obligations.LdWordRule : Prop :=
  ∀ rd : Reg, encode (.ld32 rd) = 0xA000#16 ||| BitVec.ofNat 16 rd.index <<< 9 ∧ LoadRule (.ld32 rd) 4 rd ∧
    ∀ s : State, s.eng.variant = .scalarImm → LoadUnsupportedAt (.ld32 rd) s

/-- R164: LD64 on the variants that read memory. -/
def Obligations.LdDoubleRule : Prop :=
  ∀ rd : Reg, encode (.ld64 rd) = 0xB000#16 ||| BitVec.ofNat 16 rd.index <<< 9 ∧ LoadRule (.ld64 rd) 8 rd

/-- R166: LD64 on SCALAR_IMM delivers `ARG` at `cur = 0` and touches no memory; at any other `cur` it is a usage error. -/
def Obligations.LdDoubleImmediate : Prop :=
  ∀ (rd : Reg) (s : State), s.eng.variant = .scalarImm →
    (∀ a : Word, s.eng.cur = 0 → s.eng.arg = some a →
      ∃ t, exec (.ld64 rd) s = .next t ∧ WritesReg s t rd (fun _ _ => a.toNat) ∧
        t.eng.upc = s.eng.upc + 1 ∧ t.eng.cur = 8 ∧ ControlKept s t ∧ OutsideKept s t) ∧
    (s.eng.cur ≠ 0 → LoadUnsupportedAt (.ld64 rd) s)


/-- R165: LDI, its word and its result in every lane; it completes in every state. -/
def Obligations.LdiRule : Prop :=
  ∀ (rd : Reg) (b : Nat), b ≤ 255 →
    encode (.ldi rd b) = 0x7000#16 ||| BitVec.ofNat 16 rd.index <<< 9 ||| BitVec.ofNat 16 b ∧
    ∀ s : State, ∃ t, exec (.ldi rd b) s = .next t ∧ WritesReg s t rd (fun _ _ => b) ∧
      t.eng.upc = s.eng.upc + 1 ∧ t.eng.cur = s.eng.cur ∧ ControlKept s t ∧ OutsideKept s t

/-- R65: a LD32, a LD16 shifted by 32 and a LD8 shifted by 48 give the low 56 bits of the LD64 at the same address. -/
def Obligations.MixedWidthLoadsAgree : Prop :=
  ∀ (m : Memory) (a : Nat),
    memRead m a 4 ||| memRead m (a + 4) 2 * 2 ^ 32 ||| memRead m (a + 6) 1 * 2 ^ 48 = memRead m a 8 % 2 ^ 56

/-! ### System micro-ops (43_system_ops) -/

/-- R170: INIT, its word; it completes in every state, gives every lane the four words of `IV`, keeps M, T and `cur`. -/
def Obligations.InitRule : Prop :=
  encode .init = 0x1000#16 ∧
  ∀ s : State, ∃ t, exec .init s = .next t ∧
    t.eng.lanes.length = s.eng.lanes.length ∧
    (∀ (l : Nat) (x : Lane) (iv : SipState), s.eng.lanes[l]? = some x → s.eng.iv = some iv → ∃ y, t.eng.lanes[l]? = some y ∧
      y.get .v0 = some iv.v0 ∧ y.get .v1 = some iv.v1 ∧ y.get .v2 = some iv.v2 ∧ y.get .v3 = some iv.v3 ∧
      y.get .m = x.get .m ∧ y.get .t = x.get .t) ∧
    t.eng.upc = s.eng.upc + 1 ∧ t.eng.cur = s.eng.cur ∧ ControlKept s t ∧ OutsideKept s t

/-- R171 to R173 on SCALAR, SCALAR_IMM, REF: `RES` gets the formatted result word of lane 0, the call ends, nothing else changes
(`upc` included: only micro-ops other than FIN advance it, R26). -/
def Obligations.FinDeliversToRes : Prop :=
  ∀ (rs : Reg) (standard : Bool) (s : State), s.eng.variant.multiLane = false → s.eng.lanes ≠ [] → Written s rs →
    ∃ t out, exec (.fin rs standard) s = .next t ∧ t.eng.res = some out ∧
      (∀ x, s.eng.lanes[0]? = some x → out.toNat =
        if standard then laneNat x rs % 2 ^ 32 else laneNat x rs / 2 ^ 32 * 2 % 2 ^ 32) ∧
      t.eng.status = .ready ∧
      { t.eng with res := s.eng.res, status := s.eng.status } = s.eng ∧ OutsideKept s t

/-- R171 to R173 on DUAL, QUAD with `s = 0`: slot `l` at `OUT_PTR + 4*l` gets the little-endian internal output of lane `l`, every
byte outside the slots is kept, the call ends, `RES` and everything else is kept. -/
def Obligations.FinDeliversToSlots : Prop :=
  ∀ (rs : Reg) (s : State) (p : Word), s.eng.variant.multiLane = true → s.eng.outPtr = some p → Written s rs →
    MemoryInv s → (∀ k < 4 * s.eng.lanes.length, writable s.platform.regions (p.toNat + k) = true) →
    ∃ t, exec (.fin rs false) s = .next t ∧
      (∀ l x, s.eng.lanes[l]? = some x → ∀ k < 4, Memory.read t.mem (p.toNat + 4 * l + k) =
        BitVec.ofNat 8 (laneNat x rs / 2 ^ 32 * 2 % 2 ^ 32 / 256 ^ k)) ∧
      (∀ a, (a < p.toNat ∨ p.toNat + 4 * s.eng.lanes.length ≤ a) → Memory.read t.mem a = Memory.read s.mem a) ∧
      t.eng.status = .ready ∧ { t.eng with status := s.eng.status } = s.eng ∧
      { t.putEng s.eng with mem := s.mem } = s

/-- R64: an access with a byte that is not admitted has no step: a load, whatever its width, with such a byte in some lane, and FIN on
DUAL or QUAD with such a byte in a slot, stop by name and write nothing; so do the host wrapper's store of a result into a slot with
such a byte, and a batch that comes to an engine call with a pointer at or above `2^64` (R232; log entry 19). -/
def Obligations.UnadmittedAccessStops : Prop :=
  (∀ (i : Instr) (s : State) (p : Word), 0 < loadWidth i → s.eng.variant ≠ .scalarImm → s.eng.inPtr = some p →
    s.eng.norm ≠ none →
    (∃ l < s.eng.lanes.length, ∃ k < loadWidth i,
      readable s.platform.regions (effectiveAddress s p l + k) = false) →
    exec i s = .fault .readNotAdmitted) ∧
  (∀ (rs : Reg) (s : State) (p : Word), s.eng.variant.multiLane = true → s.eng.outPtr = some p → Written s rs →
    (∃ k < 4 * s.eng.lanes.length, writable s.platform.regions (p.toNat + k) = false) →
    exec (.fin rs false) s = .fault .writeNotAdmitted) ∧
  (∀ (s : State) (rest : List HostEvent) (slot : Nat) (r : OutWord), s.pending = .storeRes slot :: rest →
    (s.engine .scalar).status ≠ .busy → (s.engine .scalar).res = some r →
    (∃ k < 4, writable s.platform.regions (slot + k) = false) → step s = .fault .writeNotAdmitted) ∧
  (∀ (s : State) (rest : List HostEvent) (c : EngineCall), s.pending = callEvents c ++ rest →
    (2 ^ 64 ≤ c.input ∨ (c.variant.multiLane = true ∧ 2 ^ 64 ≤ c.output)) → step s = .fault .pointerBeyond)

/-- R171: the word of FIN, for every `rs` and `s`. R174, R258, R260, R265: `FIN rs, 1` on DUAL or QUAD takes `UE_FIN_MODE`, whether or
not `rs` holds a value; any other FIN of a register that holds NOVALUE in some lane takes `UE_UNWRITTEN_REG`; nothing is delivered.
The fault is a next state: log entry 10. -/
def Obligations.FinFaults : Prop :=
  ∀ (rs : Reg) (standard : Bool),
    encode (.fin rs standard) =
      0xC000#16 ||| BitVec.ofNat 16 rs.index <<< 9 ||| (if standard then 1#16 else 0#16) ∧
    ∀ s : State,
      ((standard = true ∧ s.eng.variant.multiLane = true) →
        ∃ t, exec (.fin rs standard) s = .next t ∧ TakesFault s t (.finMode (encode (.fin rs standard)) s.eng.upc)) ∧
      (¬ (standard = true ∧ s.eng.variant.multiLane = true) → ¬ Written s rs →
        ∃ t, exec (.fin rs standard) s = .next t ∧
          TakesFault s t (.unwrittenReg (encode (.fin rs standard)) s.eng.upc rs))

/-! ### The step (46_commands R229, 60_exceptions) -/

/-- R229: with no host event pending, a BUSY engine's step is the decoded micro-op; with `tick v` pending, engine `v`'s. -/
def Obligations.StepRunsDecodedInstruction : Prop :=
  (∀ (s : State) (w : MicroWord) (i : Instr), s.pending = [] → s.eng.status = .busy →
    s.eng.prog[s.eng.upc]? = some w → decode w = .ok i → step s = exec i s) ∧
  (∀ (s : State) (v : Variant) (rest : List HostEvent) (w : MicroWord) (i : Instr), s.pending = .tick v :: rest →
    (s.engine v).status = .busy → (s.engine v).prog[(s.engine v).upc]? = some w → decode w = .ok i →
    step s = exec i { s with active := v, pending := rest })

/-- R257, R259: the two fetch faults, `UE_NO_FIN` at the end of the program and `UE_ILLEGAL_OP` on a word that does not decode. -/
def Obligations.FetchFaults : Prop :=
  ∀ s : State, s.pending = [] → s.eng.status = .busy →
    (s.eng.prog.length ≤ s.eng.upc → ∃ t, step s = .next t ∧ TakesFault s t (.noFin s.eng.upc)) ∧
    (∀ w r, s.eng.prog[s.eng.upc]? = some w → decode w = .error r →
      ∃ t, step s = .next t ∧ TakesFault s t (.illegalOp w s.eng.upc))

/-- R281: with nothing pending and no engine BUSY, nothing happens. -/
def Obligations.IdleMachineWaits : Prop :=
  ∀ s : State, s.pending = [] → (∀ v, (s.engine v).status ≠ .busy) → step s = .next s

/-- R298: what a micro-op does to `upc`, `cur`, STATUS and CAUSE, and whether it answers a next state, does not depend on the
values in the lanes, in `IV` or in memory. -/
def Obligations.ControlFlowIsConstant : Prop :=
  ∀ (i : Instr) (s t : State) (lanes' : List Lane) (iv' : Option SipState) (mem' : Memory),
    SameWritten s.eng.lanes lanes' → exec i s = .next t →
    ∃ t', exec i { s.putEng { s.eng with lanes := lanes', iv := iv' } with mem := mem' } = .next t' ∧
      t'.eng.upc = t.eng.upc ∧ t'.eng.cur = t.eng.cur ∧ t'.eng.status = t.eng.status ∧
      t'.eng.cause = t.eng.cause ∧ t'.eng.raised = t.eng.raised

/-! ### Host commands (46_commands, 70_reset_and_hazards) -/

/-- R220, R221, R223: an accepted CONFIGURE whose checks pass derives `IV` from the key registers when both hold values, from a
drawn key otherwise, normalises the configuration, generates the program and clears the key registers. What a draw gives is a
free value: the clause for an absent key holds for every one. Two clauses are the model's: a key register written alone is cleared too
(log entry 18), and the batch set-up that `v` belongs to ends (log entry 25). -/
def Obligations.ConfigureSucceeds : Prop :=
  ∀ (s : State) (v : Variant) (rest : List HostEvent) (size : BitVec 16), s.pending = .issue v .configure :: rest →
    s.platform.has v = true → ((s.engine v).status = .unconfigured ∨ (s.engine v).status = .ready) →
    (s.engine v).cfgSize = some size →
    ((s.engine v).variant = .scalarImm → size = 8#16 ∧ (s.engine v).cfgFlags.getLsbD 0 = false ∧
      (s.engine v).cfgFlags.getLsbD 1 = false) →
    ((s.engine v).variant.multiLane = true → (s.engine v).cfgFlags.getLsbD 1 = false) →
    ∃ t n k0 k1, step s = .next t ∧
      n.size = size ∧
      (∀ x, (s.engine v).cfgStride = some x → n.stride = x) ∧
      ((s.engine v).cfgStride = none → n.stride.toNat = size.toNat) ∧
      n.c = (s.engine v).cfgC ∧ n.d = (s.engine v).cfgD ∧
      n.standard = (s.engine v).cfgFlags.getLsbD 1 ∧
      (n.asSpecified = true ↔ (s.engine v).cfgFlags.getLsbD 0 = true ∨ (s.engine v).cfgFlags.getLsbD 1 = true) ∧
      (∀ a b, (s.engine v).key0 = some a → (s.engine v).key1 = some b → k0 = a ∧ k1 = b ∧ t.draws = s.draws) ∧
      (((s.engine v).key0 = none ∨ (s.engine v).key1 = none) → t.draws = s.draws + 1) ∧
      t.engine v = { s.engine v with
        iv := some
          { v0 := s.platform.initConst.v0 ^^^ k0
            v1 := s.platform.initConst.v1 ^^^ k1
            v2 := s.platform.initConst.v2 ^^^ k0
            v3 := s.platform.initConst.v3 ^^^ k1 }
        norm := some n
        prog := (program n).map encode
        key0 := none
        key1 := none
        status := .ready } ∧
      OnlyEngineOrSetup s t v rest ∧ EndsSetupOf s t v

/-- R222, R265, R262: an accepted CONFIGURE whose checks fail takes the first failing cause, in the order missing size, immediate
as-specified, immediate size, standard on DUAL or QUAD; nothing else of any engine changes. The fault is a next state (log entry 10),
and the batch set-up that `v` belongs to ends (log entry 25). -/
def Obligations.ConfigureFails : Prop :=
  ∀ (s : State) (v : Variant) (rest : List HostEvent) (c : Cause), s.pending = .issue v .configure :: rest →
    s.platform.has v = true → ((s.engine v).status = .unconfigured ∨ (s.engine v).status = .ready) →
    (s.engine v).cause = 0#8 →
    (((s.engine v).cfgSize = none ∧ c = .missingSize) ∨
     (∃ size, (s.engine v).cfgSize = some size ∧ (s.engine v).variant = .scalarImm ∧
       ((s.engine v).cfgFlags.getLsbD 0 = true ∨ (s.engine v).cfgFlags.getLsbD 1 = true) ∧ c = .immAsSpecified) ∨
     (∃ size, (s.engine v).cfgSize = some size ∧ (s.engine v).variant = .scalarImm ∧
       (s.engine v).cfgFlags.getLsbD 0 = false ∧ (s.engine v).cfgFlags.getLsbD 1 = false ∧ size ≠ 8#16 ∧
       c = .immSize size) ∨
     (∃ size, (s.engine v).cfgSize = some size ∧ (s.engine v).variant.multiLane = true ∧
       (s.engine v).cfgFlags.getLsbD 1 = true ∧ c = .standardBatch)) →
    ∃ t, step s = .next t ∧
      t.engine v = { s.engine v with status := .fault, cause := c.code, raised := some c, res := none } ∧
      t.draws = s.draws ∧ OnlyEngineOrSetup s t v rest ∧ EndsSetupOf s t v

/-- R29, R231, R290: a register write that is accepted (the engine not BUSY; in FAULT it is not accepted, the model's reading, log
entry 13) changes that register of that engine and nothing else; of `CFG_FLAGS` only bits 1:0 are written, the reserved bits read 0. -/
def Obligations.RegisterWrites : Prop :=
  ∀ (s : State) (v : Variant) (c : Command) (rest : List HostEvent), s.pending = .issue v c :: rest →
    s.platform.has v = true → ((s.engine v).status = .unconfigured ∨ (s.engine v).status = .ready) →
    ∀ e : Engine,
      ((∃ x, c = .writeSize x ∧ e = { s.engine v with cfgSize := some x }) ∨
       (∃ x, c = .writeStride x ∧ e = { s.engine v with cfgStride := some x }) ∨
       (∃ x, c = .writeC x ∧ e = { s.engine v with cfgC := x }) ∨
       (∃ x, c = .writeD x ∧ e = { s.engine v with cfgD := x }) ∨
       (∃ x, c = .writeFlags x ∧ e = { s.engine v with cfgFlags := BitVec.ofNat 32 (x.toNat % 4) }) ∨
       (∃ x, c = .writeWidth x ∧ e = { s.engine v with cfgWidth := x }) ∨
       (∃ x, c = .writeKey0 x ∧ e = { s.engine v with key0 := some x }) ∨
       (∃ x, c = .writeKey1 x ∧ e = { s.engine v with key1 := some x })) →
      step s = .next ({ s with pending := rest }.setEngine v e)

/-- R227, R228: an accepted call writes its call registers, clears the lanes, `upc` and `cur`, and makes the engine BUSY; on the engines
that deliver to `RES` it clears `RES` (R294; when, is log entry 23). With no
device region and no other engine BUSY, a call on a READY engine of the right variant whose output does not meet its input is
accepted. -/
def Obligations.CallStarts : Prop :=
  ∀ (s : State) (v : Variant) (rest : List HostEvent) (n : Norm),
    (s.engine v).status = .ready → (s.engine v).norm = some n → (s.engine v).variant = v → s.platform.has v = true →
    (∀ u, (s.engine u).status ≠ .busy) → (∀ r ∈ s.platform.regions, r.kind = .memory) →
    (∀ p : Word, (v = .scalar ∨ v = .ref) → s.pending = .issue v (.call p) :: rest →
      ∃ t, step s = .next t ∧ t.active = v ∧ OnlyEngine s t v rest ∧
        t.engine v = { s.engine v with
          lanes := List.replicate v.lanes Lane.empty, upc := 0, cur := 0, status := .busy, inPtr := some p,
          res := none }) ∧
    (∀ p o : Word, v.multiLane = true → s.pending = .issue v (.callOut p o) :: rest →
      (n.size.toNat = 0 ∨ p.toNat + (v.lanes - 1) * n.stride.toNat + n.size.toNat ≤ o.toNat ∨
        o.toNat + 4 * v.lanes ≤ p.toNat) →
      ∃ t, step s = .next t ∧ t.active = v ∧ OnlyEngine s t v rest ∧
        t.engine v = { s.engine v with
          lanes := List.replicate v.lanes Lane.empty, upc := 0, cur := 0, status := .busy,
          inPtr := some p, outPtr := some o }) ∧
    (∀ a : Word, v = .scalarImm → s.pending = .issue v (.callImm a) :: rest →
      ∃ t, step s = .next t ∧ t.active = v ∧ OnlyEngine s t v rest ∧
        t.engine v = { s.engine v with
          lanes := List.replicate v.lanes Lane.empty, upc := 0, cur := 0, status := .busy, arg := some a,
          res := none })

/-- R282, R263, R290, R227, R228: a command that is not accepted changes nothing: anything but RESET while BUSY or in FAULT, a
call on an UNCONFIGURED engine, a call form of another variant. (Configuration writes in FAULT: the model's reading, log entry 13.) -/
def Obligations.RefusedCommandChangesNothing : Prop :=
  ∀ (s : State) (v : Variant) (c : Command) (rest : List HostEvent), s.pending = .issue v c :: rest →
    ((c ≠ .reset ∧ ((s.engine v).status = .busy ∨ (s.engine v).status = .fault)) ∨
     ((s.engine v).status = .unconfigured ∧ ((∃ p, c = .call p) ∨ (∃ p o, c = .callOut p o) ∨ (∃ a, c = .callImm a))) ∨
     ((∃ p, c = .call p) ∧ v ≠ .scalar ∧ v ≠ .ref) ∨
     ((∃ p o, c = .callOut p o) ∧ v ≠ .dual ∧ v ≠ .quad) ∨
     ((∃ a, c = .callImm a) ∧ v ≠ .scalarImm)) →
    step s = .next { s with pending := rest }

/-- R73, R74, R77: a CALL is refused and changes nothing where a byte of its slots is one of its records or of the input or output of
a call in progress, where a byte of its records is of the output of a call in progress, or where a byte of its records or slots, or
`IN_PTR` itself (a record of size 0 included), lies in a device region. First DUAL and QUAD, then SCALAR and REF, which have no slots.
(`OUT_PTR` is a byte of the slots.) -/
def Obligations.LaunchRegionsRefused : Prop :=
  ∀ (s : State) (v : Variant) (rest : List HostEvent) (p : Word) (n : Norm) (a : Nat), (s.engine v).norm = some n →
    (∀ o : Word, s.pending = .issue v (.callOut p o) :: rest →
      ((InRecords n p.toNat v.lanes a ∧ InSlots o.toNat v.lanes a) ∨
       (InDevice s a ∧ (a = p.toNat ∨ InRecords n p.toNat v.lanes a ∨ InSlots o.toNat v.lanes a)) ∨
       (∃ u, CallReads s u a ∧ InSlots o.toNat v.lanes a) ∨
       (∃ u, CallWrites s u a ∧ (InRecords n p.toNat v.lanes a ∨ InSlots o.toNat v.lanes a))) →
      step s = .next { s with pending := rest }) ∧
    (s.pending = .issue v (.call p) :: rest →
      ((InDevice s a ∧ (a = p.toNat ∨ InRecords n p.toNat v.lanes a)) ∨
       (∃ u, CallWrites s u a ∧ InRecords n p.toNat v.lanes a)) →
      step s = .next { s with pending := rest })

/-- R280, R230: RESET, in any status, gives every register of the engine its reset value, keeps `ID`, and touches neither memory nor
another engine. (That a batch set-up ends with it is stated in BatchSetupFails.) -/
def Obligations.ResetEffect : Prop :=
  ∀ (s : State) (v : Variant) (rest : List HostEvent), s.pending = .issue v .reset :: rest → s.platform.has v = true →
    ∃ t, step s = .next t ∧ OnlyEngineOrSetup s t v rest ∧
      { t.engine v with raised := none } =
        { variant := (s.engine v).variant
          lanes := List.replicate (s.engine v).variant.lanes
            { v0 := none, v1 := none, v2 := none, v3 := none, m := none, t := none }
          upc := 0, cur := 0
          cfgSize := none, cfgStride := none, cfgC := 2#8, cfgD := 4#8, cfgFlags := 0#32, cfgWidth := 1#16
          key0 := none, key1 := none, iv := none, norm := none, prog := []
          inPtr := none, outPtr := none, arg := none, res := none
          status := .unconfigured, cause := 0#8, raised := none }

/-- R45, R281: the state right after power-on, register by register, in every engine. -/
def Obligations.PowerOnValues : Prop :=
  ∀ v : Variant, let e := State.reset.engine v
    e.variant = v ∧ e.lanes.length = v.lanes ∧ (∀ x ∈ e.lanes, ∀ r, x.get r = none) ∧ e.upc = 0 ∧ e.cur = 0 ∧
    e.cfgSize = none ∧ e.cfgStride = none ∧ e.cfgC = 2#8 ∧ e.cfgD = 4#8 ∧ e.cfgFlags = 0#32 ∧ e.cfgWidth = 1#16 ∧
    e.key0 = none ∧ e.key1 = none ∧ e.iv = none ∧ e.norm = none ∧ e.prog = [] ∧
    e.inPtr = none ∧ e.outPtr = none ∧ e.arg = none ∧ e.res = none ∧ e.status = .unconfigured ∧ e.cause = 0#8

/-- R231, R29, R40, R41, R250, U17: what the host reads by register number. The `CFG_*`, nothing from `CFG_SIZE` and `CFG_STRIDE` while
they hold NOVALUE; `STATUS` 0 to 3; `CAUSE`, 0 with no fault recorded, and after the first fault the code of R250; `ID`; `RES`, but
nothing while it holds NOVALUE or the engine is BUSY (R294; the model's reading, log entry 23); nothing from KEY0, KEY1, IN_PTR, OUT_PTR,
ARG or a number that names no register. -/
def Obligations.HostReads : Prop :=
  ∀ e : Engine,
    (e.cfgSize = none → e.hostRead 0x00 = none) ∧
    (∀ x, e.cfgSize = some x → ∃ w, e.hostRead 0x00 = some w ∧ w.toNat = x.toNat) ∧
    (e.cfgStride = none → e.hostRead 0x01 = none) ∧
    (∀ x, e.cfgStride = some x → ∃ w, e.hostRead 0x01 = some w ∧ w.toNat = x.toNat) ∧
    (∃ w, e.hostRead 0x02 = some w ∧ w.toNat = e.cfgC.toNat) ∧
    (∃ w, e.hostRead 0x03 = some w ∧ w.toNat = e.cfgD.toNat) ∧
    (∃ w, e.hostRead 0x04 = some w ∧ w.toNat = e.cfgFlags.toNat) ∧
    (∃ w, e.hostRead 0x05 = some w ∧ w.toNat = e.cfgWidth.toNat) ∧
    (e.status = .unconfigured → e.hostRead 0x14 = some 0#64) ∧ (e.status = .ready → e.hostRead 0x14 = some 1#64) ∧
    (e.status = .busy → e.hostRead 0x14 = some 2#64) ∧ (e.status = .fault → e.hostRead 0x14 = some 3#64) ∧
    (∃ w, e.hostRead 0x15 = some w ∧ w.toNat = e.cause.toNat) ∧
    (e.cause = 0#8 →
      (e.raise .missingSize).hostRead 0x15 = some 1#64 ∧ (e.raise .standardBatch).hostRead 0x15 = some 2#64 ∧
      (e.raise .immAsSpecified).hostRead 0x15 = some 3#64 ∧
      (∀ size, (e.raise (.immSize size)).hostRead 0x15 = some 4#64) ∧
      (e.raise .widthZero).hostRead 0x15 = some 5#64 ∧
      (∀ w u, (e.raise (.loadUnsupported w u)).hostRead 0x15 = some 16#64) ∧
      (∀ w u, (e.raise (.illegalOp w u)).hostRead 0x15 = some 17#64) ∧
      (∀ w u r, (e.raise (.unwrittenReg w u r)).hostRead 0x15 = some 18#64) ∧
      (∀ u, (e.raise (.noFin u)).hostRead 0x15 = some 19#64) ∧
      (∀ w u, (e.raise (.finMode w u)).hostRead 0x15 = some 20#64)) ∧
    (e.variant = .scalar → e.hostRead 0x1F = some 0x10#64) ∧ (e.variant = .scalarImm → e.hostRead 0x1F = some 0x11#64) ∧
    (e.variant = .dual → e.hostRead 0x1F = some 0x22#64) ∧ (e.variant = .quad → e.hostRead 0x1F = some 0x43#64) ∧
    (e.variant = .ref → e.hostRead 0x1F = some 0x14#64) ∧
    (∀ x, e.status ≠ .busy → e.res = some x → ∃ w, e.hostRead 0x13 = some w ∧ w.toNat = x.toNat) ∧
    ((e.status = .busy ∨ e.res = none) → e.hostRead 0x13 = none) ∧
    (∀ k, k ∉ [0x00, 0x01, 0x02, 0x03, 0x04, 0x05, 0x13, 0x14, 0x15, 0x1F] → e.hostRead k = none)

/-- R238: the key of a seed: `KEY0 = zext_64(seed)`, `KEY1 = 0`, 16 bytes. -/
def Obligations.SeedKey : Prop :=
  ∀ seed : BitVec 32, (deriveKeyFromSeed seed).length = 16 ∧
    (∀ k < 4, (deriveKeyFromSeed seed)[k]? = some (BitVec.ofNat 8 (seed.toNat / 256 ^ k))) ∧
    (∀ k, 4 ≤ k → k < 16 → (deriveKeyFromSeed seed)[k]? = some 0#8) ∧
    leValue ((deriveKeyFromSeed seed).take 8) = seed.toNat ∧ leValue ((deriveKeyFromSeed seed).drop 8) = 0

/-! ### Invariants and whole-machine rules -/

/-- The invariants below hold at reset. -/
def Obligations.ResetMeetsTheInvariants : Prop :=
  MemoryInv State.reset ∧ ShapeInv State.reset ∧ ReservedInv State.reset ∧ FaultInv State.reset ∧
    ConfiguredInv State.reset ∧ CallInv State.reset

/-- Every step keeps memory in canonical form (the model's form of the spec's memory, R60). -/
def Obligations.StepKeepsMemoryCanonical : Prop :=
  ∀ s t : State, MemoryInv s → step s = .next t → MemoryInv t

/-- R41, R209, R29, U14: every step keeps each engine's identity and its number of lanes, and the reserved bits of every `CFG_FLAGS`
read 0 after it. -/
def Obligations.StepKeepsShape : Prop :=
  ∀ s t : State, ShapeInv s → ReservedInv s → step s = .next t → ShapeInv t ∧ ReservedInv t

/-- R40, R262: after every step an engine is in FAULT exactly when `CAUSE.CODE` is not 0, and `RES` then holds no value. -/
def Obligations.StepKeepsFaultRecord : Prop :=
  ∀ s t : State, FaultInv s → step s = .next t → FaultInv t

/-- R220 to R225, D36: after every step a READY or BUSY engine holds an `IV`, a configuration its variant admits and the program of
that configuration. The premise `ShapeInv` is an invariant of its own. -/
def Obligations.StepKeepsConfigured : Prop :=
  ∀ s t : State, ShapeInv s → ConfiguredInv s → step s = .next t → ConfiguredInv t

/-- R26, R188, R227, R228: after every step a BUSY engine's `upc` is within its program and its call registers hold values. -/
def Obligations.StepKeepsCallRegisters : Prop :=
  ∀ s t : State, CallInv s → step s = .next t → CallInv t

/-- R44, R41: no step changes `INIT_CONST`, `HAS_DUAL`, `HAS_QUAD` or an engine's `ID`. -/
def Obligations.ParametersNeverChange : Prop :=
  ∀ s t : State, step s = .next t →
    t.platform.initConst = s.platform.initConst ∧ t.platform.hasDual = s.platform.hasDual ∧
    t.platform.hasQuad = s.platform.hasQuad ∧ ∀ v, (t.engine v).variant = (s.engine v).variant

/-- R290, R213: while an engine is BUSY no step but a RESET of it changes its `IV`, `N_*`, `PROG`, `CFG_*` or key registers. -/
def Obligations.ConfigurationIsQuiescent : Prop :=
  ∀ (s t : State) (v : Variant), step s = .next t → (s.engine v).status = .busy →
    (t.engine v).status ≠ .unconfigured →
    (t.engine v).iv = (s.engine v).iv ∧ (t.engine v).norm = (s.engine v).norm ∧ (t.engine v).prog = (s.engine v).prog ∧
    (t.engine v).cfgSize = (s.engine v).cfgSize ∧ (t.engine v).cfgStride = (s.engine v).cfgStride ∧
    (t.engine v).cfgC = (s.engine v).cfgC ∧ (t.engine v).cfgD = (s.engine v).cfgD ∧
    (t.engine v).cfgFlags = (s.engine v).cfgFlags ∧ (t.engine v).cfgWidth = (s.engine v).cfgWidth ∧
    (t.engine v).key0 = (s.engine v).key0 ∧ (t.engine v).key1 = (s.engine v).key1

/-- R263: FAULT is sticky: a step leaves an engine in FAULT as it is, or resets it. (That a configuration write in FAULT leaves it as it
is: the model's reading, log entry 13.) -/
def Obligations.FaultIsSticky : Prop :=
  ∀ (s t : State) (v : Variant), step s = .next t → (s.engine v).status = .fault →
    t.engine v = s.engine v ∨ t.engine v = Engine.powerOn (s.engine v).variant

/-- R282: an engine's status changes only by the event of the table: to UNCONFIGURED by RESET, to READY by a CONFIGURE (or the batch
set-up that configures it) or, from BUSY, by a FIN that delivers; to BUSY by an accepted call; to FAULT by a CONFIGURE or batch set-up
that fails with a `CE_*` or, from BUSY, by a micro-op or fetch that raises a `UE_*`; from FAULT only to UNCONFIGURED. (Which engine a
failed batch set-up puts in FAULT: log entry 8.) -/
def Obligations.LifeOfAnEngine : Prop :=
  ∀ (s t : State) (v : Variant), step s = .next t → transitionAllowed s t v (s.engine v).status (t.engine v).status

/-! ### The sequencer (44_sequencer) and the algorithm (40_algorithm) -/

/-- R187: the length of a generated program. -/
def Obligations.ProgramLength : Prop :=
  ∀ n : Norm, (program n).length = programLength n

/-- R188, R189: a generated program is INIT, then words that are neither INIT nor FIN, then one FIN; and every register a micro-op of
it reads was written by an earlier one. -/
def Obligations.ProgramShape : Prop :=
  ∀ n : Norm,
    (∃ body, program n = .init :: (body ++ [.fin .v0 n.standard]) ∧ ∀ i ∈ body, i ≠ .init ∧ isFin i = false) ∧
    ∀ (k : Nat) (i : Instr), (program n)[k]? = some i → ∀ r ∈ readsOf i,
      ∃ j < k, ∃ i', (program n)[j]? = some i' ∧ r ∈ writesOf i'

/-- R190: the loads of a generated program, in order, have widths 8 (`size div 8` times) and then the chunk widths of the tail;
they sum to `size`. -/
def Obligations.ProgramLoads : Prop :=
  ∀ n : Norm,
    ((program n).map loadWidth).filter (fun k => decide (0 < k)) =
      List.replicate (n.size.toNat / 8) 8 ++ (if 4 ≤ n.size.toNat % 8 then [4] else []) ++
        (if 2 ≤ n.size.toNat % 4 then [2] else []) ++ (if n.size.toNat % 2 = 1 then [1] else []) ∧
    ((program n).map loadWidth).sum = n.size.toNat

/-- R101, R188: the sequencer never emits an illegal word: every word of `PROG` decodes to the micro-op it was emitted for. -/
def Obligations.ProgramWordsAreLegal : Prop :=
  ∀ n : Norm, (programWords n).map decode = (program n).map Except.ok

/-- R124: the round is a bijection on the 256-bit state. -/
def Obligations.SipRoundIsBijective : Prop :=
  Function.Bijective sipRound

/-- R136: in the internal format the output is even, at most `0xFFFFFFFE`, and never the sentinel, for every result word. -/
def Obligations.InternalOutputRange : Prop :=
  ∀ (ic : SipState) (n : Norm) (key record : List Byte), n.standard = false →
    hash ic n key record ≠ 0xFFFFFFFF#32 ∧ (hash ic n key record).getLsbD 0 = false ∧
      (hash ic n key record).toNat % 2 = 0 ∧ (hash ic n key record).toNat ≤ 0xFFFFFFFE

/-- R137: with `c = 0`, `d = 0` every key and record gives the same result word, the constants and `0xff` alone; with the default
`INIT_CONST` it is `0x0f1c1c0309061df5`. (R137 says it of size 0 and the fixed-size policy; 95_test_vectors 4.7 of every size.) -/
def Obligations.DegenerateRounds : Prop :=
  ∀ (ic : SipState) (n : Norm) (key record : List Byte), n.c = 0#8 → n.d = 0#8 →
    hash64From (initState ic key) n record = ic.v0 ^^^ ic.v1 ^^^ ic.v2 ^^^ ic.v3 ^^^ 0xff#64 ∧
    (ic = Config.initConst → hash64From (initState ic key) n record = 0x0f1c1c0309061df5#64)

/-! ### Headline: the micro-program computes the hash (R192, R203, R208, R235) -/

/-- R192, R201, R206, R213 on SCALAR and REF: from the start of a call whose record is admitted, exactly `len(PROG)` steps deliver
`RES = H(cfg, key, record)` and leave the engine READY; before that it is BUSY; outside the lanes, `upc`, `cur`, `RES` and STATUS
nothing has changed. (Another engine that is BUSY takes no step meanwhile: log entry 9.) -/
def Obligations.ScalarCallComputesHash : Prop :=
  ∀ (s : State) (n : Norm) (iv : SipState) (p : Word), AtCallStart s n iv →
    (s.eng.variant = .scalar ∨ s.eng.variant = .ref) → s.eng.inPtr = some p → InputAdmitted s n p.toNat 1 →
    (∀ k < (programWords n).length, ∃ u : State, Sys2Proof.core.run k s = .next u ∧ u.eng.status = .busy ∧ u.eng.upc = k) ∧
    ∃ t : State, Sys2Proof.core.run (programWords n).length s = .next t ∧
      t.eng.res = some (hashFrom iv n (recordAt s.mem n p.toNat 0)) ∧ t.eng.status = .ready ∧
      t.eng.cur = n.size.toNat ∧
      { t.eng with lanes := s.eng.lanes, upc := s.eng.upc, cur := s.eng.cur, res := s.eng.res, status := s.eng.status } = s.eng ∧
      OutsideKept s t

/-- R192, R202, R228 on SCALAR_IMM: `len(PROG)` steps deliver `RES = H(cfg, key, bytesLE_8(ARG))` and touch no memory. (Another engine
that is BUSY takes no step meanwhile: log entry 9.) -/
def Obligations.ImmediateCallComputesHash : Prop :=
  ∀ (s : State) (n : Norm) (iv : SipState) (a : Word), AtCallStart s n iv → s.eng.variant = .scalarImm →
    s.eng.arg = some a →
    ∃ t : State, Sys2Proof.core.run (programWords n).length s = .next t ∧
      t.eng.res = some (hashFrom iv n (bytesLE 8 a.toNat)) ∧ t.eng.status = .ready ∧
      t.eng.cur = 8 ∧
      { t.eng with lanes := s.eng.lanes, upc := s.eng.upc, cur := s.eng.cur, res := s.eng.res, status := s.eng.status } = s.eng ∧
      OutsideKept s t

/-- R192, R204, R205 on DUAL and QUAD: `len(PROG)` steps leave in slot `l` the little-endian word `H(cfg, key, record_l)`, for every
lane, keep every other byte of memory, `RES` and the configuration, and leave the engine READY. (Another engine that is BUSY takes no
step meanwhile: log entry 9.) -/
def Obligations.MultiLaneCallComputesHash : Prop :=
  ∀ (s : State) (n : Norm) (iv : SipState) (p o : Word), AtCallStart s n iv → s.eng.variant.multiLane = true →
    MemoryInv s → s.eng.inPtr = some p → s.eng.outPtr = some o → InputAdmitted s n p.toNat s.eng.variant.lanes →
    admitsWrite s.platform o.toNat (4 * s.eng.variant.lanes) = true →
    ∃ t : State, Sys2Proof.core.run (programWords n).length s = .next t ∧
      (∀ l < s.eng.variant.lanes, ∀ k < 4, Memory.read t.mem (o.toNat + 4 * l + k) =
        slotByte (hashFrom iv n (recordAt s.mem n p.toNat l)) k) ∧
      (∀ a, (a < o.toNat ∨ o.toNat + 4 * s.eng.variant.lanes ≤ a) → Memory.read t.mem a = Memory.read s.mem a) ∧
      t.eng.status = .ready ∧ t.eng.cur = n.size.toNat ∧
      { t.eng with lanes := s.eng.lanes, upc := s.eng.upc, cur := s.eng.cur, status := s.eng.status } = s.eng ∧
      { t.putEng s.eng with mem := s.mem } = s

/-- R208: lane isolation: two DUAL or QUAD calls alike but for memory, whose records of lane `l` agree, leave the same bytes in
slot `l`. (Another engine that is BUSY takes no step meanwhile: log entry 9.) -/
def Obligations.LaneIsolation : Prop :=
  ∀ (s : State) (n : Norm) (iv : SipState) (p o : Word) (mem' : Memory) (l : Nat), AtCallStart s n iv →
    s.eng.variant.multiLane = true → MemoryInv s → Memory.wf mem' = true →
    s.eng.inPtr = some p → s.eng.outPtr = some o → InputAdmitted s n p.toNat s.eng.variant.lanes →
    admitsWrite s.platform o.toNat (4 * s.eng.variant.lanes) = true → l < s.eng.variant.lanes →
    (∀ k < n.size.toNat, Memory.read mem' (p.toNat + l * n.stride.toNat + k) =
      Memory.read s.mem (p.toNat + l * n.stride.toNat + k)) →
    ∃ t t' : State, Sys2Proof.core.run (programWords n).length s = .next t ∧
      Sys2Proof.core.run (programWords n).length { s with mem := mem' } = .next t' ∧
      ∀ k < 4, Memory.read t'.mem (o.toNat + 4 * l + k) = Memory.read t.mem (o.toNat + 4 * l + k)

/-! ### The batch composer (46_commands R232 to R237) -/

/-- R232, R233, R234: whatever engines the host has, the engine calls of a batch cover its `W` records exactly once, in index order,
each with its own slot. -/
def Obligations.BatchCoversEveryRecordOnce : Prop :=
  ∀ (pf : Platform) (stride w input output : Nat),
    (batchCalls pf stride w input output).flatMap (coveredBy stride) =
      (List.range w).map (fun k => (input + k * stride, output + 4 * k))

/-- R236, R265: batch set-up with no size, else width 0, else STANDARD, takes that cause, on the SCALAR engine (log entry 8), and
configures no engine; so does a BATCH of a READY SCALAR engine that was configured by itself (R283) with width 0, else STANDARD. No
call is made. A set-up in force ends with a failed set-up, and with a RESET of an engine of it (log entry 25). -/
def Obligations.BatchSetupFails : Prop :=
  (∀ (s : State) (rest : List HostEvent) (c : Cause), s.pending = .batchSetup :: rest →
    (∀ v, (s.engine v).status = .unconfigured ∨ (s.engine v).status = .ready) → (s.engine .scalar).cause = 0#8 →
    (((s.engine .scalar).cfgSize = none ∧ c = .missingSize) ∨
     ((s.engine .scalar).cfgSize ≠ none ∧ (s.engine .scalar).cfgWidth = 0#16 ∧ c = .widthZero) ∨
     ((s.engine .scalar).cfgSize ≠ none ∧ (s.engine .scalar).cfgWidth ≠ 0#16 ∧
       (s.engine .scalar).cfgFlags.getLsbD 1 = true ∧ c = .standardBatch)) →
    ∃ t, step s = .next t ∧
      t.engine .scalar =
        { s.engine .scalar with status := .fault, cause := c.code, raised := some c, res := none } ∧
      t.draws = s.draws ∧ OnlyEngineOrSetup s t .scalar rest ∧ t.batch = none) ∧
  (∀ (s : State) (rest : List HostEvent) (i o : Word) (n : Norm) (iv : SipState) (c : Cause),
    s.pending = .batch i o :: rest → s.batch = none → (s.engine .scalar).status = .ready →
    (s.engine .scalar).norm = some n → (s.engine .scalar).iv = some iv → (s.engine .scalar).cause = 0#8 →
    (((s.engine .scalar).cfgWidth = 0#16 ∧ c = .widthZero) ∨
     ((s.engine .scalar).cfgWidth ≠ 0#16 ∧ n.standard = true ∧ c = .standardBatch)) →
    ∃ t, step s = .next t ∧
      t.engine .scalar =
        { s.engine .scalar with status := .fault, cause := c.code, raised := some c, res := none } ∧
      t.draws = s.draws ∧ OnlyEngine s t .scalar rest) ∧
  (∀ (s t : State) (v : Variant) (rest : List HostEvent), s.pending = .issue v .reset :: rest → s.platform.has v = true →
    step s = .next t → EndsSetupOf s t v)

/-- R232, R240, R283: a batch set-up whose checks pass makes every engine of the batch READY with one configuration, one `IV` and one
program; no other engine changes. The stride is that of `CFG_STRIDE`, else the size (R221); the `IV` is that of the key registers when
both hold values, else of one drawn key for all engines, a free value (R223). The configuration and the key are those of the SCALAR
engine (log entry 8). -/
def Obligations.BatchSetupConfigures : Prop :=
  ∀ (s : State) (rest : List HostEvent) (size : BitVec 16), s.pending = .batchSetup :: rest →
    (∀ v, (s.engine v).status = .unconfigured ∨ (s.engine v).status = .ready) →
    (s.engine .scalar).cfgSize = some size → (s.engine .scalar).cfgWidth ≠ 0#16 →
    (s.engine .scalar).cfgFlags.getLsbD 1 = false →
    ∃ t b, step s = .next t ∧ t.batch = some b ∧ t.pending = rest ∧ t.mem = s.mem ∧ t.platform = s.platform ∧
      b.width = (s.engine .scalar).cfgWidth ∧ b.norm.size = size ∧ b.norm.standard = false ∧
      b.norm.asSpecified = (s.engine .scalar).cfgFlags.getLsbD 0 ∧
      b.norm.c = (s.engine .scalar).cfgC ∧ b.norm.d = (s.engine .scalar).cfgD ∧
      (∀ x, (s.engine .scalar).cfgStride = some x → b.norm.stride = x) ∧
      ((s.engine .scalar).cfgStride = none → b.norm.stride.toNat = size.toNat) ∧
      (∀ k0 k1, (s.engine .scalar).key0 = some k0 → (s.engine .scalar).key1 = some k1 → t.draws = s.draws ∧
        b.iv =
          { v0 := s.platform.initConst.v0 ^^^ k0
            v1 := s.platform.initConst.v1 ^^^ k1
            v2 := s.platform.initConst.v2 ^^^ k0
            v3 := s.platform.initConst.v3 ^^^ k1 }) ∧
      (((s.engine .scalar).key0 = none ∨ (s.engine .scalar).key1 = none) → t.draws = s.draws + 1 ∧
        b.iv = initState s.platform.initConst (drawnKey s.draws)) ∧
      (∀ v ∈ composerEngines s.platform, (t.engine v).status = .ready ∧ (t.engine v).norm = some b.norm ∧
        (t.engine v).iv = some b.iv ∧ (t.engine v).prog = programWords b.norm) ∧
      (∀ v, v ∉ composerEngines s.platform → t.engine v = s.engine v)

/-- R235: a batch, of the set-up in force or (R283) of engines that the host configured one by one alike, its width then the `CFG_WIDTH`
of SCALAR (log entry 8), with the pointers of its engine calls addresses, its regions admitted and disjoint and no engine BUSY, runs to its end: the slot of every record
holds its hash, whatever engines the host has, and no other byte of memory has changed. -/
def Obligations.BatchDeliversEveryHash : Prop :=
  ∀ (s : State) (b : BatchConfig) (i o : Word), s.pending = [.batch i o] →
    (s.batch = some b ∨ (s.batch = none ∧ (s.engine .scalar).cfgWidth = b.width ∧ b.width ≠ 0#16)) →
    ShapeInv s → ConfiguredInv s → MemoryInv s → b.norm.standard = false →
    (∀ v ∈ composerEngines s.platform, (s.engine v).status = .ready ∧ (s.engine v).norm = some b.norm ∧
      (s.engine v).iv = some b.iv) →
    (∀ v, (s.engine v).status ≠ .busy) → (∀ r ∈ s.platform.regions, r.kind = .memory) →
    (∀ c ∈ batchCalls s.platform b.norm.stride.toNat b.width.toNat i.toNat o.toNat, c.input < 2 ^ 64) →
    (b.norm.size.toNat = 0 ∨
      i.toNat + (b.width.toNat - 1) * b.norm.stride.toNat + b.norm.size.toNat ≤ o.toNat ∨
      o.toNat + 4 * b.width.toNat ≤ i.toNat) →
    InputAdmitted s b.norm i.toNat b.width.toNat → admitsWrite s.platform o.toNat (4 * b.width.toNat) = true →
    ∃ (k : Nat) (t : State), Sys2Proof.core.run k s = .next t ∧ t.pending = [] ∧
      (∀ j < b.width.toNat, ∀ q < 4, Memory.read t.mem (o.toNat + 4 * j + q) =
        slotByte (hashFrom b.iv b.norm (recordAt s.mem b.norm i.toNat j)) q) ∧
      ∀ a, (a < o.toNat ∨ o.toNat + 4 * b.width.toNat ≤ a) → Memory.read t.mem a = Memory.read s.mem a
end

