-- ==== Sys2Proof/Laws/Memory.lean ====
section
/-! SUPPORT. Caller memory: read after write, what a write leaves, and that every operation keeps the canonical form; byte order. -/

namespace Sys2Proof.Machine

namespace MemoryLaws

/-- A memory in canonical form from `lo` on is so from any lower address. -/
theorem wfFrom_mono {lo lo' : Nat} (h : lo' ≤ lo) : ∀ {m : Memory}, Memory.wfFrom lo m = true → Memory.wfFrom lo' m = true
  | [], _ => rfl
  | (a, v) :: m, hw => by
    simp only [Memory.wfFrom, Bool.and_eq_true, decide_eq_true_eq] at hw ⊢
    exact ⟨⟨by omega, hw.1.2⟩, hw.2⟩

/-- Below its first address a canonical memory reads the unlisted byte. -/
theorem read_below : ∀ {m : Memory} {lo a : Nat}, Memory.wfFrom lo m = true → a < lo → m.read a = Config.unlistedByte
  | [], _, _, _, _ => rfl
  | (b, w) :: m, lo, a, hw, h => by
    simp only [Memory.wfFrom, Bool.and_eq_true, decide_eq_true_eq] at hw
    have hne : a ≠ b := by omega
    simp only [Memory.read, if_neg hne]
    exact read_below hw.2 (by omega)

/-- A write at or above `lo` keeps the canonical form from `lo` on. -/
theorem wfFrom_write : ∀ {m : Memory} {lo a : Nat} (v : Byte), Memory.wfFrom lo m = true → lo ≤ a →
    Memory.wfFrom lo (m.write a v) = true
  | [], lo, a, v, _, h => by
    by_cases hv : v = Config.unlistedByte <;> simp [Memory.write, Memory.wfFrom, hv, h]
  | (b, w) :: m, lo, a, v, hw, h => by
    simp only [Memory.wfFrom, Bool.and_eq_true, decide_eq_true_eq] at hw
    obtain ⟨⟨hb, hne⟩, hm⟩ := hw
    simp only [Memory.write]
    by_cases h1 : a < b
    · rw [if_pos h1]
      by_cases hv : v = Config.unlistedByte
      · simp [hv, Memory.wfFrom, hb, hne, hm]
      · simp only [if_neg hv, Memory.wfFrom, Bool.and_eq_true, decide_eq_true_eq]
        exact ⟨⟨h, hv⟩, ⟨⟨by omega, hne⟩, hm⟩⟩
    · rw [if_neg h1]
      by_cases h2 : a = b
      · rw [if_pos h2]
        by_cases hv : v = Config.unlistedByte
        · rw [if_pos hv]; exact wfFrom_mono (by omega) hm
        · simp only [if_neg hv, Memory.wfFrom, Bool.and_eq_true, decide_eq_true_eq]
          exact ⟨⟨h, hv⟩, h2 ▸ hm⟩
      · simp only [if_neg h2, Memory.wfFrom, Bool.and_eq_true, decide_eq_true_eq]
        exact ⟨⟨hb, hne⟩, wfFrom_write v hm (by omega)⟩

/-- A byte write keeps the canonical form. -/
theorem wf_write {m : Memory} (a : Nat) (v : Byte) (h : m.wf = true) : (m.write a v).wf = true :=
  wfFrom_write v h (Nat.zero_le a)

theorem wf_writeBytes : ∀ (bs : List Byte) {m : Memory} (a : Nat), m.wf = true → (m.writeBytes a bs).wf = true
  | [], _, _, h => h
  | b :: bs, _, a, h => wf_writeBytes bs (a + 1) (wf_write a b h)

/-- `MemWrite` keeps the canonical form. -/
theorem wf_memWrite {m : Memory} (a n v : Nat) (h : m.wf = true) : (memWrite m a n v).wf = true :=
  wf_writeBytes _ a h

/-- Storing output slots keeps the canonical form. -/
theorem wf_storeSlots : ∀ (ws : List OutWord) {m : Memory} (a : Nat), m.wf = true → (storeSlots m a ws).wf = true
  | [], _, _, h => h
  | w :: ws, _, a, h => wf_storeSlots ws (a + Config.slotBytes) (wf_memWrite a 4 w.toNat h)

/-- Canonical memory: a read after a write, at any address. -/
theorem read_write_from : ∀ {m : Memory} {lo : Nat} (a c : Nat) (v : Byte), Memory.wfFrom lo m = true →
    (m.write a v).read c = if c = a then v else m.read c
  | [], _, a, c, v, _ => by
    by_cases hv : v = Config.unlistedByte
    · by_cases hc : c = a <;> simp [Memory.write, Memory.read, hv, hc]
    · by_cases hc : c = a <;> simp [Memory.write, Memory.read, hv, hc]
  | (b, w) :: m, lo, a, c, v, hw => by
    simp only [Memory.wfFrom, Bool.and_eq_true, decide_eq_true_eq] at hw
    obtain ⟨⟨hb, hne⟩, hm⟩ := hw
    simp only [Memory.write]
    by_cases h1 : a < b
    · rw [if_pos h1]
      by_cases hv : v = Config.unlistedByte
      · rw [if_pos hv]
        by_cases hc : c = a
        · have hcb : c ≠ b := by omega
          rw [if_pos hc]
          simp only [Memory.read, if_neg hcb]
          rw [read_below hm (by omega), hv]
        · rw [if_neg hc]
      · rw [if_neg hv]
        simp only [Memory.read]
    · rw [if_neg h1]
      by_cases h2 : a = b
      · rw [if_pos h2]
        by_cases hv : v = Config.unlistedByte
        · rw [if_pos hv]
          by_cases hc : c = a
          · rw [if_pos hc, read_below hm (by omega), hv]
          · rw [if_neg hc]
            have hcb : c ≠ b := by omega
            simp only [Memory.read, if_neg hcb]
        · rw [if_neg hv]
          by_cases hc : c = a
          · simp only [Memory.read, if_pos hc]
          · have hcb : c ≠ b := by omega
            simp only [Memory.read, if_neg hc, if_neg hcb]
      · rw [if_neg h2]
        by_cases hcb : c = b
        · have hca : c ≠ a := by omega
          simp only [Memory.read, if_pos hcb, if_neg hca]
        · simp only [Memory.read, if_neg hcb]
          exact read_write_from a c v hm

/-- A read after a write, at any address, in canonical memory. -/
theorem read_write {m : Memory} (a c : Nat) (v : Byte) (h : m.wf = true) :
    (m.write a v).read c = if c = a then v else m.read c :=
  read_write_from a c v h

/-- Two canonical memories that read alike everywhere are equal data. -/
theorem ext_from : ∀ {m m' : Memory} {lo : Nat}, Memory.wfFrom lo m = true → Memory.wfFrom lo m' = true →
    (∀ a, m.read a = m'.read a) → m = m'
  | [], [], _, _, _, _ => rfl
  | [], (b, w) :: m, _, _, h', hr => by
    simp only [Memory.wfFrom, Bool.and_eq_true, decide_eq_true_eq] at h'
    have := hr b
    simp only [Memory.read, if_true] at this
    exact absurd this.symm h'.1.2
  | (b, w) :: m, [], _, h, _, hr => by
    simp only [Memory.wfFrom, Bool.and_eq_true, decide_eq_true_eq] at h
    have := hr b
    simp only [Memory.read, if_true] at this
    exact absurd this h.1.2
  | (b, w) :: m, (c, x) :: m', lo, h, h', hr => by
    simp only [Memory.wfFrom, Bool.and_eq_true, decide_eq_true_eq] at h h'
    have hbc : b = c := by
      rcases Nat.lt_trichotomy b c with hlt | heq | hgt
      · have := hr b
        simp only [Memory.read, if_true, if_neg (Nat.ne_of_lt hlt)] at this
        rw [read_below h'.2 (by omega)] at this
        exact absurd this h.1.2
      · exact heq
      · have := hr c
        simp only [Memory.read, if_true, if_neg (Nat.ne_of_lt hgt)] at this
        rw [read_below h.2 (by omega)] at this
        exact absurd this.symm h'.1.2
    subst hbc
    have hw : w = x := by simpa only [Memory.read, if_true] using hr b
    subst hw
    have : m = m' := ext_from h.2 h'.2 fun a => by
      by_cases ha : a = b
      · subst ha
        rw [read_below h.2 (by omega), read_below h'.2 (by omega)]
      · simpa only [Memory.read, if_neg ha] using hr a
    rw [this]

/-- Bytes written from `a` up, read at any address. -/
theorem read_writeBytes : ∀ (bs : List Byte) {m : Memory} (a c : Nat), m.wf = true →
    (m.writeBytes a bs).read c = if a ≤ c then (bs[c - a]?).getD (m.read c) else m.read c
  | [], m, a, c, _ => by simp [Memory.writeBytes]
  | b :: bs, m, a, c, h => by
    rw [Memory.writeBytes, read_writeBytes bs (a + 1) c (wf_write a b h), read_write a c b h]
    by_cases h1 : a + 1 ≤ c
    · have hca : c ≠ a := by omega
      have hle : a ≤ c := by omega
      have hsub : c - a = (c - (a + 1)) + 1 := by omega
      simp [h1, hca, hle, hsub]
    · by_cases h2 : c = a
      · subst h2; simp
      · have hle : ¬ a ≤ c := by omega
        simp [h1, h2, hle]

end MemoryLaws

/-! ### Byte order -/

namespace ByteLaws

@[simp] theorem bytesLE_length : ∀ (k v : Nat), (bytesLE k v).length = k
  | 0, _ => rfl
  | k + 1, v => by simp [bytesLE, bytesLE_length k]

theorem leValue_lt : ∀ bs : List Byte, leValue bs < 256 ^ bs.length
  | [] => by simp [leValue]
  | b :: bs => by
    have h := leValue_lt bs
    have hb : b.toNat < 256 := b.isLt
    simp only [leValue, List.length_cons, Nat.pow_succ]
    omega

/-- `LE` of `bytesLE_k(v)` is `v` modulo `256^k`. -/
theorem leValue_bytesLE : ∀ (k v : Nat), leValue (bytesLE k v) = v % 256 ^ k
  | 0, v => by simp [bytesLE, leValue, Nat.mod_one]
  | k + 1, v => by
    simp only [bytesLE, leValue, leValue_bytesLE k, BitVec.toNat_ofNat]
    rw [show 256 ^ (k + 1) = 256 * 256 ^ k by ring, Nat.mod_mul]

theorem leValue_append : ∀ (as bs : List Byte), leValue (as ++ bs) = leValue as + 256 ^ as.length * leValue bs
  | [], bs => by simp [leValue]
  | a :: as, bs => by
    simp only [List.cons_append, leValue, leValue_append as bs, List.length_cons, Nat.pow_succ]
    ring

@[simp] theorem readBytes_length (m : Memory) : ∀ (n a : Nat), (m.readBytes a n).length = n
  | 0, _ => rfl
  | n + 1, a => by simp [Memory.readBytes, readBytes_length m n]

/-- The byte `k` of a row of bytes read. -/
theorem readBytes_getElem? (m : Memory) : ∀ (n a k : Nat), k < n → (m.readBytes a n)[k]? = some (m.read (a + k))
  | n + 1, a, 0, _ => by simp [Memory.readBytes]
  | n + 1, a, k + 1, h => by
    rw [Memory.readBytes, List.getElem?_cons_succ, readBytes_getElem? m n (a + 1) k (by omega)]
    congr 2; omega

/-- A row of bytes read in two parts. -/
theorem readBytes_add (m : Memory) : ∀ (n k a : Nat), m.readBytes a (n + k) = m.readBytes a n ++ m.readBytes (a + n) k
  | 0, k, a => by simp [Memory.readBytes]
  | n + 1, k, a => by
    rw [show n + 1 + k = (n + k) + 1 by omega]
    simp only [Memory.readBytes, readBytes_add m n k (a + 1), List.cons_append]
    rw [show a + 1 + n = a + (n + 1) by omega]

/-- `MemRead` gives less than `256^n`. -/
theorem memRead_lt (m : Memory) (a n : Nat) : memRead m a n < 256 ^ n := by
  have := leValue_lt (m.readBytes a n)
  rwa [readBytes_length] at this

end ByteLaws

end Sys2Proof.Machine
end

