-- ==== Sys2Proof/Laws/State.lean ====
section
/-! SUPPORT. One lemma per field per update of the state and of an engine, so that no proof unfolds a record update. -/

namespace Sys2Proof.Machine

/-! ### The engine bank -/

@[simp] theorem engines_get_set (es : Engines) (v : Variant) (e : Engine) : (es.set v e).get v = e := by
  cases v <;> rfl

@[simp] theorem engines_get_set_ne (es : Engines) {v u : Variant} (e : Engine) (h : u ≠ v) :
    (es.set v e).get u = es.get u := by
  cases v <;> cases u <;> first | rfl | exact absurd rfl h

@[simp] theorem engines_set_get (es : Engines) (v : Variant) : es.set v (es.get v) = es := by
  cases v <;> rfl

@[simp] theorem engines_set_set (es : Engines) (v : Variant) (e e' : Engine) :
    (es.set v e).set v e' = es.set v e' := by
  cases v <;> rfl

theorem engines_ext {a b : Engines} (h : ∀ v, a.get v = b.get v) : a = b := by
  obtain ⟨a1, a2, a3, a4, a5⟩ := a
  obtain ⟨b1, b2, b3, b4, b5⟩ := b
  have h1 : a1 = b1 := h .scalar
  have h2 : a2 = b2 := h .scalarImm
  have h3 : a3 = b3 := h .dual
  have h4 : a4 = b4 := h .quad
  have h5 : a5 = b5 := h .ref
  rw [h1, h2, h3, h4, h5]

/-! ### `setEngine` -/

section setEngine
variable (s : State) (v : Variant) (e : Engine)
@[simp] theorem setEngine_active : (s.setEngine v e).active = s.active := rfl
@[simp] theorem setEngine_mem : (s.setEngine v e).mem = s.mem := rfl
@[simp] theorem setEngine_platform : (s.setEngine v e).platform = s.platform := rfl
@[simp] theorem setEngine_draws : (s.setEngine v e).draws = s.draws := rfl
@[simp] theorem setEngine_batch : (s.setEngine v e).batch = s.batch := rfl
@[simp] theorem setEngine_pending : (s.setEngine v e).pending = s.pending := rfl
@[simp] theorem setEngine_engines : (s.setEngine v e).engines = s.engines.set v e := rfl
@[simp] theorem engine_setEngine : (s.setEngine v e).engine v = e := engines_get_set _ _ _
@[simp] theorem engine_setEngine_ne {u : Variant} (h : u ≠ v) : (s.setEngine v e).engine u = s.engine u :=
  engines_get_set_ne _ _ h
end setEngine

/-- The engine of any variant after `setEngine`. -/
theorem engine_setEngine_ite (s : State) (v u : Variant) (e : Engine) :
    (s.setEngine v e).engine u = if u = v then e else s.engine u := by
  by_cases h : u = v
  · subst h; simp
  · simp [h]

/-! ### The other updates leave the engines -/

section others
variable (s : State) (v : Variant)
@[simp] theorem engine_mem (m : List Host.Cell) : ({ s with mem := m } : State).engine v = s.engine v := rfl
@[simp] theorem engine_active (u : Variant) : ({ s with active := u } : State).engine v = s.engine v := rfl
@[simp] theorem engine_platform (p : Platform) : ({ s with platform := p } : State).engine v = s.engine v := rfl
@[simp] theorem engine_draws (n : Nat) : ({ s with draws := n } : State).engine v = s.engine v := rfl
@[simp] theorem engine_batch (b : Option BatchConfig) : ({ s with batch := b } : State).engine v = s.engine v := rfl
@[simp] theorem engine_pending (p : List HostEvent) : ({ s with pending := p } : State).engine v = s.engine v := rfl
end others

/-! ### `putEng` -/

section putEng
variable (s : State) (e : Engine)
@[simp] theorem putEng_active : (s.putEng e).active = s.active := rfl
@[simp] theorem putEng_mem : (s.putEng e).mem = s.mem := rfl
@[simp] theorem putEng_platform : (s.putEng e).platform = s.platform := rfl
@[simp] theorem putEng_draws : (s.putEng e).draws = s.draws := rfl
@[simp] theorem putEng_batch : (s.putEng e).batch = s.batch := rfl
@[simp] theorem putEng_pending : (s.putEng e).pending = s.pending := rfl
@[simp] theorem eng_putEng : (s.putEng e).eng = e := engines_get_set _ _ _
@[simp] theorem putEng_eng : s.putEng s.eng = s := by
  obtain ⟨es, a, m, p, d, b, q⟩ := s
  show (⟨es.set a (es.get a), a, m, p, d, b, q⟩ : State) = _
  rw [engines_set_get]
@[simp] theorem putEng_putEng (e' : Engine) : (s.putEng e).putEng e' = s.putEng e' := by
  obtain ⟨es, a, m, p, d, b, q⟩ := s
  show (⟨(es.set a e).set a e', a, m, p, d, b, q⟩ : State) = ⟨es.set a e', a, m, p, d, b, q⟩
  rw [engines_set_set]
@[simp] theorem engine_putEng_ne {v : Variant} (h : v ≠ s.active) : (s.putEng e).engine v = s.engine v :=
  engines_get_set_ne _ _ h
end putEng

theorem engine_putEng_ite (s : State) (v : Variant) (e : Engine) :
    (s.putEng e).engine v = if v = s.active then e else s.engine v :=
  engine_setEngine_ite s s.active v e

@[simp] theorem eng_mem (s : State) (m : List Host.Cell) : ({ s with mem := m } : State).eng = s.eng := rfl
@[simp] theorem eng_active (s : State) (v : Variant) : ({ s with active := v } : State).eng = s.engine v := rfl
@[simp] theorem eng_pending (s : State) (p : List HostEvent) : ({ s with pending := p } : State).eng = s.eng := rfl
@[simp] theorem eng_platform (s : State) (p : Platform) : ({ s with platform := p } : State).eng = s.eng := rfl

/-! ### `Engine.advance` -/

section advance
variable (e : Engine)
@[simp] theorem advance_upc : e.advance.upc = e.upc + 1 := rfl
@[simp] theorem advance_cur : e.advance.cur = e.cur := rfl
@[simp] theorem advance_lanes : e.advance.lanes = e.lanes := rfl
@[simp] theorem advance_variant : e.advance.variant = e.variant := rfl
@[simp] theorem advance_cfgSize : e.advance.cfgSize = e.cfgSize := rfl
@[simp] theorem advance_cfgStride : e.advance.cfgStride = e.cfgStride := rfl
@[simp] theorem advance_cfgC : e.advance.cfgC = e.cfgC := rfl
@[simp] theorem advance_cfgD : e.advance.cfgD = e.cfgD := rfl
@[simp] theorem advance_cfgFlags : e.advance.cfgFlags = e.cfgFlags := rfl
@[simp] theorem advance_cfgWidth : e.advance.cfgWidth = e.cfgWidth := rfl
@[simp] theorem advance_key0 : e.advance.key0 = e.key0 := rfl
@[simp] theorem advance_key1 : e.advance.key1 = e.key1 := rfl
@[simp] theorem advance_iv : e.advance.iv = e.iv := rfl
@[simp] theorem advance_norm : e.advance.norm = e.norm := rfl
@[simp] theorem advance_prog : e.advance.prog = e.prog := rfl
@[simp] theorem advance_inPtr : e.advance.inPtr = e.inPtr := rfl
@[simp] theorem advance_outPtr : e.advance.outPtr = e.outPtr := rfl
@[simp] theorem advance_arg : e.advance.arg = e.arg := rfl
@[simp] theorem advance_res : e.advance.res = e.res := rfl
@[simp] theorem advance_status : e.advance.status = e.status := rfl
@[simp] theorem advance_cause : e.advance.cause = e.cause := rfl
@[simp] theorem advance_raised : e.advance.raised = e.raised := rfl
end advance

/-! ### `Engine.mapLanes` -/

section mapLanes
variable (e : Engine) (f : Nat → Lane → Lane)
@[simp] theorem mapLanes_lanes : (e.mapLanes f).lanes = e.lanes.mapIdx f := rfl
@[simp] theorem mapLanes_upc : (e.mapLanes f).upc = e.upc := rfl
@[simp] theorem mapLanes_cur : (e.mapLanes f).cur = e.cur := rfl
@[simp] theorem mapLanes_variant : (e.mapLanes f).variant = e.variant := rfl
@[simp] theorem mapLanes_cfgSize : (e.mapLanes f).cfgSize = e.cfgSize := rfl
@[simp] theorem mapLanes_cfgStride : (e.mapLanes f).cfgStride = e.cfgStride := rfl
@[simp] theorem mapLanes_cfgC : (e.mapLanes f).cfgC = e.cfgC := rfl
@[simp] theorem mapLanes_cfgD : (e.mapLanes f).cfgD = e.cfgD := rfl
@[simp] theorem mapLanes_cfgFlags : (e.mapLanes f).cfgFlags = e.cfgFlags := rfl
@[simp] theorem mapLanes_cfgWidth : (e.mapLanes f).cfgWidth = e.cfgWidth := rfl
@[simp] theorem mapLanes_key0 : (e.mapLanes f).key0 = e.key0 := rfl
@[simp] theorem mapLanes_key1 : (e.mapLanes f).key1 = e.key1 := rfl
@[simp] theorem mapLanes_iv : (e.mapLanes f).iv = e.iv := rfl
@[simp] theorem mapLanes_norm : (e.mapLanes f).norm = e.norm := rfl
@[simp] theorem mapLanes_prog : (e.mapLanes f).prog = e.prog := rfl
@[simp] theorem mapLanes_inPtr : (e.mapLanes f).inPtr = e.inPtr := rfl
@[simp] theorem mapLanes_outPtr : (e.mapLanes f).outPtr = e.outPtr := rfl
@[simp] theorem mapLanes_arg : (e.mapLanes f).arg = e.arg := rfl
@[simp] theorem mapLanes_res : (e.mapLanes f).res = e.res := rfl
@[simp] theorem mapLanes_status : (e.mapLanes f).status = e.status := rfl
@[simp] theorem mapLanes_cause : (e.mapLanes f).cause = e.cause := rfl
@[simp] theorem mapLanes_raised : (e.mapLanes f).raised = e.raised := rfl
end mapLanes

/-! ### `Engine.raise` -/

section raise
variable (c : Cause) (e : Engine)
@[simp] theorem raise_status : (e.raise c).status = .fault := rfl
@[simp] theorem raise_res : (e.raise c).res = none := rfl
@[simp] theorem raise_cause : (e.raise c).cause = if e.cause = 0#8 then c.code else e.cause := rfl
@[simp] theorem raise_raised : (e.raise c).raised = if e.cause = 0#8 then some c else e.raised := rfl
@[simp] theorem raise_lanes : (e.raise c).lanes = e.lanes := rfl
@[simp] theorem raise_upc : (e.raise c).upc = e.upc := rfl
@[simp] theorem raise_cur : (e.raise c).cur = e.cur := rfl
@[simp] theorem raise_variant : (e.raise c).variant = e.variant := rfl
@[simp] theorem raise_cfgSize : (e.raise c).cfgSize = e.cfgSize := rfl
@[simp] theorem raise_cfgStride : (e.raise c).cfgStride = e.cfgStride := rfl
@[simp] theorem raise_cfgC : (e.raise c).cfgC = e.cfgC := rfl
@[simp] theorem raise_cfgD : (e.raise c).cfgD = e.cfgD := rfl
@[simp] theorem raise_cfgFlags : (e.raise c).cfgFlags = e.cfgFlags := rfl
@[simp] theorem raise_cfgWidth : (e.raise c).cfgWidth = e.cfgWidth := rfl
@[simp] theorem raise_key0 : (e.raise c).key0 = e.key0 := rfl
@[simp] theorem raise_key1 : (e.raise c).key1 = e.key1 := rfl
@[simp] theorem raise_iv : (e.raise c).iv = e.iv := rfl
@[simp] theorem raise_norm : (e.raise c).norm = e.norm := rfl
@[simp] theorem raise_prog : (e.raise c).prog = e.prog := rfl
@[simp] theorem raise_inPtr : (e.raise c).inPtr = e.inPtr := rfl
@[simp] theorem raise_outPtr : (e.raise c).outPtr = e.outPtr := rfl
@[simp] theorem raise_arg : (e.raise c).arg = e.arg := rfl
end raise

/-! ### `State.raise` -/

section stateRaise
variable (c : Cause) (s : State)
@[simp] theorem stateRaise_eng : (s.raise c).eng = s.eng.raise c := eng_putEng _ _
@[simp] theorem stateRaise_active : (s.raise c).active = s.active := rfl
@[simp] theorem stateRaise_mem : (s.raise c).mem = s.mem := rfl
@[simp] theorem stateRaise_platform : (s.raise c).platform = s.platform := rfl
@[simp] theorem stateRaise_draws : (s.raise c).draws = s.draws := rfl
@[simp] theorem stateRaise_batch : (s.raise c).batch = s.batch := rfl
@[simp] theorem stateRaise_pending : (s.raise c).pending = s.pending := rfl
end stateRaise

/-! ### Lane registers -/

@[simp] theorem lane_get_set (l : Lane) (r : Reg) (v : Option Word) : (l.set r v).get r = v := by
  cases r <;> rfl

@[simp] theorem lane_get_set_ne (l : Lane) {r q : Reg} (v : Option Word) (h : q ≠ r) :
    (l.set r v).get q = l.get q := by
  cases r <;> cases q <;> first | rfl | exact absurd rfl h

/-! ### RESET -/

/-- RESET leaves an engine as power-on does (R281). -/
theorem engine_reset_eq_powerOn (e : Engine) : e.reset = Engine.powerOn e.variant := rfl

end Sys2Proof.Machine
end

