-- ==== Sys2Proof/Laws/Ops.lean ====
section
/-! SUPPORT. One lemma per shared operation that says what it can do, and the one inversion lemma of `exec`: what a micro-op that
answers a next state may have changed. -/

namespace Sys2Proof.Machine

/-! ### Register operands -/

theorem unwritten_eq_false_iff (e : Engine) (r : Reg) : e.unwritten r = false ↔ ∀ x ∈ e.lanes, x.get r ≠ none := by
  simp [Engine.unwritten, List.any_eq_false, Option.isNone_iff_eq_none]

/-- No operand holds NOVALUE in any lane. -/
theorem firstUnwritten_eq_none_iff (e : Engine) (rs : List Reg) :
    e.firstUnwritten rs = none ↔ ∀ r ∈ rs, ∀ x ∈ e.lanes, x.get r ≠ none := by
  simp only [Engine.firstUnwritten, List.find?_eq_none, Bool.not_eq_true]
  exact forall₂_congr fun r _ => unwritten_eq_false_iff e r

/-- The register the info names is an operand that holds NOVALUE in some lane. -/
theorem firstUnwritten_eq_some {e : Engine} {rs : List Reg} {r : Reg} (h : e.firstUnwritten rs = some r) :
    r ∈ rs ∧ ∃ x ∈ e.lanes, x.get r = none := by
  refine ⟨List.mem_of_find?_eq_some h, ?_⟩
  have := List.find?_some h
  simpa [Engine.unwritten, List.any_eq_true, Option.isNone_iff_eq_none] using this

/-! ### The common shape of the arithmetic micro-ops (R150) -/

/-- With every operand written, the operation acts on every lane and `upc` advances. -/
theorem aluOp_written {i : Instr} {rs : List Reg} {f : Lane → Lane} {s : State}
    (h : ∀ r ∈ rs, ∀ x ∈ s.eng.lanes, x.get r ≠ none) :
    aluOp i rs f s = .next (s.putEng (s.eng.mapLanes (fun _ l => f l)).advance) := by
  rw [aluOp, (firstUnwritten_eq_none_iff _ _).2 h]

/-- With an operand that holds NOVALUE in some lane, `UE_UNWRITTEN_REG` is taken. -/
theorem aluOp_unwritten {i : Instr} {rs : List Reg} {f : Lane → Lane} {s : State} {r : Reg}
    (h : s.eng.firstUnwritten rs = some r) :
    aluOp i rs f s = .next (s.raise (.unwrittenReg (encode i) s.eng.upc r)) := by
  rw [aluOp, h]

/-- Everything `aluOp` can do. -/
theorem aluOp_next {i : Instr} {rs : List Reg} {f : Lane → Lane} {s t : State} (h : aluOp i rs f s = .next t) :
    (∃ c, t = s.raise c) ∨ t = s.putEng (s.eng.mapLanes (fun _ l => f l)).advance := by
  unfold aluOp at h
  split at h
  · injection h with h; exact .inl ⟨_, h.symm⟩
  · injection h with h; exact .inr h.symm

/-! ### Loads (R160, R166) -/

/-- A load has no stop exactly when its control registers hold values and every lane's access is admitted. -/
theorem loadStop_eq_none_iff (s : State) (n : Nat) : loadStop s n = none ↔
    s.eng.inPtr ≠ none ∧ (s.eng.norm = none → s.eng.lanes.length ≤ 1) ∧
      ∀ l < s.eng.lanes.length, admitsRead s.platform (s.eng.ea l) n = true := by
  unfold loadStop
  split
  · next h => simp [h]
  · next h1 =>
    split
    · next h2 => exact ⟨fun h => by simp at h, fun h => absurd (h.2.1 h2.1) (by omega)⟩
    · next h2 =>
      have hn : s.eng.norm = none → s.eng.lanes.length ≤ 1 := fun hn => by
        by_contra hc; exact h2 ⟨hn, by omega⟩
      split
      · next h3 =>
        simp only [List.all_eq_true, List.mem_range] at h3
        exact ⟨fun _ => ⟨h1, hn, h3⟩, fun _ => rfl⟩
      · next h3 =>
        simp only [List.all_eq_true, List.mem_range] at h3
        exact ⟨fun h => by simp at h, fun h => absurd h.2.2 h3⟩

/-- A load that is admitted. -/
theorem memLoad_admitted {n : Nat} {rd : Reg} {s : State} (h : loadStop s n = none) :
    memLoad n rd s = .next (s.putEng (s.eng.loaded s.mem n rd)) := by
  rw [memLoad, h]

/-- Everything a load from memory can do when it answers a next state. -/
theorem memLoad_next {n : Nat} {rd : Reg} {s t : State} (h : memLoad n rd s = .next t) :
    loadStop s n = none ∧ t = s.putEng (s.eng.loaded s.mem n rd) := by
  unfold memLoad at h
  split at h
  · exact absurd h (by simp)
  · next h' => injection h with h; exact ⟨h', h.symm⟩

section loaded
variable (e : Engine) (m : Memory) (n : Nat) (rd : Reg)
@[simp] theorem loaded_upc : (e.loaded m n rd).upc = e.upc + 1 := rfl
@[simp] theorem loaded_cur : (e.loaded m n rd).cur = e.cur + n := rfl
@[simp] theorem loaded_lanes : (e.loaded m n rd).lanes =
    e.lanes.mapIdx (fun l x => x.set rd (some (BitVec.ofNat 64 (memRead m (e.ea l) n)))) := rfl
@[simp] theorem loaded_variant : (e.loaded m n rd).variant = e.variant := rfl
@[simp] theorem loaded_iv : (e.loaded m n rd).iv = e.iv := rfl
@[simp] theorem loaded_norm : (e.loaded m n rd).norm = e.norm := rfl
@[simp] theorem loaded_prog : (e.loaded m n rd).prog = e.prog := rfl
@[simp] theorem loaded_status : (e.loaded m n rd).status = e.status := rfl
@[simp] theorem loaded_inPtr : (e.loaded m n rd).inPtr = e.inPtr := rfl
@[simp] theorem loaded_outPtr : (e.loaded m n rd).outPtr = e.outPtr := rfl
@[simp] theorem loaded_arg : (e.loaded m n rd).arg = e.arg := rfl
@[simp] theorem loaded_res : (e.loaded m n rd).res = e.res := rfl
end loaded

/-- Everything the load of `ARG` can do when it answers a next state. -/
theorem immLoad_next {rd : Reg} {s t : State} (h : immLoad rd s = .next t) :
    ∃ a, s.eng.arg = some a ∧
      t = s.putEng { (s.eng.mapLanes (fun _ x => x.set rd (some a))).advance with cur := 8 } := by
  unfold immLoad at h
  split at h
  · exact absurd h (by simp)
  · next a ha => injection h with h; exact ⟨a, ha, h.symm⟩

/-- The load of `ARG` when `ARG` holds a value. -/
theorem immLoad_arg {rd : Reg} {s : State} {a : Word} (h : s.eng.arg = some a) :
    immLoad rd s = .next (s.putEng { (s.eng.mapLanes (fun _ x => x.set rd (some a))).advance with cur := 8 }) := by
  rw [immLoad, h]

/-! ### Delivery (R172) -/

/-- Everything a delivery to slots can do when it answers a next state. -/
theorem deliverSlots_next {rs : Reg} {std : Bool} {s t : State} (h : deliverSlots rs std s = .next t) :
    ∃ p, s.eng.outPtr = some p ∧
      admitsWrite s.platform p.toNat (Config.slotBytes * s.eng.lanes.length) = true ∧
      t = { s.putEng { s.eng with status := .ready } with
        mem := storeSlots s.mem p.toNat (s.eng.outs std rs) } := by
  unfold deliverSlots at h
  split at h
  · exact absurd h (by simp)
  · next p hp =>
    split at h
    · next ha => injection h with h; exact ⟨p, hp, ha, h.symm⟩
    · exact absurd h (by simp)

/-- A delivery to slots that is admitted. -/
theorem deliverSlots_admitted {rs : Reg} {std : Bool} {s : State} {p : Word} (hp : s.eng.outPtr = some p)
    (ha : admitsWrite s.platform p.toNat (Config.slotBytes * s.eng.lanes.length) = true) :
    deliverSlots rs std s = .next { s.putEng { s.eng with status := .ready } with
        mem := storeSlots s.mem p.toNat (s.eng.outs std rs) } := by
  rw [deliverSlots, hp]; exact if_pos ha

/-- Everything FIN can do when it answers a next state. -/
theorem execFin_next {rs : Reg} {std : Bool} {s t : State} (h : execFin rs std s = .next t) :
    (∃ c, t = s.raise c) ∨
    (s.eng.variant.multiLane = true ∧ std = false ∧ s.eng.firstUnwritten [rs] = none ∧ deliverSlots rs std s = .next t) ∨
    (s.eng.variant.multiLane = false ∧ s.eng.firstUnwritten [rs] = none ∧ deliverRes rs std s = .next t) := by
  unfold execFin at h
  split at h
  · injection h with h; exact .inl ⟨_, h.symm⟩
  · next hm =>
    split at h
    · injection h with h; exact .inl ⟨_, h.symm⟩
    · next hu =>
      split at h
      · next hv => exact .inr (.inl ⟨hv, by simpa [hv] using hm, hu, h⟩)
      · next hv => exact .inr (.inr ⟨by simpa using hv, hu, h⟩)

/-! ### What a micro-op may change -/

/-- What a micro-op that answers a next state may have made of the active engine `e` and of memory `m`, coarsely: every
configuration, identity and call register is kept, and one of three things happened. -/
structure ExecEffect (e e' : Engine) (m m' : Memory) : Prop where
  variant : e'.variant = e.variant
  lanes : e'.lanes.length = e.lanes.length
  cfgSize : e'.cfgSize = e.cfgSize
  cfgStride : e'.cfgStride = e.cfgStride
  cfgC : e'.cfgC = e.cfgC
  cfgD : e'.cfgD = e.cfgD
  cfgFlags : e'.cfgFlags = e.cfgFlags
  cfgWidth : e'.cfgWidth = e.cfgWidth
  key0 : e'.key0 = e.key0
  key1 : e'.key1 = e.key1
  iv : e'.iv = e.iv
  norm : e'.norm = e.norm
  prog : e'.prog = e.prog
  inPtr : e'.inPtr = e.inPtr
  outPtr : e'.outPtr = e.outPtr
  arg : e'.arg = e.arg
  /-- A fault, or an ordinary micro-op, or the delivery of FIN. -/
  outcome : (∃ c, e' = e.raise c ∧ m' = m) ∨
    (e'.status = e.status ∧ e'.upc = e.upc + 1 ∧ e'.cause = e.cause ∧ e'.raised = e.raised ∧ e'.res = e.res ∧ m' = m) ∨
    (e'.status = .ready ∧ e'.upc = e.upc ∧ e'.cur = e.cur ∧ e'.lanes = e.lanes ∧ e'.cause = e.cause ∧
      e'.raised = e.raised ∧ ∃ a ws, m' = storeSlots m a ws)

/-- The effect of a fault. -/
theorem execEffect_raise (c : Cause) (e : Engine) (m : Memory) : ExecEffect e (e.raise c) m m :=
  ⟨rfl, rfl, rfl, rfl, rfl, rfl, rfl, rfl, rfl, rfl, rfl, rfl, rfl, rfl, rfl, rfl, .inl ⟨c, rfl, rfl⟩⟩

/-- The effect of an operation on the lanes. -/
theorem execEffect_mapLanes (f : Nat → Lane → Lane) (e : Engine) (m : Memory) :
    ExecEffect e (e.mapLanes f).advance m m := by
  refine ⟨rfl, ?_, rfl, rfl, rfl, rfl, rfl, rfl, rfl, rfl, rfl, rfl, rfl, rfl, rfl, rfl, .inr (.inl ⟨rfl, rfl, rfl, rfl, rfl, rfl⟩)⟩
  simp

theorem execEffect_loaded (n : Nat) (rd : Reg) (e : Engine) (m : Memory) : ExecEffect e (e.loaded m n rd) m m := by
  refine ⟨rfl, ?_, rfl, rfl, rfl, rfl, rfl, rfl, rfl, rfl, rfl, rfl, rfl, rfl, rfl, rfl, .inr (.inl ⟨rfl, rfl, rfl, rfl, rfl, rfl⟩)⟩
  simp

/-- `t` is `s` with the active engine and memory changed as a micro-op may. -/
def MicroOpTo (s t : State) : Prop :=
  ∃ e' m', t = { s.putEng e' with mem := m' } ∧ ExecEffect s.eng e' s.mem m'

theorem microOpTo_putEng {s : State} {e' : Engine} (h : ExecEffect s.eng e' s.mem s.mem) : MicroOpTo s (s.putEng e') :=
  ⟨e', s.mem, rfl, h⟩

theorem microOpTo_raise (s : State) (c : Cause) : MicroOpTo s (s.raise c) :=
  microOpTo_putEng (execEffect_raise c s.eng s.mem)

theorem microOpTo_aluOp {i : Instr} {rs : List Reg} {f : Lane → Lane} {s t : State} (h : aluOp i rs f s = .next t) :
    MicroOpTo s t := by
  obtain ⟨c, rfl⟩ | rfl := aluOp_next h
  · exact microOpTo_raise s c
  · exact microOpTo_putEng (execEffect_mapLanes _ _ _)

theorem microOpTo_memLoad {n : Nat} {rd : Reg} {s t : State} (h : memLoad n rd s = .next t) : MicroOpTo s t := by
  obtain ⟨-, rfl⟩ := memLoad_next h
  exact microOpTo_putEng (execEffect_loaded n rd _ _)

theorem microOpTo_immLoad {rd : Reg} {s t : State} (h : immLoad rd s = .next t) : MicroOpTo s t := by
  obtain ⟨a, -, rfl⟩ := immLoad_next h
  refine microOpTo_putEng ⟨rfl, ?_, rfl, rfl, rfl, rfl, rfl, rfl, rfl, rfl, rfl, rfl, rfl, rfl, rfl, rfl, .inr (.inl ⟨rfl, rfl, rfl, rfl, rfl, rfl⟩)⟩
  simp

theorem microOpTo_loadUnsupported {i : Instr} {s t : State} (h : loadUnsupported i s = .next t) : MicroOpTo s t := by
  unfold loadUnsupported at h
  injection h with h
  subst h
  exact microOpTo_raise s _

/-- A load that is unsupported on SCALAR_IMM and reads memory elsewhere. -/
theorem microOpTo_load {p : Prop} [Decidable p] {i : Instr} {n : Nat} {rd : Reg} {s t : State}
    (h : (if p then loadUnsupported i s else memLoad n rd s) = .next t) : MicroOpTo s t := by
  split at h
  · exact microOpTo_loadUnsupported h
  · exact microOpTo_memLoad h

theorem microOpTo_fin {rs : Reg} {std : Bool} {s t : State} (h : execFin rs std s = .next t) : MicroOpTo s t := by
  obtain ⟨c, rfl⟩ | ⟨-, -, -, h⟩ | ⟨-, -, h⟩ := execFin_next h
  · exact microOpTo_raise s c
  · obtain ⟨p, -, -, rfl⟩ := deliverSlots_next h
    exact ⟨_, _, rfl, rfl, rfl, rfl, rfl, rfl, rfl, rfl, rfl, rfl, rfl, rfl, rfl, rfl, rfl, rfl, rfl,
      .inr (.inr ⟨rfl, rfl, rfl, rfl, rfl, rfl, _, _, rfl⟩)⟩
  · unfold deliverRes at h
    injection h with h
    subst h
    exact ⟨_, s.mem, rfl, rfl, rfl, rfl, rfl, rfl, rfl, rfl, rfl, rfl, rfl, rfl, rfl, rfl, rfl, rfl, rfl,
      .inr (.inr ⟨rfl, rfl, rfl, rfl, rfl, rfl, 0, [], rfl⟩)⟩

/-- The inversion lemma of `exec`: a micro-op that answers a next state changes the active engine and memory, as `ExecEffect`
says, and nothing else. -/
theorem exec_next {i : Instr} {s t : State} (h : exec i s = .next t) : MicroOpTo s t := by
  cases i with
  | init => injection h with h; subst h; exact microOpTo_putEng (execEffect_mapLanes _ _ _)
  | add rd rs => exact microOpTo_aluOp h
  | xor rd rs => exact microOpTo_aluOp h
  | or rd rs => exact microOpTo_aluOp h
  | shl rd n => exact microOpTo_aluOp h
  | rotl rd n => exact microOpTo_aluOp h
  | ldi rd b => injection h with h; subst h; exact microOpTo_putEng (execEffect_mapLanes _ _ _)
  | ld8 rd => exact microOpTo_load h
  | ld16 rd => exact microOpTo_load h
  | ld32 rd => exact microOpTo_load h
  | ld64 rd =>
    simp only [exec, execLd64] at h
    split at h
    · split at h
      · exact microOpTo_immLoad h
      · exact microOpTo_loadUnsupported h
    · exact microOpTo_memLoad h
  | fin rs std => exact microOpTo_fin h

/-- No micro-op is refused. -/
theorem exec_ne_refused (i : Instr) (s : State) (r : Refusal) : exec i s ≠ .refused r := by
  cases i <;>
    simp only [exec, execInit, execAdd, execXor, execOr, execShl, execRotl, execLdi, execLd8, execLd16, execLd32, execLd64,
      execFin, aluOp, loadUnsupported, memLoad, immLoad, deliverRes, deliverSlots] <;>
    (repeat' split) <;> simp

/-- The inversion lemma of a fetch: a fault of R265, or the decoded micro-op. -/
theorem fetchExec_next {s t : State} (h : fetchExec s = .next t) :
    (s.eng.prog[s.eng.upc]? = none ∧ t = s.raise (.noFin s.eng.upc)) ∨
    (∃ w r, s.eng.prog[s.eng.upc]? = some w ∧ decode w = .error r ∧ t = s.raise (.illegalOp w s.eng.upc)) ∨
    (∃ w i, s.eng.prog[s.eng.upc]? = some w ∧ decode w = .ok i ∧ exec i s = .next t) := by
  unfold fetchExec at h
  split at h
  · next hw => injection h with h; exact .inl ⟨hw, h.symm⟩
  · next w hw =>
    split at h
    · next r hr => injection h with h; exact .inr (.inl ⟨w, r, hw, hr, h.symm⟩)
    · next i hi => exact .inr (.inr ⟨w, i, hw, hi, h⟩)

/-- The inversion lemma of an engine's step: idle, or a micro-op of a BUSY engine; one that leaves it BUSY was fetched from within
the program. -/
theorem engineStep_next {s t : State} (h : engineStep s = .next t) :
    (s.eng.status ≠ .busy ∧ t = s) ∨
    (s.eng.status = .busy ∧ MicroOpTo s t ∧ (t.eng.status = .busy → s.eng.upc < s.eng.prog.length)) := by
  unfold engineStep at h
  split at h
  · next hb =>
    refine .inr ⟨hb, ?_⟩
    obtain ⟨-, rfl⟩ | ⟨_, _, -, -, rfl⟩ | ⟨w, _, hw, -, h⟩ := fetchExec_next h
    · exact ⟨microOpTo_raise s _, fun hf => by simp at hf⟩
    · exact ⟨microOpTo_raise s _, fun hf => by simp at hf⟩
    · exact ⟨exec_next h, fun _ => (List.getElem?_eq_some_iff.mp hw).1⟩
  · next hb => injection h with h; exact .inl ⟨hb, h.symm⟩

end Sys2Proof.Machine
end

