-- ==== Sys2Proof/Laws/PerInstr.lean ====
section
/-! SUPPORT. Statements made of every instruction as syntax, one lemma per constructor. RowFits: the word of a well-formed
instruction matches its own row of the opcode map (30_encoding R99, R102). -/

namespace Sys2Proof.Laws.RowFits

/-- The word of `i` has the fixed bits of the row of `i`'s mnemonic (R99). -/
def Statement (i : Instr) : Prop :=
  i.wellFormed = true → ∃ r ∈ opcodeTable, r.mnemonic = i.mnemonic ∧ encode i &&& r.mask = r.code

/-- The row of the opcode map whose mnemonic is `op`, by its index. -/
theorem row_at (k : Nat) {i : Instr} {r : OpcodeRow} (hk : opcodeTable[k]? = some r) (hm : r.mnemonic = i.mnemonic)
    (hw : i.wellFormed = true → encode i &&& r.mask = r.code) : Statement i :=
  fun h => ⟨r, List.mem_of_getElem? hk, hm, hw h⟩

theorem init : Statement .init := row_at 0 rfl rfl (fun _ => rfl)

theorem add (rd rs : Reg) : Statement (.add rd rs) :=
  row_at 1 rfl rfl (fun _ => by cases rd <;> cases rs <;> rfl)

theorem xor (rd rs : Reg) : Statement (.xor rd rs) :=
  row_at 2 rfl rfl (fun _ => by cases rd <;> cases rs <;> rfl)

theorem or (rd rs : Reg) : Statement (.or rd rs) :=
  row_at 3 rfl rfl (fun _ => by cases rd <;> cases rs <;> rfl)

theorem shl (rd : Reg) (n : Nat) : Statement (.shl rd n) :=
  row_at 4 rfl rfl (fun h => by
    have hn : n < 64 := Nat.lt_succ_of_le (of_decide_eq_true h)
    have key : ∀ k : Fin 64, encode (.shl rd k) &&& 0xF1C0#16 = 0x5000#16 := by cases rd <;> decide
    exact key ⟨n, hn⟩)

theorem rotl (rd : Reg) (n : Nat) : Statement (.rotl rd n) :=
  row_at 5 rfl rfl (fun h => by
    have hn : n < 64 := Nat.lt_succ_of_le (of_decide_eq_true h)
    have key : ∀ k : Fin 64, encode (.rotl rd k) &&& 0xF1C0#16 = 0x6000#16 := by cases rd <;> decide
    exact key ⟨n, hn⟩)

theorem ldi (rd : Reg) (b : Nat) : Statement (.ldi rd b) :=
  row_at 6 rfl rfl (fun h => by
    have hb : b < 256 := Nat.lt_succ_of_le (of_decide_eq_true h)
    have key : ∀ k : Fin 256, encode (.ldi rd k) &&& 0xF100#16 = 0x7000#16 := by cases rd <;> decide +kernel
    exact key ⟨b, hb⟩)

theorem ld8 (rd : Reg) : Statement (.ld8 rd) := row_at 7 rfl rfl (fun _ => by cases rd <;> rfl)

theorem ld16 (rd : Reg) : Statement (.ld16 rd) := row_at 8 rfl rfl (fun _ => by cases rd <;> rfl)

theorem ld32 (rd : Reg) : Statement (.ld32 rd) := row_at 9 rfl rfl (fun _ => by cases rd <;> rfl)

theorem ld64 (rd : Reg) : Statement (.ld64 rd) := row_at 10 rfl rfl (fun _ => by cases rd <;> rfl)

theorem fin (rs : Reg) (standard : Bool) : Statement (.fin rs standard) :=
  row_at 11 rfl rfl (fun _ => by cases rs <;> cases standard <;> rfl)

end Sys2Proof.Laws.RowFits
end

