-- ==== Sys2Proof/Laws/Step.lean ====
section
/-! SUPPORT. What a step can do, said once: the inversion lemma of `step`, of a command, of batch set-up, and what a micro-op leaves
of every engine. -/

namespace Sys2Proof.Machine

/-! ### What a micro-op leaves of every engine -/

/-- A micro-op changes the active engine and memory only. -/
theorem microOpTo_engine {s t : State} (h : MicroOpTo s t) :
    t.active = s.active ∧ t.platform = s.platform ∧ t.draws = s.draws ∧ t.batch = s.batch ∧ t.pending = s.pending ∧
    ExecEffect s.eng t.eng s.mem t.mem ∧ ∀ v, v ≠ s.active → t.engine v = s.engine v := by
  obtain ⟨e', m', rfl, he⟩ := h
  have h1 : ({ s.putEng e' with mem := m' } : State).eng = e' := eng_putEng s e'
  exact ⟨rfl, rfl, rfl, rfl, rfl, h1.symm ▸ he, fun v hv => engine_putEng_ne s e' hv⟩

/-- A micro-op keeps memory in canonical form. -/
theorem microOpTo_wf {s t : State} (h : MicroOpTo s t) (hw : Memory.wf s.mem = true) : Memory.wf t.mem = true := by
  obtain ⟨_, _, rfl, he⟩ := h
  obtain ⟨_, -, hm⟩ | ⟨-, -, -, -, -, hm⟩ | ⟨-, -, -, -, -, -, a, ws, hm⟩ := he.outcome
  · exact hm ▸ hw
  · exact hm ▸ hw
  · exact hm ▸ MemoryLaws.wf_storeSlots ws a hw

/-! ### Host events -/

/-- The effect of one host event that is not a micro-op. -/
inductive HostEffect (s : State) : HostEvent → State → Prop
  | issue (v : Variant) (c : Command) : HostEffect s (.issue v c) (issue s v c)
  | poke (a : Word) (b : Byte) : HostEffect s (.poke a b) { s with mem := Memory.write s.mem a.toNat b }
  | declare (rs : List Region) : HostEffect s (.declare rs) { s with platform := { s.platform with regions := rs } }
  | batchSetup : HostEffect s .batchSetup (batchSetup s)
  | batch (p o : Word) : HostEffect s (.batch p o) (startBatch s p o)
  | storeNothing (slot : Nat) : (s.engine .scalar).validRes = none → HostEffect s (.storeRes slot) s
  | storeRes (slot : Nat) (r : OutWord) : (s.engine .scalar).validRes = some r →
      admitsWrite s.platform slot Config.slotBytes = true →
      HostEffect s (.storeRes slot) { s with mem := storeSlots s.mem slot [r] }

theorem storeRes_next {slot : Nat} {s t : State} (h : storeRes slot s = .next t) : HostEffect s (.storeRes slot) t := by
  unfold storeRes at h
  split at h
  · next hr => injection h with h; subst h; exact .storeNothing slot hr
  · next r hr =>
    split at h
    · next ha => injection h with h; subst h; exact .storeRes slot r hr ha
    · exact absurd h (by simp)

/-- The inversion lemma of `step`: one micro-op of a BUSY engine, or nothing but the choice of the engine and the end of the event,
or the effect of the oldest host event. -/
theorem step_next {s t : State} (h : step s = .next t) :
    (∃ v p, (s.engine v).status = .busy ∧ MicroOpTo { s with active := v, pending := p } t ∧
      (t.eng.status = .busy → (s.engine v).upc < (s.engine v).prog.length)) ∨
    (∃ v p, t = { s with active := v, pending := p }) ∨
    (∃ ev rest, s.pending = ev :: rest ∧ HostEffect { s with pending := rest } ev t) := by
  unfold step at h
  split at h
  · next hp =>
    have key : ∃ v, schedule s = { s with active := v, pending := s.pending } := by
      unfold schedule
      split
      · exact ⟨s.active, rfl⟩
      · split
        · exact ⟨_, rfl⟩
        · exact ⟨s.active, rfl⟩
    obtain ⟨v, hv⟩ := key
    rw [hv] at h
    obtain ⟨-, rfl⟩ | ⟨hb, hm, hu⟩ := engineStep_next h
    · exact .inr (.inl ⟨v, s.pending, rfl⟩)
    · exact .inl ⟨v, s.pending, hb, hm, hu⟩
  · next ev rest hp =>
    cases ev with
    | issue v c => injection h with h; subst h; exact .inr (.inr ⟨_, _, hp, .issue v c⟩)
    | tick v =>
      obtain ⟨-, rfl⟩ | ⟨hb, hm, hu⟩ := engineStep_next h
      · exact .inr (.inl ⟨v, rest, rfl⟩)
      · exact .inl ⟨v, rest, hb, hm, hu⟩
    | await v =>
      simp only [hostStep, awaitEngine] at h
      split at h
      · obtain ⟨-, rfl⟩ | ⟨hb, hm, hu⟩ := engineStep_next h
        · exact .inr (.inl ⟨v, .await v :: rest, rfl⟩)
        · exact .inl ⟨v, .await v :: rest, hb, hm, hu⟩
      · injection h with h; subst h; exact .inr (.inl ⟨s.active, rest, rfl⟩)
    | poke a b => injection h with h; subst h; exact .inr (.inr ⟨_, _, hp, .poke a b⟩)
    | declare rs => injection h with h; subst h; exact .inr (.inr ⟨_, _, hp, .declare rs⟩)
    | batchSetup => injection h with h; subst h; exact .inr (.inr ⟨_, _, hp, .batchSetup⟩)
    | batch p o => injection h with h; subst h; exact .inr (.inr ⟨_, _, hp, .batch p o⟩)
    | storeRes slot => exact .inr (.inr ⟨_, _, hp, storeRes_next h⟩)
    | callBeyond => exact absurd h (by simp [hostStep])

/-! ### The end of a batch set-up -/

section endSetup
variable (s : State) (v : Variant)
@[simp] theorem endSetup_engine (u : Variant) : (s.endSetup v).engine u = s.engine u := rfl
@[simp] theorem endSetup_active : (s.endSetup v).active = s.active := rfl
@[simp] theorem endSetup_mem : (s.endSetup v).mem = s.mem := rfl
@[simp] theorem endSetup_platform : (s.endSetup v).platform = s.platform := rfl
@[simp] theorem endSetup_draws : (s.endSetup v).draws = s.draws := rfl
@[simp] theorem endSetup_pending : (s.endSetup v).pending = s.pending := rfl
@[simp] theorem endSetup_batch : (s.endSetup v).batch = if v ∈ composerEngines s.platform then none else s.batch := rfl
end endSetup

/-! ### Commands -/

/-- Two ranges that share an address overlap. -/
theorem overlaps_of_mem {x y : Span} {a : Nat} (hx : x.lo ≤ a ∧ a < x.hi) (hy : y.lo ≤ a ∧ a < y.hi) : x.overlaps y = true := by
  simp only [Span.overlaps, decide_eq_true_eq]
  omega

/-- A launch is allowed exactly when it breaks none of R73, R74, R77. -/
theorem launchAllowed_iff (s : State) (ps : List Nat) (i o : Span) : launchAllowed s ps i o = true ↔
    (∀ p ∈ ps, deviceAt s.platform.regions p = false) ∧ i.overlaps o = false ∧ touchesDevice s.platform.regions i = false ∧
      touchesDevice s.platform.regions o = false ∧ disjointFromBusy s i o = true := by
  simp [launchAllowed, and_assoc]

/-- What an accepted command may have made of its engine `e`. -/
inductive CommandEffect (s : State) (v : Variant) (e : Engine) : Engine → Prop
  | reset : CommandEffect s v e e.reset
  | fails (c : Cause) : e.status.quiescent = true → e.configCheck = .error c → CommandEffect s v e (e.raise c)
  | configured (n : Norm) (key : List Byte) : e.status.quiescent = true → e.configCheck = .ok n →
      CommandEffect s v e (e.configured s.platform.initConst n key)
  | call (p : Word) : e.status = .ready → (v = .scalar ∨ v = .ref) → CommandEffect s v e { e.startCall with inPtr := some p, res := none }
  | callOut (p o : Word) : e.status = .ready → v.multiLane = true →
      CommandEffect s v e { e.startCall with inPtr := some p, outPtr := some o }
  | callImm (a : Word) : e.status = .ready → v = .scalarImm → CommandEffect s v e { e.startCall with arg := some a, res := none }
  | write (e' : Engine) : e.status.quiescent = true →
      (∃ sz st c d f w k0 k1, e' = { e with
        cfgSize := sz, cfgStride := st, cfgC := c, cfgD := d, cfgFlags := f, cfgWidth := w, key0 := k0, key1 := k1 } ∧
        (f = e.cfgFlags ∨ ∃ x, f = flagsWritten x)) →
      CommandEffect s v e e'

/-- Everything an issued command can do: nothing, or the effect on its engine, with the draws, the active engine and the batch set-up
in force. -/
theorem issue_cases (s : State) (v : Variant) (c : Command) :
    issue s v c = s ∨
    ∃ e' a d b, CommandEffect s v (s.engine v) e' ∧
      issue s v c = { s.setEngine v e' with active := a, draws := d, batch := b } := by
  unfold issue
  split
  · next ha =>
    refine .inr ?_
    cases c with
    | reset => exact ⟨_, s.active, s.draws, _, .reset, rfl⟩
    | configure =>
      simp only [accepts, Bool.and_eq_true] at ha
      simp only [perform, configure]
      split
      · next c hc => exact ⟨_, s.active, s.draws, _, .fails c ha.2 hc, rfl⟩
      · next n hn =>
        split
        · next key _ => exact ⟨_, s.active, s.draws, _, .configured n key ha.2 hn, rfl⟩
        · exact ⟨_, s.active, s.draws + 1, _, .configured n _ ha.2 hn, rfl⟩
    | call p =>
      simp only [accepts, Bool.and_eq_true, acceptsCall] at ha
      obtain ⟨-, ha⟩ := ha
      split at ha
      · exact absurd ha (by simp)
      · simp only [Bool.and_eq_true, Bool.or_eq_true, decide_eq_true_eq] at ha
        exact ⟨_, v, s.draws, _, .call p ha.1.2 ha.1.1, rfl⟩
    | callOut p o =>
      simp only [accepts, Bool.and_eq_true, acceptsCallOut] at ha
      obtain ⟨-, ha⟩ := ha
      split at ha
      · exact absurd ha (by simp)
      · simp only [Bool.and_eq_true, decide_eq_true_eq] at ha
        exact ⟨_, v, s.draws, _, .callOut p o ha.1.2 ha.1.1, rfl⟩
    | callImm a =>
      simp only [accepts, Bool.and_eq_true, decide_eq_true_eq] at ha
      exact ⟨_, v, s.draws, _, .callImm a ha.2 ha.1, rfl⟩
    | writeSize x =>
      simp only [accepts, Bool.and_eq_true] at ha
      exact ⟨_, s.active, s.draws, _, .write _ ha.2 ⟨_, _, _, _, _, _, _, _, rfl, .inl rfl⟩, rfl⟩
    | writeStride x =>
      simp only [accepts, Bool.and_eq_true] at ha
      exact ⟨_, s.active, s.draws, _, .write _ ha.2 ⟨_, _, _, _, _, _, _, _, rfl, .inl rfl⟩, rfl⟩
    | writeC x =>
      simp only [accepts, Bool.and_eq_true] at ha
      exact ⟨_, s.active, s.draws, _, .write _ ha.2 ⟨_, _, _, _, _, _, _, _, rfl, .inl rfl⟩, rfl⟩
    | writeD x =>
      simp only [accepts, Bool.and_eq_true] at ha
      exact ⟨_, s.active, s.draws, _, .write _ ha.2 ⟨_, _, _, _, _, _, _, _, rfl, .inl rfl⟩, rfl⟩
    | writeFlags x =>
      simp only [accepts, Bool.and_eq_true] at ha
      exact ⟨_, s.active, s.draws, _, .write _ ha.2 ⟨_, _, _, _, _, _, _, _, rfl, .inr ⟨x, rfl⟩⟩, rfl⟩
    | writeWidth x =>
      simp only [accepts, Bool.and_eq_true] at ha
      exact ⟨_, s.active, s.draws, _, .write _ ha.2 ⟨_, _, _, _, _, _, _, _, rfl, .inl rfl⟩, rfl⟩
    | writeKey0 x =>
      simp only [accepts, Bool.and_eq_true] at ha
      exact ⟨_, s.active, s.draws, _, .write _ ha.2 ⟨_, _, _, _, _, _, _, _, rfl, .inl rfl⟩, rfl⟩
    | writeKey1 x =>
      simp only [accepts, Bool.and_eq_true] at ha
      exact ⟨_, s.active, s.draws, _, .write _ ha.2 ⟨_, _, _, _, _, _, _, _, rfl, .inl rfl⟩, rfl⟩
  · exact .inl rfl

/-! ### Batch set-up and launch -/

/-- What `configureAll` leaves besides the engines. -/
theorem configureAll_frame (src : Engine) (n : Norm) (key : List Byte) : ∀ (vs : List Variant) (s : State),
    (configureAll src n key vs s).mem = s.mem ∧ (configureAll src n key vs s).platform = s.platform ∧
    (configureAll src n key vs s).active = s.active ∧ (configureAll src n key vs s).draws = s.draws ∧
    (configureAll src n key vs s).batch = s.batch ∧ (configureAll src n key vs s).pending = s.pending
  | [], _ => ⟨rfl, rfl, rfl, rfl, rfl, rfl⟩
  | _ :: vs, _ => configureAll_frame src n key vs _

/-- The engines after `configureAll` on variants without repeats. -/
theorem configureAll_engine (src : Engine) (n : Norm) (key : List Byte) (u : Variant) : ∀ (vs : List Variant) (s : State), vs.Nodup →
    (configureAll src n key vs s).engine u =
      if u ∈ vs then ((s.engine u).copyConfig src).configured s.platform.initConst n key else s.engine u
  | [], s, _ => by simp [configureAll]
  | v :: vs, s, h => by
    obtain ⟨hv, hn⟩ := List.nodup_cons.mp h
    rw [configureAll, configureAll_engine src n key u vs _ hn]
    by_cases hu : u = v
    · subst hu; simp [hv]
    · simp [hu]

theorem composerEngines_nodup (p : Platform) : (composerEngines p).Nodup := by
  unfold composerEngines
  cases p.hasDual <;> cases p.hasQuad <;> decide

/-- Everything batch set-up can do. -/
theorem batchSetup_cases (s : State) :
    batchSetup s = s ∨
    (∃ c, (s.engine .scalar).batchCheck = .error c ∧ (s.engine .scalar).status.quiescent = true ∧
      batchSetup s = { s.setEngine .scalar ((s.engine .scalar).raise c) with batch := none }) ∨
    (∃ n key d, (∀ v ∈ composerEngines s.platform, (s.engine v).status.quiescent = true) ∧
      (s.engine .scalar).batchCheck = .ok n ∧ batchSetup s = { configureBatch s n key with draws := d }) := by
  unfold batchSetup
  split
  · next hq =>
    simp only [List.all_eq_true] at hq
    split
    · next c hc => exact .inr (.inl ⟨c, hc, hq _ (by simp [composerEngines]), rfl⟩)
    · next n hn =>
      split
      · next key _ => exact .inr (.inr ⟨n, key, (configureBatch s n key).draws, hq, hn, rfl⟩)
      · exact .inr (.inr ⟨n, _, _, hq, hn, rfl⟩)
  · exact .inl rfl

/-- An engine call whose pointers are addresses is issued, waited for, and on SCALAR stored. -/
theorem callEvents_addressed {c : EngineCall} (h : c.addressed = true) : callEvents c =
    if c.variant.multiLane then
      [.issue c.variant (.callOut (BitVec.ofNat 64 c.input) (BitVec.ofNat 64 c.output)), .await c.variant]
    else [.issue c.variant (.call (BitVec.ofNat 64 c.input)), .await c.variant, .storeRes c.output] := by
  simp [callEvents, h]

/-- An engine call with a pointer that is no address is where a batch gets stuck. -/
theorem callEvents_beyond {c : EngineCall} (h : c.addressed = false) : callEvents c = [.callBeyond] := by
  simp [callEvents, h]

/-- A launch changes the host's queue only. -/
theorem launchBatch_cases (s : State) (b : BatchConfig) (p o : Word) : ∃ q, launchBatch s b p o = { s with pending := q } := by
  unfold launchBatch
  split
  · exact ⟨_, rfl⟩
  · exact ⟨s.pending, rfl⟩

/-- The batch of a READY SCALAR engine configured by itself. -/
theorem ownBatch_eq_some {e : Engine} {r : Except Cause BatchConfig} (h : e.ownBatch = some r) :
    ∃ n iv, e.norm = some n ∧ e.iv = some iv ∧ e.status = .ready ∧
      ((e.cfgWidth = 0#16 ∧ r = .error .widthZero) ∨ (e.cfgWidth ≠ 0#16 ∧ n.standard = true ∧ r = .error .standardBatch) ∨
        (e.cfgWidth ≠ 0#16 ∧ n.standard ≠ true ∧ r = .ok { width := e.cfgWidth, norm := n, iv := iv })) := by
  unfold Engine.ownBatch at h
  split at h
  · next n iv hn hiv =>
    refine ⟨n, iv, hn, hiv, ?_⟩
    split at h
    · exact absurd h (by simp)
    · next hs =>
      refine ⟨by simpa using hs, ?_⟩
      split at h
      · next hw => exact .inl ⟨hw, (Option.some.inj h).symm⟩
      · next hw =>
        split at h
        · next hst => exact .inr (.inl ⟨hw, hst, (Option.some.inj h).symm⟩)
        · next hst => exact .inr (.inr ⟨hw, hst, (Option.some.inj h).symm⟩)
  · exact absurd h (by simp)

/-- A BATCH changes the host's queue only, or is a set-up error of a READY SCALAR engine. -/
theorem startBatch_cases (s : State) (p o : Word) :
    (∃ q, startBatch s p o = { s with pending := q }) ∨
    ∃ c, (s.engine .scalar).ownBatch = some (.error c) ∧ s.batch = none ∧
      startBatch s p o = s.setEngine .scalar ((s.engine .scalar).raise c) := by
  unfold startBatch
  split
  · exact .inl (launchBatch_cases s _ p o)
  · next hb =>
    split
    · exact .inl ⟨s.pending, rfl⟩
    · next c hc => exact .inr ⟨c, hc, hb, rfl⟩
    · exact .inl (launchBatch_cases s _ p o)

/-! ### One engine over one step -/

/-- What a step may make of the engine `v`. -/
inductive EngineStep (s : State) (v : Variant) : Engine → Prop
  | same : EngineStep s v (s.engine v)
  | micro (e' : Engine) (m m' : Memory) : (s.engine v).status = .busy → ExecEffect (s.engine v) e' m m' →
      (e'.status = .busy → (s.engine v).upc < (s.engine v).prog.length) → EngineStep s v e'
  | command (e' : Engine) : CommandEffect s v (s.engine v) e' → EngineStep s v e'
  | batchFails (c : Cause) : v = .scalar → (s.engine v).status.quiescent = true → EngineStep s v ((s.engine v).raise c)
  | batchConfigured (n : Norm) (key : List Byte) : v ∈ composerEngines s.platform → (s.engine v).status.quiescent = true →
      (s.engine .scalar).batchCheck = .ok n →
      EngineStep s v (((s.engine v).copyConfig (s.engine .scalar)).configured s.platform.initConst n key)

/-- A command to an engine reads nothing of the host's queue. -/
theorem commandEffect_pending {s : State} {p : List HostEvent} {v : Variant} {e e' : Engine}
    (h : CommandEffect { s with pending := p } v e e') : CommandEffect s v e e' := by
  cases h with
  | reset => exact .reset
  | fails c hq hc => exact .fails c hq hc
  | configured n key hq hn => exact .configured n key hq hn
  | call p hr hv => exact .call p hr hv
  | callOut p o hr hv => exact .callOut p o hr hv
  | callImm a hr hv => exact .callImm a hr hv
  | write e' hq hw => exact .write e' hq hw

/-- Everything a step can make of an engine. -/
theorem step_engine {s t : State} (h : step s = .next t) (v : Variant) : EngineStep s v (t.engine v) := by
  obtain ⟨u, p, hb, hm, hu⟩ | ⟨u, p, rfl⟩ | ⟨ev, rest, -, he⟩ := step_next h
  · obtain ⟨hact, -, -, -, -, hx, hne⟩ := microOpTo_engine hm
    by_cases hv : v = u
    · subst hv
      have heng : t.engine v = t.eng := by show _ = t.engine t.active; rw [hact]
      rw [heng]
      exact .micro _ _ _ hb hx hu
    · rw [hne v hv]; exact .same
  · exact .same
  · cases he with
    | issue u c =>
      obtain hs | ⟨e', a, d, b, hc, hs⟩ := issue_cases { s with pending := rest } u c
      · rw [hs]; exact .same
      · rw [hs]
        by_cases hv : v = u
        · subst hv
          have : (({ ({ s with pending := rest } : State).setEngine v e' with active := a, draws := d, batch := b } : State)).engine v = e' :=
            engine_setEngine _ v e'
          rw [this]
          exact .command e' (commandEffect_pending hc)
        · have : (({ ({ s with pending := rest } : State).setEngine u e' with active := a, draws := d, batch := b } : State)).engine v = s.engine v :=
            engine_setEngine_ne _ u e' hv
          rw [this]; exact .same
    | poke a b => exact .same
    | declare rs => exact .same
    | batchSetup =>
      obtain hs | ⟨c, hc, hq, hs⟩ | ⟨n, key, d, hq, hn, hs⟩ := batchSetup_cases { s with pending := rest }
      · rw [hs]; exact .same
      · rw [hs]
        by_cases hv : v = .scalar
        · subst hv
          rw [engine_batch, engine_setEngine]
          exact .batchFails c rfl hq
        · rw [engine_batch, engine_setEngine_ne _ _ _ hv]; exact .same
      · rw [hs]
        have hx := configureAll_engine (s.engine .scalar) n key v _ { s with pending := rest } (composerEngines_nodup s.platform)
        by_cases hv : v ∈ composerEngines s.platform
        · rw [if_pos hv] at hx
          exact hx ▸ .batchConfigured n key hv (hq v hv) hn
        · rw [if_neg hv] at hx
          exact hx ▸ .same
    | batch p o =>
      obtain ⟨q, hs⟩ | ⟨c, hc, -, hs⟩ := startBatch_cases { s with pending := rest } p o
      · rw [hs]; exact .same
      · obtain ⟨_, _, -, -, hr, -⟩ := ownBatch_eq_some hc
        rw [hs]
        by_cases hv : v = .scalar
        · subst hv
          rw [engine_setEngine]
          exact .batchFails c rfl ((congrArg Status.quiescent hr).trans rfl)
        · rw [engine_setEngine_ne _ _ _ hv]; exact .same
    | storeNothing slot _ => exact .same
    | storeRes slot r _ _ => exact .same

end Sys2Proof.Machine
end

