-- ==== Sys2Proof/Machine/Assembler.lean ====
section
/-! DEFINITION. The assembler's spelling of a micro-op (30_encoding R103) and the source's names (R104). No step reads them. -/

namespace Sys2Proof.Machine

/-- The name of a register (R22, R103). -/
def regName : Reg → String
  | .v0 => "V0"
  | .v1 => "V1"
  | .v2 => "V2"
  | .v3 => "V3"
  | .m => "M"
  | .t => "T"

/-- The text of a micro-op (R103); an operand out of its range is a syntax error and has none. -/
def asmText (i : Instr) : Option String :=
  if i.wellFormed then
    some (match i with
      | .init => "INIT"
      | .add rd rs => "ADD " ++ regName rd ++ ", " ++ regName rs
      | .xor rd rs => "XOR " ++ regName rd ++ ", " ++ regName rs
      | .or rd rs => "OR " ++ regName rd ++ ", " ++ regName rs
      | .shl rd n => "SHL " ++ regName rd ++ ", " ++ toString n
      | .rotl rd n => "ROTL " ++ regName rd ++ ", " ++ toString n
      | .ldi rd b => "LDI " ++ regName rd ++ ", " ++ toString b
      | .ld8 rd => "LD8 " ++ regName rd
      | .ld16 rd => "LD16 " ++ regName rd
      | .ld32 rd => "LD32 " ++ regName rd
      | .ld64 rd => "LD64 " ++ regName rd
      | .fin rs s => "FIN " ++ regName rs ++ ", " ++ toString s.toNat)
  else none

/-- The source's name of an operation (R104). -/
def sourceName : Mnemonic → String
  | .init => "init"
  | .add => "add"
  | .xor => "xor"
  | .or => "or"
  | .shl => "shl"
  | .rotl => "rotate_left"
  | .ldi => "load_immediate_byte"
  | .ld8 => "load_and_advance_8"
  | .ld16 => "load_and_advance_16"
  | .ld32 => "load_and_advance_32"
  | .ld64 => "load_and_advance_64"
  | .fin => "finalize"

end Sys2Proof.Machine
end

