-- ==== Sys2Proof/Tests/Slice0.lean ====
section
/-! SUPPORT. Tests: expected values from spec/95_test_vectors.md (the section named at each test), one step at a time; and for every
statement with hypotheses a named witness that meets them. -/

namespace Sys2Proof.Tests

open Sys2Proof Sys2Proof.Machine

/-! ### Helpers -/

/-- The IV of key `00..0f` (4.1). -/
def iv0f : SipState :=
  ⟨0x7469686173716475#64, 0x6b617f6d656e6665#64, 0x6b7f62616d677361#64, 0x7b6b696e727e6c7b#64⟩

/-- The key `00..0f`. -/
def key0f : List Byte := (List.range 16).map (BitVec.ofNat 8)

/-- A configuration with size, stride, rounds, and the two flags. -/
def normOf (size : BitVec 16) (stride : BitVec 32) (c d : BitVec 8) (as std : Bool) : Norm :=
  { size := size, stride := stride, c := c, d := d, asSpecified := as, standard := std }

/-- A lane with two registers written. -/
def lane2 (r q : Reg) (a b : Word) : Lane := (Lane.empty.set r (some a)).set q (some b)

/-- A machine whose active engine is `f` of a BUSY engine of variant `v` with these lanes, the IV of `00..0f` and size 8. -/
def machine (v : Variant) (lanes : List Lane) (f : Engine → Engine) : State :=
  { State.reset.setEngine v (f
      { Engine.powerOn v with
        lanes := lanes, iv := some iv0f, norm := some (normOf 8 8 2 4 false false), status := .busy }) with
    active := v }

/-- Memory with bytes from address `a` up. -/
def memOf (a : Nat) (bs : List Byte) : Memory := Memory.writeBytes [] a bs

/-- A machine with memory. -/
def withMem (s : State) (a : Nat) (bs : List Byte) : State := { s with mem := memOf a bs }

/-- A machine with host events pending. -/
def pend (s : State) (evs : List HostEvent) : State := { s with pending := evs }

/-- The active engine after a step, where there is a next state. -/
def engAfter : Host.Outcome State Fault Refusal → Option Engine
  | .next t => some t.eng
  | _ => none

/-- A register of a lane after. -/
def reg (o : Host.Outcome State Fault Refusal) (l : Nat) (r : Reg) : Option Word :=
  (engAfter o).bind (fun e => (e.lanes[l]?).bind (fun x => x.get r))

/-- `cur` after. -/
def curOf (o : Host.Outcome State Fault Refusal) : Option Nat := (engAfter o).map (fun e => e.cur)

/-- STATUS, CAUSE and `upc` after. -/
def control (o : Host.Outcome State Fault Refusal) : Option (Status × BitVec 8 × Nat) :=
  (engAfter o).map (fun e => (e.status, e.cause, e.upc))

/-- Bytes of memory after. -/
def bytesOf (o : Host.Outcome State Fault Refusal) (a n : Nat) : List Byte :=
  match o with
  | .next t => Memory.readBytes t.mem a n
  | _ => []

/-- The stop, where there is one. -/
def stopOf : Host.Outcome State Fault Refusal → Option Fault
  | .fault f => some f
  | _ => none

/-- Does the machine go on? -/
def goesOn : Host.Outcome State Fault Refusal → Bool
  | .next _ => true
  | _ => false

/-- A machine that goes on has a next state. -/
theorem next_of_goesOn {o : Host.Outcome State Fault Refusal} (h : goesOn o = true) : ∃ t, o = .next t := by
  cases o with
  | next t => exact ⟨t, rfl⟩
  | fault _ => exact Bool.noConfusion h
  | refused _ => exact Bool.noConfusion h

/-- One lane with every register written. -/
def fullLane (a : Word) : Lane := ⟨some a, some 1#64, some 2#64, some 3#64, some 4#64, some 5#64⟩

/-- A BUSY one-lane engine with every register written, `IN_PTR` at 0x100, and the bytes of 3.4 there. -/
def loadState (cur : Nat) : State :=
  withMem (machine .scalar [fullLane 0] (fun e => { e with cur := cur, inPtr := some 0x100#64 })) 0x100
    [0x00#8, 0x01#8, 0x02#8, 0x03#8, 0x04#8, 0x05#8, 0x06#8, 0x07#8, 0x08#8, 0x09#8, 0x0a#8, 0x0b#8, 0x0c#8, 0x0d#8, 0x0e#8,
      0xff#8]

/-! ### Syntax and encoding (3.1) -/

theorem test_shl_amount_64_is_ill_formed : Instr.wellFormed (.shl .t 64) = false ∧ Instr.wellFormed (.shl .t 63) = true := by
  decide

theorem test_rotl_amount_64_is_ill_formed : Instr.wellFormed (.rotl .v0 64) = false ∧ Instr.wellFormed (.rotl .v0 63) = true := by
  decide

theorem test_ldi_byte_256_is_ill_formed : Instr.wellFormed (.ldi .m 256) = false ∧ Instr.wellFormed (.ldi .m 255) = true := by
  decide

theorem test_ill_formed_has_no_text : asmText (.shl .t 64) = none ∧ asmText (.shl .m 56) = some "SHL M, 56" := by
  decide

theorem test_decode_spec_words_first_half :
    decode 0x1000#16 = .ok .init ∧ decode 0x2040#16 = .ok (.add .v0 .v1) ∧ decode 0x3700#16 = .ok (.xor .v3 .m) ∧
    decode 0x4940#16 = .ok (.or .m .t) ∧ decode 0x5838#16 = .ok (.shl .m 56) ∧ decode 0x603F#16 = .ok (.rotl .v0 63) ∧
    decode 0x6000#16 = .ok (.rotl .v0 0) := by
  decide

theorem test_decode_spec_words_second_half :
    decode 0x780F#16 = .ok (.ldi .m 15) ∧ decode 0x8A00#16 = .ok (.ld8 .t) ∧ decode 0x9800#16 = .ok (.ld16 .m) ∧
    decode 0xAA00#16 = .ok (.ld32 .t) ∧ decode 0xB800#16 = .ok (.ld64 .m) ∧ decode 0xB000#16 = .ok (.ld64 .v0) ∧
    decode 0xC001#16 = .ok (.fin .v0 true) ∧ decode 0xCA00#16 = .ok (.fin .t false) := by
  decide

theorem test_illegal_opcodes :
    [0x0000#16, 0xFFFF#16, 0x0FFF#16, 0xD000#16, 0xE123#16, 0xF000#16].map decode = List.replicate 6 (.error .opcode) := by
  decide

theorem test_illegal_zero_bits :
    [0x1001#16, 0x1200#16, 0x2041#16, 0x5040#16, 0x7100#16, 0x8801#16, 0xC002#16].map decode =
      List.replicate 7 (.error .mustBeZero) := by
  decide

theorem test_illegal_registers :
    [0x2E00#16, 0x2180#16, 0x6C00#16, 0xBC00#16, 0xCE00#16].map decode = List.replicate 5 (.error .register) := by
  decide

theorem test_table_word : decodeTableWord 16 0x2040 = some (.add .v0 .v1) ∧ decodeTableWord 16 0x2E00 = none := by
  decide

theorem test_reset_runs_a_placed_word :
    reg (step (State.reset.withFetchWord 16 0x7AFF)) 0 .t = some 0xff#64 ∧
    control (step (State.reset.withFetchWord 16 0x7AFF)) = some (.busy, 0#8, 1) := by
  decide

/-! ### Arithmetic micro-ops (3.2, 3.3) -/

theorem test_add : reg (exec (.add .v0 .v1) (machine .scalar [lane2 .v0 .v1 0x7469686173716475#64 0x6b617f6d656e6665#64] id)) 0 .v0 =
    some 0xdfcae7ced8dfcada#64 := by
  decide

theorem test_add_no_carry_across_lanes :
    let o := exec (.add .m .t) (machine .dual [lane2 .m .t 0xffffffffffffffff#64 1#64, lane2 .m .t 0#64 1#64] id)
    reg o 0 .m = some 0#64 ∧ reg o 1 .m = some 1#64 := by
  decide

theorem test_xor : reg (exec (.xor .v3 .m) (machine .scalar [lane2 .v3 .m 0x7b6b696e727e6c7b#64 0x20100#64] id)) 0 .v3 =
    some 0x7b6b696e727c6d7b#64 := by
  decide

theorem test_xor_self_of_unwritten_faults :
    control (exec (.xor .m .m) (machine .dual [lane2 .m .t 1#64 1#64, lane2 .v0 .t 0#64 1#64] id)) =
      some (.fault, 18#8, 0) := by
  decide

theorem test_or : reg (exec (.or .m .t) (machine .scalar [lane2 .m .t 0x0f0f000000000000#64 0x00ff00000000ff00#64] id)) 0 .m =
    some 0x0fff00000000ff00#64 := by
  decide

theorem test_shl : reg (exec (.shl .t 8) (machine .scalar [lane2 .m .t 0#64 0x0123456789abcdef#64] id)) 0 .t =
    some 0x23456789abcdef00#64 := by
  decide

theorem test_shl_63 : reg (exec (.shl .t 63) (machine .scalar [lane2 .m .t 0#64 0x8000000000000001#64] id)) 0 .t =
    some 0x8000000000000000#64 := by
  decide

theorem test_rotl : reg (exec (.rotl .v1 13) (machine .scalar [lane2 .v0 .v1 0#64 0x6b617f6d656e6665#64] id)) 0 .v1 =
    some 0x2fedacadccccad6c#64 := by
  decide

theorem test_rotl_zero_and_63 :
    reg (exec (.rotl .v1 0) (machine .scalar [lane2 .v0 .v1 0#64 0x0123456789abcdef#64] id)) 0 .v1 = some 0x0123456789abcdef#64 ∧
    reg (exec (.rotl .v1 63) (machine .scalar [lane2 .v0 .v1 0#64 0x0123456789abcdef#64] id)) 0 .v1 = some 0x8091a2b3c4d5e6f7#64 := by
  decide

/-! ### Loads and LDI (3.4) -/

theorem test_ld8_zero_extends : reg (exec (.ld8 .t) (loadState 15)) 0 .t = some 0xff#64 ∧ curOf (exec (.ld8 .t) (loadState 15)) = some 16 := by
  decide

theorem test_ld8_on_the_immediate_engine_faults :
    control (exec (.ld8 .m) (machine .scalarImm [Lane.empty] (fun e => { e with arg := some 7#64 }))) = some (.fault, 16#8, 0) := by
  decide

theorem test_ld16_odd_address : reg (exec (.ld16 .m) (loadState 1)) 0 .m = some 0x0201#64 ∧ curOf (exec (.ld16 .m) (loadState 1)) = some 3 := by
  decide

theorem test_ld32 : reg (exec (.ld32 .t) (loadState 8)) 0 .t = some 0x0b0a0908#64 ∧ curOf (exec (.ld32 .t) (loadState 8)) = some 12 := by
  decide

theorem test_ld64_unaligned : reg (exec (.ld64 .m) (loadState 3)) 0 .m = some 0x0a09080706050403#64 ∧
    curOf (exec (.ld64 .m) (loadState 3)) = some 11 := by
  decide

/-- Two lanes, stride 4: lane 1 reads four bytes further (3.4). -/
theorem test_ld64_gather :
    let o := exec (.ld64 .m) (withMem (machine .dual [Lane.empty, Lane.empty] (fun e =>
      { e with inPtr := some 0x40#64, norm := some (normOf 8 4 2 4 false false) })) 0x40
        [0x00#8, 0x01#8, 0x02#8, 0x03#8, 0x04#8, 0x05#8, 0x06#8, 0x07#8, 0xaa#8, 0xbb#8, 0xcc#8, 0xdd#8])
    reg o 0 .m = some 0x0706050403020100#64 ∧ reg o 1 .m = some 0xddccbbaa07060504#64 ∧ curOf o = some 8 := by
  decide

theorem test_ldi : reg (exec (.ldi .t 255) (loadState 3)) 0 .t = some 0xff#64 ∧ curOf (exec (.ldi .t 255) (loadState 3)) = some 3 := by
  decide

/-! ### INIT and FIN (3.5) -/

theorem test_init :
    let o := exec .init (machine .dual [Lane.empty, lane2 .m .t 5#64 6#64] id)
    reg o 1 .v0 = some 0x7469686173716475#64 ∧ reg o 1 .v3 = some 0x7b6b696e727e6c7b#64 ∧ reg o 0 .m = none ∧ reg o 1 .m = some 5#64 := by
  decide

/-- The two formats of one result word (3.5). -/
theorem test_fin_formats :
    (engAfter (exec (.fin .v0 false) (machine .scalar [fullLane 0x34526b4df76ea314#64] id))).map (fun e => (e.res, e.status)) =
      some (some 0x68a4d69a#32, .ready) ∧
    (engAfter (exec (.fin .v0 true) (machine .ref [fullLane 0x34526b4df76ea314#64] id))).map (fun e => e.res) =
      some (some 0xf76ea314#32) := by
  decide

/-- Two slots (3.5). -/
theorem test_fin_slots :
    bytesOf (exec (.fin .v0 false) (machine .dual [fullLane 0xa129ca6149be45e5#64, fullLane 0xffffffffffffffff#64]
      (fun e => { e with outPtr := some 0x80#64 }))) 0x80 8 =
      [0xc2#8, 0x94#8, 0x53#8, 0x42#8, 0xfe#8, 0xff#8, 0xff#8, 0xff#8] := by
  decide

/-! ### Fetch faults and hand-made programs (6.2) -/

theorem test_illegal_word_faults :
    control (step (machine .scalar [fullLane 0] (fun e => { e with upc := 1, prog := [0x1000#16, 0x0000#16, 0xC000#16] }))) =
      some (.fault, 17#8, 1) := by
  decide

theorem test_program_without_fin_faults :
    control (step (machine .scalar [fullLane 0] (fun e => { e with upc := 2, prog := [0x1000#16, 0x7AFF#16] }))) =
      some (.fault, 19#8, 2) := by
  decide

theorem test_standard_fin_on_dual_faults :
    control (step (machine .dual [fullLane 0, fullLane 0] (fun e => { e with upc := 1, prog := [0x1000#16, 0xC001#16] }))) =
      some (.fault, 20#8, 1) := by
  decide

/-! ### Algorithm and sequencer (4, 5) -/

theorem test_init_state : initState Config.initConst key0f = iv0f := by
  decide

theorem test_sip_round : sipRound ⟨1#64, 2#64, 3#64, 4#64⟩ =
    ⟨0x0000000300040007#64, 0x000000008006400a#64, 0x0000400a00000000#64, 0x0000008300e40007#64⟩ := by
  decide

theorem test_compress : compress iv0f 0x0706050403020100#64 2 =
    ⟨0x4a017198de0a59e0#64, 0x0d52f6f62a4f59a4#64, 0x634cb3577b01fd3d#64, 0xa5224d6f55c7d9c8#64⟩ := by
  decide

/-- Sizes 8 (default), 15 (standard) of 4.6. -/
theorem test_hash :
    hash Config.initConst (normOf 8 8 2 4 false false) key0f ((List.range 8).map (BitVec.ofNat 8)) = 0x560401ea#32 ∧
    hash Config.initConst (normOf 15 15 2 4 true true) key0f ((List.range 15).map (BitVec.ofNat 8)) = 0x49be45e5#32 := by
  decide

/-- P8. -/
theorem test_degenerate_programs :
    programWords (normOf 0 0 0 0 false false) = [0x1000#16, 0x7AFF#16, 0x3540#16, 0x3040#16, 0x34C0#16, 0x3080#16, 0xC000#16] ∧
    programWords (normOf 7 7 0 0 true false) =
      [0x1000#16, 0x7807#16, 0x5838#16, 0xAA00#16, 0x4940#16, 0x9A00#16, 0x5A20#16, 0x4940#16, 0x8A00#16, 0x5A30#16, 0x4940#16,
        0x3700#16, 0x3100#16, 0x7AFF#16, 0x3540#16, 0x3040#16, 0x34C0#16, 0x3080#16, 0xC000#16] := by
  decide

/-- The lengths of R187's examples. -/
theorem test_program_lengths :
    [normOf 0 0 2 4 false false, normOf 0 0 2 4 true false, normOf 15 15 2 4 false false, normOf 15 15 2 4 true false,
      normOf 3 3 1 1 false false].map (fun n => (programWords n).length) = [63, 95, 131, 134, 41] := by
  decide +kernel

/-! ### Commands (6.1, 6.3, 6.5) -/

/-- An engine of variant `v` with the size and flags of 6.1 written, CONFIGURE pending. -/
def toConfigure (v : Variant) (size : Option (BitVec 16)) (flags : BitVec 32) : State :=
  pend { State.reset.setEngine v
    { Engine.powerOn v with
      cfgSize := size, cfgFlags := flags, key0 := some 0x0706050403020100#64, key1 := some 0x0f0e0d0c0b0a0908#64 } with active := v }
    [.issue v .configure]

theorem test_configure_outcomes :
    control (step (toConfigure .scalar (some 5#16) 0#32)) = some (.ready, 0#8, 0) ∧
    control (step (toConfigure .ref none 0#32)) = some (.fault, 1#8, 0) ∧
    control (step (toConfigure .scalarImm (some 4#16) 1#32)) = some (.fault, 3#8, 0) ∧
    control (step (toConfigure .scalarImm (some 4#16) 0#32)) = some (.fault, 4#8, 0) ∧
    control (step (toConfigure .quad (some 8#16) 2#32)) = some (.fault, 2#8, 0) ∧
    control (step (toConfigure .dual (some 8#16) 1#32)) = some (.ready, 0#8, 0) := by
  decide

theorem test_configure_derives_and_clears :
    (engAfter (step (toConfigure .scalar (some 4#16) 2#32))).map (fun e => (e.iv, e.norm, e.key0, e.key1)) =
      some (some iv0f, some (normOf 4 4 2 4 true true), none, none) := by
  decide

/-- An overlapping launch is refused (6.3). -/
theorem test_overlapping_launch_is_refused :
    control (step (pend (machine .dual [] (fun e => { e with status := .ready })) [.issue .dual (.callOut 0x40#64 0x44#64)])) =
      some (.ready, 0#8, 0) := by
  decide

theorem test_seed_key : deriveKeyFromSeed 0x12345678#32 = [0x78#8, 0x56#8, 0x34#8, 0x12#8] ++ List.replicate 12 0#8 := by
  decide

/-- A record of size 0 whose pointer lies in a device region is refused (R73, U8). -/
theorem test_pointer_into_a_device_is_refused :
    control (step (pend { machine .ref [] (fun e => { e with status := .ready, norm := some (normOf 0 0 2 4 false false) }) with
        platform := { Platform.default with
          regions := [{ base := 0x40, size := 1, kind := .device, readable := true, writable := true }] } }
      [.issue .ref (.call 0x40#64)])) = some (.ready, 0#8, 0) := by
  decide

/-- After a new CALL nothing keeps or stores the result of the last one (R294). -/
theorem test_result_ends_with_the_next_call :
    (engAfter (step (pend (machine .scalar [] (fun e => { e with status := .ready, res := some 0x68a4d69a#32 }))
      [.issue .scalar (.call 0x40#64)]))).map (fun e => (e.status, e.res)) = some (.busy, none) ∧
    bytesOf (step (pend (machine .scalar [] (fun e => { e with res := some 0x68a4d69a#32 })) [.storeRes 0x80])) 0x80 1 = [0#8] := by
  decide

/-- P6: the engine calls of a batch of 7 with both multi-lane engines, and with DUAL alone. -/
theorem test_batch_decomposition :
    batchCalls Platform.default 8 7 0x400 0x500 = [⟨.quad, 0x400, 0x500⟩, ⟨.dual, 0x420, 0x510⟩, ⟨.scalar, 0x430, 0x518⟩] ∧
    batchCalls { Platform.default with hasQuad := false } 8 7 0x400 0x500 =
      [⟨.dual, 0x400, 0x500⟩, ⟨.dual, 0x410, 0x508⟩, ⟨.dual, 0x420, 0x510⟩, ⟨.scalar, 0x430, 0x518⟩] := by
  decide

/-! ### Witnesses: concrete states and operands that meet the hypotheses of the statements

Each theorem is named after its statement; where a statement has several clauses, there is one part per clause, at a boundary. -/

/-- Two lanes, every register written. -/
def aluState : State := machine .dual [fullLane 1, fullLane 2] id

/-- Two lanes, nothing written in the second. -/
def aluUnwritten : State := machine .dual [fullLane 1, Lane.empty] id

theorem witness_DecodeOfEncode : Instr.wellFormed (.rotl .t 63) = true ∧ Instr.wellFormed (.ldi .m 255) = true := by decide

theorem witness_EncodeOfDecode : decode 0x6A3F#16 = .ok (.rotl .t 63) := by decide

/-- R101's four ways to be illegal, each at the first value past the legal ones. -/
theorem witness_IllegalWordsAreExactly :
    13 ≤ field 0xD000#16 12 4 ∧ 0x5040#16 &&& 0xF1C0#16 ≠ 0x5000#16 ∧ 5 < field 0xBC00#16 9 3 ∧ 5 < field 0x2180#16 6 3 := by
  decide

theorem witness_AddRule : (∀ r ∈ readsOf (.add .t .t), Written aluState r) ∧ ¬ ∀ r ∈ readsOf (.add .v0 .t), Written aluUnwritten r := by
  unfold Written; decide

theorem witness_XorRule : (∀ r ∈ readsOf (.xor .m .m), Written aluState r) ∧ ¬ ∀ r ∈ readsOf (.xor .m .m), Written aluUnwritten r := by
  unfold Written; decide

theorem witness_OrRule : (∀ r ∈ readsOf (.or .v0 .t), Written aluState r) ∧ ¬ ∀ r ∈ readsOf (.or .v0 .t), Written aluUnwritten r := by
  unfold Written; decide

theorem witness_ShlRule : 63 ≤ 63 ∧ (∀ r ∈ readsOf (.shl .t 63), Written aluState r) ∧
    ¬ ∀ r ∈ readsOf (.shl .t 63), Written aluUnwritten r := by
  unfold Written; decide

theorem witness_RotlRule : 0 ≤ 63 ∧ (∀ r ∈ readsOf (.rotl .v3 0), Written aluState r) ∧
    ¬ ∀ r ∈ readsOf (.rotl .v3 0), Written aluUnwritten r := by
  unfold Written; decide

/-- One lane whose record ends at the last address. -/
def topState : State := machine .scalar [fullLane 0] (fun e => { e with inPtr := some 0xfffffffffffffff8#64 })

/-- Two lanes, nothing declared. -/
def undeclared : State :=
  { machine .dual [fullLane 1, fullLane 2] (fun e => { e with inPtr := some 0x40#64, outPtr := some 0x80#64 }) with
    platform := { Platform.default with regions := [] } }

/-- The immediate engine. -/
def immState (cur : Nat) : State := machine .scalarImm [Lane.empty] (fun e => { e with arg := some 7#64, cur := cur })

theorem witness_LdDoubleRule : topState.eng.variant ≠ .scalarImm ∧ topState.eng.inPtr = some 0xfffffffffffffff8#64 ∧
    (1 < topState.eng.lanes.length → topState.eng.norm ≠ none) ∧
    ∀ l < topState.eng.lanes.length, ∀ k < 8,
      readable topState.platform.regions (effectiveAddress topState 0xfffffffffffffff8#64 l + k) = true := by
  decide

theorem witness_LdByteRule : (loadState 15).eng.variant ≠ .scalarImm ∧ (loadState 15).eng.inPtr = some 0x100#64 ∧
    (1 < (loadState 15).eng.lanes.length → (loadState 15).eng.norm ≠ none) ∧
    (∀ l < (loadState 15).eng.lanes.length, ∀ k < 1,
      readable (loadState 15).platform.regions (effectiveAddress (loadState 15) 0x100#64 l + k) = true) ∧
    (immState 0).eng.variant = .scalarImm := by
  decide

theorem witness_LdHalfRule : (loadState 1).eng.variant ≠ .scalarImm ∧ (loadState 1).eng.inPtr = some 0x100#64 ∧
    (1 < (loadState 1).eng.lanes.length → (loadState 1).eng.norm ≠ none) ∧
    (∀ l < (loadState 1).eng.lanes.length, ∀ k < 2,
      readable (loadState 1).platform.regions (effectiveAddress (loadState 1) 0x100#64 l + k) = true) ∧
    (immState 0).eng.variant = .scalarImm := by
  decide

theorem witness_LdWordRule : (loadState 8).eng.variant ≠ .scalarImm ∧ (loadState 8).eng.inPtr = some 0x100#64 ∧
    (1 < (loadState 8).eng.lanes.length → (loadState 8).eng.norm ≠ none) ∧
    (∀ l < (loadState 8).eng.lanes.length, ∀ k < 4,
      readable (loadState 8).platform.regions (effectiveAddress (loadState 8) 0x100#64 l + k) = true) ∧
    (immState 0).eng.variant = .scalarImm := by
  decide

theorem witness_LdDoubleImmediate : (immState 0).eng.variant = .scalarImm ∧ (immState 0).eng.cur = 0 ∧
    (immState 0).eng.arg = some 7#64 ∧ (immState 8).eng.variant = .scalarImm ∧ (immState 8).eng.cur ≠ 0 := by
  decide

theorem witness_LdiRule : 0 ≤ 255 ∧ 255 ≤ 255 := by decide

theorem witness_InitRule : aluState.eng.lanes[1]? = some (fullLane 2) ∧ aluState.eng.iv = some iv0f := by decide

theorem witness_FinDeliversToRes : topState.eng.variant.multiLane = false ∧ topState.eng.lanes ≠ [] ∧ Written topState .v0 := by
  unfold Written; decide

/-- Two lanes whose slots end at the last address. -/
def topSlots : State := machine .dual [fullLane 1, fullLane 2] (fun e => { e with outPtr := some 0xfffffffffffffff8#64 })

theorem witness_FinDeliversToSlots : topSlots.eng.variant.multiLane = true ∧ topSlots.eng.outPtr = some 0xfffffffffffffff8#64 ∧
    Written topSlots .t ∧ MemoryInv topSlots ∧
    ∀ k < 4 * topSlots.eng.lanes.length, writable topSlots.platform.regions ((0xfffffffffffffff8#64).toNat + k) = true := by
  unfold Written MemoryInv; decide

theorem witness_UnadmittedAccessStops :
    (0 < loadWidth (.ld16 .t) ∧ undeclared.eng.variant ≠ .scalarImm ∧ undeclared.eng.inPtr = some 0x40#64 ∧
      undeclared.eng.norm ≠ none ∧ 1 < undeclared.eng.lanes.length ∧ 0 < loadWidth (.ld16 .t) ∧
      readable undeclared.platform.regions (effectiveAddress undeclared 0x40#64 1 + 0) = false) ∧
    (undeclared.eng.variant.multiLane = true ∧ undeclared.eng.outPtr = some 0x80#64 ∧ Written undeclared .v0 ∧
      7 < 4 * undeclared.eng.lanes.length ∧ writable undeclared.platform.regions ((0x80#64).toNat + 7) = false) := by
  unfold Written; decide

/-- The last byte of the wrapper's store at `2^64`; an engine call at `2^64`, by its input and by its output. -/
theorem witness_UnadmittedAccessStops_batch :
    (let s := pend (machine .scalar [] (fun e => { e with status := .ready, res := some 0x68a4d69a#32 }))
        [.storeRes 0xfffffffffffffffd];
      s.pending = .storeRes 0xfffffffffffffffd :: [] ∧ (s.engine .scalar).status ≠ .busy ∧
      (s.engine .scalar).res = some 0x68a4d69a#32 ∧ writable s.platform.regions (0xfffffffffffffffd + 3) = false) ∧
    (pend State.reset [.callBeyond]).pending = callEvents ⟨.scalar, 2 ^ 64, 0x80⟩ ++ [] ∧
    (pend State.reset [.callBeyond]).pending = callEvents ⟨.dual, 0x40, 2 ^ 64⟩ ++ [] := by
  decide

/-- The last byte of an LD16 lies at `2^64`. -/
theorem test_load_past_the_address_space_stops :
    stopOf (exec (.ld16 .t) (machine .scalar [Lane.empty] (fun e => { e with inPtr := some 0xffffffffffffffff#64 }))) =
      some .readNotAdmitted := by
  decide

/-- Both values of `s`, the highest register (3.1: `FIN T, 0` is CA00). -/
theorem test_fin_words : encode (.fin .t false) = 0xCA00#16 ∧ encode (.fin .v0 true) = 0xC001#16 := by decide

theorem witness_FinFaults : aluState.eng.variant.multiLane = true ∧ ¬ Written aluUnwritten .t ∧
    ¬ (false = true ∧ aluUnwritten.eng.variant.multiLane = true) := by
  unfold Written; decide

/-- A BUSY engine whose program is `prog`. -/
def running (v : Variant) (prog : List MicroWord) : State := machine v (List.replicate v.lanes (fullLane 3)) (fun e => { e with prog := prog })

theorem witness_StepRunsDecodedInstruction :
    ((running .scalar [0x7AFF#16]).pending = [] ∧ (running .scalar [0x7AFF#16]).eng.status = .busy ∧
      (running .scalar [0x7AFF#16]).eng.prog[(running .scalar [0x7AFF#16]).eng.upc]? = some 0x7AFF#16) ∧
    ((pend (running .quad [0x7AFF#16]) [.tick .quad]).pending = [.tick .quad] ∧
      ((pend (running .quad [0x7AFF#16]) [.tick .quad]).engine .quad).status = .busy ∧
      ((pend (running .quad [0x7AFF#16]) [.tick .quad]).engine .quad).prog[0]? = some 0x7AFF#16) ∧
    decode 0x7AFF#16 = .ok (.ldi .t 255) := by
  decide

theorem witness_FetchFaults :
    ((running .scalar []).pending = [] ∧ (running .scalar []).eng.status = .busy ∧
      (running .scalar []).eng.prog.length ≤ (running .scalar []).eng.upc) ∧
    ((running .scalar [0xFFFF#16]).eng.prog[0]? = some 0xFFFF#16 ∧ decode 0xFFFF#16 = .error .opcode) := by
  decide

theorem witness_IdleMachineWaits : State.reset.pending = [] ∧ ∀ v, (State.reset.engine v).status ≠ .busy := by
  refine ⟨rfl, ?_⟩
  intro v; cases v <;> decide

theorem witness_ControlFlowIsConstant : SameWritten aluState.eng.lanes [fullLane 7, fullLane 8] ∧
    ∃ t, exec (.add .v0 .t) aluState = .next t := by
  refine ⟨⟨rfl, ?_⟩, next_of_goesOn (by decide)⟩
  intro l x y hx hy r
  match l with
  | 0 => cases hx; cases hy; cases r <;> rfl
  | 1 => cases hx; cases hy; cases r <;> rfl
  | _ + 2 => cases hx

theorem witness_ConfigureSucceeds :
    let s := toConfigure .scalarImm (some 8#16) 0#32
    s.pending = .issue .scalarImm .configure :: [] ∧ s.platform.has .scalarImm = true ∧
    (s.engine .scalarImm).status = .unconfigured ∧ (s.engine .scalarImm).cfgSize = some 8#16 ∧
    ((s.engine .scalarImm).variant = .scalarImm → 8#16 = 8#16 ∧ (s.engine .scalarImm).cfgFlags.getLsbD 0 = false ∧
      (s.engine .scalarImm).cfgFlags.getLsbD 1 = false) ∧
    ((s.engine .scalarImm).variant.multiLane = true → (s.engine .scalarImm).cfgFlags.getLsbD 1 = false) := by
  decide

/-- The clauses on the key: both halves written, one half written; and on the stride: not written, written. -/
theorem witness_ConfigureSucceeds_clauses :
    ((toConfigure .scalar (some 8#16) 0#32).engine .scalar).key0 = some 0x0706050403020100#64 ∧
    ((toConfigure .scalar (some 8#16) 0#32).engine .scalar).key1 = some 0x0f0e0d0c0b0a0908#64 ∧
    ((toConfigure .scalar (some 8#16) 0#32).engine .scalar).cfgStride = none ∧
    (let s := pend (State.reset.setEngine .dual
        { Engine.powerOn .dual with cfgSize := some 0#16, cfgStride := some 0xffffffff#32, key0 := some 1#64 })
        [.issue .dual .configure];
      s.pending = .issue .dual .configure :: [] ∧ s.platform.has .dual = true ∧ (s.engine .dual).status = .unconfigured ∧
      (s.engine .dual).cfgSize = some 0#16 ∧ (s.engine .dual).variant ≠ .scalarImm ∧
      (s.engine .dual).cfgFlags.getLsbD 1 = false ∧ (s.engine .dual).key1 = none ∧
      (s.engine .dual).cfgStride = some 0xffffffff#32) := by
  decide

theorem witness_ConfigureFails :
    (let s := toConfigure .dual none 2#32;
      s.pending = .issue .dual .configure :: [] ∧ s.platform.has .dual = true ∧ (s.engine .dual).status = .unconfigured ∧
      (s.engine .dual).cause = 0#8 ∧ (s.engine .dual).cfgSize = none) ∧
    (let e := (toConfigure .scalarImm (some 4#16) 2#32).engine .scalarImm;
      e.cfgSize = some 4#16 ∧ e.variant = .scalarImm ∧ e.cfgFlags.getLsbD 1 = true) ∧
    (let e := (toConfigure .scalarImm (some 7#16) 0#32).engine .scalarImm;
      e.cfgSize = some 7#16 ∧ e.cfgFlags.getLsbD 0 = false ∧ e.cfgFlags.getLsbD 1 = false ∧ (7#16 : BitVec 16) ≠ 8#16) ∧
    (let e := (toConfigure .quad (some 8#16) 2#32).engine .quad;
      e.cfgSize = some 8#16 ∧ e.variant.multiLane = true ∧ e.cfgFlags.getLsbD 1 = true) := by
  decide

theorem witness_RegisterWrites :
    let s := pend State.reset [.issue .quad (.writeFlags 0xffffffff#32)]
    s.pending = .issue .quad (.writeFlags 0xffffffff#32) :: [] ∧ s.platform.has .quad = true ∧
      (s.engine .quad).status = .unconfigured ∧
      ∃ x, (Command.writeFlags 0xffffffff#32) = .writeFlags x ∧
        ({ s.engine .quad with cfgFlags := 3#32 } : Engine) = { s.engine .quad with cfgFlags := BitVec.ofNat 32 (x.toNat % 4) } :=
  ⟨rfl, rfl, rfl, _, rfl, rfl⟩

/-- The other seven register writes, each pending at an engine that accepts it. -/
theorem witness_RegisterWrites_clauses (c : Command)
    (_ : c ∈ [.writeSize 0xffff#16, .writeStride 0xffffffff#32, .writeC 0xff#8, .writeD 0xff#8, .writeWidth 0#16,
      .writeKey0 0#64, .writeKey1 0xffffffffffffffff#64]) :
    let s := pend State.reset [.issue .ref c]
    s.pending = .issue .ref c :: [] ∧ s.platform.has .ref = true ∧ (s.engine .ref).status = .unconfigured :=
  ⟨rfl, rfl, rfl⟩

/-- A READY engine of variant `v` with size 8, one event pending. -/
def ready (v : Variant) (ev : HostEvent) : State := pend (machine v [] (fun e => { e with status := .ready })) [ev]

/-- The premises of CallStarts on the engine of `v`. -/
theorem witness_CallStarts_ready (v : Variant) (ev : HostEvent) :
    ((ready v ev).engine v).status = .ready ∧ ((ready v ev).engine v).norm = some (normOf 8 8 2 4 false false) ∧
    ((ready v ev).engine v).variant = v ∧ (ready v ev).platform.has v = true ∧
    (∀ u, ((ready v ev).engine u).status ≠ .busy) ∧ ∀ r ∈ (ready v ev).platform.regions, r.kind = .memory := by
  refine ⟨?_, ?_, ?_, ?_, ?_, ?_⟩
  · cases v <;> rfl
  · cases v <;> rfl
  · cases v <;> rfl
  · cases v <;> rfl
  · intro u; cases v <;> cases u <;> exact Status.noConfusion
  · intro r hr; cases List.mem_singleton.mp hr; rfl

/-- The three call forms, the DUAL call with its slots directly after its records. -/
theorem witness_CallStarts :
    (ready .scalar (.issue .scalar (.call 0x40#64))).pending = .issue .scalar (.call 0x40#64) :: [] ∧
    (ready .dual (.issue .dual (.callOut 0x40#64 0x50#64))).pending = .issue .dual (.callOut 0x40#64 0x50#64) :: [] ∧
    (0x40#64).toNat + (Variant.dual.lanes - 1) * (normOf 8 8 2 4 false false).stride.toNat +
      (normOf 8 8 2 4 false false).size.toNat ≤ (0x50#64).toNat ∧
    (ready .scalarImm (.issue .scalarImm (.callImm 9#64))).pending = .issue .scalarImm (.callImm 9#64) :: [] := by
  decide

theorem witness_RefusedCommandChangesNothing :
    (let s := pend (running .dual []) [.issue .dual .configure];
      s.pending = .issue .dual .configure :: [] ∧ Command.configure ≠ .reset ∧ (s.engine .dual).status = .busy) ∧
    (let s := pend State.reset [.issue .scalar (.call 0#64)];
      s.pending = .issue .scalar (.call 0#64) :: [] ∧ (s.engine .scalar).status = .unconfigured) ∧
    (let s := ready .dual (.issue .dual (.call 0#64));
      s.pending = .issue .dual (.call 0#64) :: [] ∧ Variant.dual ≠ .scalar ∧ Variant.dual ≠ .ref) ∧
    (let s := ready .ref (.issue .ref (.callOut 0#64 8#64));
      s.pending = .issue .ref (.callOut 0#64 8#64) :: [] ∧ Variant.ref ≠ .dual ∧ Variant.ref ≠ .quad) ∧
    (let s := ready .scalar (.issue .scalar (.callImm 0#64));
      s.pending = .issue .scalar (.callImm 0#64) :: [] ∧ Variant.scalar ≠ .scalarImm) := by
  decide

/-- A READY engine of variant `v` beside a BUSY engine of variant `u` on records at 0x80 and slots at 0xc0, one event pending. -/
def beside (v u : Variant) (ev : HostEvent) : State :=
  (ready v ev).setEngine u
    { Engine.powerOn u with
      status := .busy, norm := some (normOf 8 8 2 4 false false), inPtr := some 0x80#64, outPtr := some 0xc0#64 }

/-- One device at 0x80, one byte. -/
def deviceState (v : Variant) (size : BitVec 16) (ev : HostEvent) : State :=
  { pend (machine v [] (fun e => { e with status := .ready, norm := some (normOf size 8 2 4 false false) })) [ev] with
    platform := { Platform.default with
      regions := [{ base := 0x80, size := 1, kind := .device, readable := true, writable := true }] } }

/-- The last byte of record 1 is the first byte of slot 0. -/
theorem witness_LaunchRegionsRefused_overlap :
    (ready .dual (.issue .dual (.callOut 0x40#64 0x4f#64))).pending = .issue .dual (.callOut 0x40#64 0x4f#64) :: [] ∧
    ((ready .dual (.issue .dual (.callOut 0x40#64 0x4f#64))).engine .dual).norm = some (normOf 8 8 2 4 false false) ∧
    InRecords (normOf 8 8 2 4 false false) (0x40#64).toNat Variant.dual.lanes 0x4f ∧
    InSlots (0x4f#64).toNat Variant.dual.lanes 0x4f :=
  ⟨rfl, rfl, ⟨1, by decide⟩, by unfold InSlots; decide⟩

/-- A device at `IN_PTR` of empty records, at the first slot byte, and at the last byte of a SCALAR record. -/
theorem witness_LaunchRegionsRefused_device :
    InDevice (deviceState .dual 0 (.issue .dual (.callOut 0x80#64 0x90#64))) 0x80 ∧ 0x80 = (0x80#64).toNat ∧
    (InDevice (deviceState .dual 0 (.issue .dual (.callOut 0x40#64 0x80#64))) 0x80 ∧ InSlots (0x80#64).toNat Variant.dual.lanes 0x80) ∧
    (InDevice (deviceState .scalar 8 (.issue .scalar (.call 0x79#64))) 0x80 ∧
      (deviceState .scalar 8 (.issue .scalar (.call 0x79#64))).pending = .issue .scalar (.call 0x79#64) :: [] ∧
      InRecords (normOf 8 8 2 4 false false) (0x79#64).toNat Variant.scalar.lanes 0x80) :=
  ⟨⟨_, List.mem_singleton.mpr rfl, by decide⟩, rfl, ⟨⟨_, List.mem_singleton.mpr rfl, by decide⟩, by unfold InSlots; decide⟩,
    ⟨_, List.mem_singleton.mpr rfl, by decide⟩, rfl, ⟨0, by decide⟩⟩

/-- Slots on the input of a call in progress; slots on its output; a SCALAR record on its output. -/
theorem witness_LaunchRegionsRefused_busy :
    (CallReads (beside .dual .quad (.issue .dual (.callOut 0x40#64 0x9f#64))) .quad 0x9f ∧ InSlots (0x9f#64).toNat Variant.dual.lanes 0x9f) ∧
    (CallWrites (beside .dual .quad (.issue .dual (.callOut 0x40#64 0xcf#64))) .quad 0xcf ∧ InSlots (0xcf#64).toNat Variant.dual.lanes 0xcf) ∧
    (CallWrites (beside .ref .quad (.issue .ref (.call 0xb9#64))) .quad 0xc0 ∧
      InRecords (normOf 8 8 2 4 false false) (0xb9#64).toNat Variant.ref.lanes 0xc0) :=
  ⟨⟨⟨rfl, by decide, _, _, rfl, rfl, 3, by decide⟩, by unfold InSlots; decide⟩,
    ⟨⟨rfl, rfl, _, rfl, by unfold InSlots; decide⟩, by unfold InSlots; decide⟩,
    ⟨rfl, rfl, _, rfl, by unfold InSlots; decide⟩, ⟨0, by decide⟩⟩

theorem witness_ResetEffect :
    let s := pend (running .quad [0xFFFF#16]) [.issue .quad .reset]
    s.pending = .issue .quad .reset :: [] ∧ s.platform.has .quad = true := by
  decide

theorem witness_HostReads :
    let e := { Engine.powerOn .quad with status := .ready, res := some 0x68a4d69a#32, cfgSize := some 65535#16, cfgStride := some 0#32 }
    e.status ≠ .busy ∧ e.res = some 0x68a4d69a#32 ∧ (Engine.powerOn .scalar).res = none ∧ e.cfgSize = some 65535#16 ∧
      e.cfgStride = some 0#32 ∧ (Engine.powerOn .scalar).cfgSize = none ∧ (Engine.powerOn .scalar).cfgStride = none ∧
      (running .scalar []).eng.status = .busy ∧ e.cause = 0#8 ∧ e.status = .ready ∧ e.variant = .quad ∧
      (Engine.powerOn .ref).status = .unconfigured ∧ (Engine.powerOn .ref).variant = .ref ∧
      ((Engine.powerOn .dual).raise .widthZero).status = .fault ∧ 0x06 ∉ [0x00, 0x01, 0x02, 0x03, 0x04, 0x05, 0x13, 0x14, 0x15, 0x1F] := by
  decide

/-- The `ID`, `STATUS` and `CAUSE` words of R41, R40 and R250, on a QUAD engine after its first fault. -/
theorem test_host_reads : ((Engine.powerOn .quad).raise .standardBatch).hostRead 0x1F = some 0x43#64 ∧
    ((Engine.powerOn .quad).raise .standardBatch).hostRead 0x14 = some 3#64 ∧
    ((Engine.powerOn .quad).raise .standardBatch).hostRead 0x15 = some 2#64 := by
  decide

/-- A BUSY DUAL engine at a FIN, its program that of its configuration, its slots at 0x80. -/
def atFin : State :=
  machine .dual [fullLane 1, fullLane 2] (fun e =>
    { e with
      prog := programWords (normOf 8 8 0 0 false false), norm := some (normOf 8 8 0 0 false false), upc := 9
      inPtr := some 0x40#64, outPtr := some 0x80#64 })

/-- It takes a step: the FIN of its ten-word program. -/
theorem atFin_steps : ∃ t, step atFin = .next t := next_of_goesOn (by decide)

theorem witness_StepKeepsMemoryCanonical : MemoryInv atFin ∧ ∃ t, step atFin = .next t := ⟨rfl, atFin_steps⟩

theorem witness_StepKeepsShape : ShapeInv atFin ∧ ReservedInv atFin ∧ ∃ t, step atFin = .next t := by
  refine ⟨?_, ?_, atFin_steps⟩
  · intro v; cases v <;> exact ⟨rfl, rfl⟩
  · intro v k _; cases v <;> exact BitVec.getLsbD_zero

theorem witness_StepKeepsFaultRecord : FaultInv atFin ∧ ∃ t, step atFin = .next t := by
  refine ⟨?_, atFin_steps⟩
  intro v; cases v <;> decide

theorem witness_StepKeepsConfigured : ShapeInv atFin ∧ ConfiguredInv atFin ∧ ∃ t, step atFin = .next t := by
  refine ⟨witness_StepKeepsShape.1, ?_, atFin_steps⟩
  intro v hv
  cases v with
  | dual => exact ⟨by decide, _, rfl, ⟨by decide, by decide, by decide⟩, rfl⟩
  | scalar => exact absurd hv (by decide)
  | scalarImm => exact absurd hv (by decide)
  | quad => exact absurd hv (by decide)
  | ref => exact absurd hv (by decide)

theorem witness_StepKeepsCallRegisters : CallInv atFin ∧ ∃ t, step atFin = .next t := by
  refine ⟨?_, atFin_steps⟩
  intro v; cases v <;> decide

theorem witness_ParametersNeverChange : ∃ t, step atFin = .next t := atFin_steps

theorem witness_ConfigurationIsQuiescent : ∃ t, step atFin = .next t ∧ (atFin.engine .dual).status = .busy ∧
    (t.engine .dual).status ≠ .unconfigured :=
  ⟨_, rfl, rfl, by decide⟩

theorem witness_FaultIsSticky :
    let s := pend (running .dual [] |>.raise (.noFin 0)) [.issue .dual .reset]
    (∃ t, step s = .next t) ∧ (s.engine .dual).status = .fault := by
  exact ⟨next_of_goesOn (by decide), by decide⟩

/-- A step from UNCONFIGURED to READY, one from BUSY to READY, one from BUSY to FAULT, one from READY to BUSY. -/
theorem witness_LifeOfAnEngine :
    (∃ t, step (toConfigure .scalar (some 8#16) 0#32) = .next t) ∧ (∃ t, step atFin = .next t) ∧
    (∃ t, step (running .scalar [0xFFFF#16]) = .next t) ∧
    ∃ t, step (ready .ref (.issue .ref (.call 0x40#64))) = .next t :=
  ⟨next_of_goesOn (by decide), atFin_steps, next_of_goesOn (by decide), next_of_goesOn (by decide)⟩

theorem test_life_of_an_engine :
    control (step atFin) = some (.ready, 0#8, 9) ∧ control (step (running .scalar [0xFFFF#16])) = some (.fault, 17#8, 0) ∧
    control (step (ready .ref (.issue .ref (.call 0x40#64)))) = some (.busy, 0#8, 0) := by
  decide

theorem witness_ProgramShape : (program (normOf 0 0 0 0 false false))[2]? = some (.xor .v2 .t) ∧ Reg.t ∈ readsOf (.xor .v2 .t) := by
  decide

theorem witness_InternalOutputRange : (normOf 65535 0 255 255 true false).standard = false := rfl

theorem witness_DegenerateRounds : (normOf 8 8 0 0 true true).c = 0#8 ∧ (normOf 8 8 0 0 true true).d = 0#8 := ⟨rfl, rfl⟩

/-! #### Calls -/

/-- The shortest configuration with a block: size 8, no rounds. -/
def shortNorm : Norm := normOf 8 8 0 0 false false

/-- The start of a call of `shortNorm` on variant `v`, its records at 0x40, its slots at 0x80. -/
def callStart (v : Variant) : State :=
  machine v (List.replicate v.lanes Lane.empty) (fun e =>
    { e with
      norm := some shortNorm, prog := programWords shortNorm
      inPtr := some 0x40#64, outPtr := some 0x80#64, arg := some 7#64 })

theorem callStart_atCallStart (v : Variant) : AtCallStart (callStart v) shortNorm iv0f := by
  refine ⟨rfl, ?_, ?_, ?_, ?_, ?_, ?_, ?_, ?_⟩ <;> cases v <;> first | rfl | (unfold legalNorm; decide)

theorem callStart_input (v : Variant) : InputAdmitted (callStart v) shortNorm (0x40#64).toNat v.lanes := by
  unfold InputAdmitted; cases v <;> decide

theorem witness_ScalarCallComputesHash : AtCallStart (callStart .ref) shortNorm iv0f ∧ (callStart .ref).eng.variant = .ref ∧
    (callStart .ref).eng.inPtr = some 0x40#64 ∧ InputAdmitted (callStart .ref) shortNorm (0x40#64).toNat 1 :=
  ⟨callStart_atCallStart .ref, rfl, rfl, callStart_input .ref⟩

theorem witness_ImmediateCallComputesHash : AtCallStart (callStart .scalarImm) shortNorm iv0f ∧
    (callStart .scalarImm).eng.variant = .scalarImm ∧ (callStart .scalarImm).eng.arg = some 7#64 :=
  ⟨callStart_atCallStart .scalarImm, rfl, rfl⟩

theorem witness_MultiLaneCallComputesHash : AtCallStart (callStart .quad) shortNorm iv0f ∧
    (callStart .quad).eng.variant.multiLane = true ∧ MemoryInv (callStart .quad) ∧
    (callStart .quad).eng.inPtr = some 0x40#64 ∧ (callStart .quad).eng.outPtr = some 0x80#64 ∧
    InputAdmitted (callStart .quad) shortNorm (0x40#64).toNat (callStart .quad).eng.variant.lanes ∧
    admitsWrite (callStart .quad).platform (0x80#64).toNat (4 * (callStart .quad).eng.variant.lanes) = true :=
  ⟨callStart_atCallStart .quad, rfl, rfl, rfl, rfl, callStart_input .quad, by decide⟩

/-- Memory that differs in record 1 only, and record 0 agrees. -/
theorem witness_LaneIsolation :
    Memory.wf (memOf 0x48 [0xde#8, 0xad#8]) = true ∧ 0 < (callStart .quad).eng.variant.lanes ∧
    ∀ k < shortNorm.size.toNat, Memory.read (memOf 0x48 [0xde#8, 0xad#8]) ((0x40#64).toNat + 0 * shortNorm.stride.toNat + k) =
      Memory.read (callStart .quad).mem ((0x40#64).toNat + 0 * shortNorm.stride.toNat + k) := by
  decide

/-! #### The batch -/

/-- A configuration written to the SCALAR engine, batch set-up pending. -/
def toSetUp (size : Option (BitVec 16)) (width : BitVec 16) (flags : BitVec 32) : State :=
  pend (State.reset.setEngine .scalar
    { Engine.powerOn .scalar with
      cfgSize := size, cfgWidth := width, cfgFlags := flags, key0 := some 0x0706050403020100#64
      key1 := some 0x0f0e0d0c0b0a0908#64 }) [.batchSetup]

theorem witness_BatchSetupFails :
    ((toSetUp none 0#16 2#32).pending = .batchSetup :: [] ∧ ((toSetUp none 0#16 2#32).engine .scalar).cause = 0#8 ∧
      ((toSetUp none 0#16 2#32).engine .scalar).cfgSize = none) ∧
    (∀ v, ((toSetUp none 0#16 2#32).engine v).status = .unconfigured) ∧
    (((toSetUp (some 8#16) 0#16 2#32).engine .scalar).cfgSize ≠ none ∧
      ((toSetUp (some 8#16) 0#16 2#32).engine .scalar).cfgWidth = 0#16) ∧
    (((toSetUp (some 8#16) 1#16 2#32).engine .scalar).cfgSize ≠ none ∧
      ((toSetUp (some 8#16) 1#16 2#32).engine .scalar).cfgWidth ≠ 0#16 ∧
      ((toSetUp (some 8#16) 1#16 2#32).engine .scalar).cfgFlags.getLsbD 1 = true) := by
  refine ⟨by decide, ?_, by decide, by decide⟩
  intro v; cases v <;> rfl

/-- The three engines READY with one configuration and one IV, a batch of 3 pending, the slots directly after the records. -/
def batchState : State :=
  { State.reset with
    engines :=
      { Engines.powerOn with
        scalar := { Engine.powerOn .scalar with
          status := .ready, iv := some iv0f, norm := some shortNorm, prog := programWords shortNorm }
        dual := { Engine.powerOn .dual with
          status := .ready, iv := some iv0f, norm := some shortNorm, prog := programWords shortNorm }
        quad := { Engine.powerOn .quad with
          status := .ready, iv := some iv0f, norm := some shortNorm, prog := programWords shortNorm } }
    batch := some { width := 3#16, norm := shortNorm, iv := iv0f }
    pending := [.batch 0x40#64 0x58#64] }

/-- A READY SCALAR engine configured by itself, with no set-up in force: width 0, and STANDARD. -/
theorem witness_BatchSetupFails_ownEngines :
    (let s := pend (machine .scalar [] (fun e => { e with status := .ready, cfgWidth := 0#16 })) [.batch 0x40#64 0x80#64];
      s.pending = .batch 0x40#64 0x80#64 :: [] ∧ s.batch = none ∧ (s.engine .scalar).status = .ready ∧
      (s.engine .scalar).norm = some (normOf 8 8 2 4 false false) ∧ (s.engine .scalar).iv = some iv0f ∧
      (s.engine .scalar).cause = 0#8 ∧ (s.engine .scalar).cfgWidth = 0#16) ∧
    (let s := pend (machine .scalar [] (fun e => { e with status := .ready, norm := some (normOf 8 8 2 4 true true) }))
        [.batch 0x40#64 0x80#64];
      (s.engine .scalar).norm = some (normOf 8 8 2 4 true true) ∧ (normOf 8 8 2 4 true true).standard = true ∧
      (s.engine .scalar).cfgWidth ≠ 0#16) := by
  decide

/-- R236: its `CE_WIDTH_ZERO`, code 5. -/
theorem test_batch_of_width_zero_fails :
    control (step (pend (machine .scalar [] (fun e => { e with status := .ready, cfgWidth := 0#16 })) [.batch 0x40#64 0x80#64])) =
      some (.fault, 5#8, 0) := by
  decide

theorem witness_BatchSetupFails_reset :
    let s := { batchState with pending := [.issue .dual .reset] }
    s.pending = .issue .dual .reset :: [] ∧ s.platform.has .dual = true ∧ (∃ t, step s = .next t) ∧ .dual ∈ composerEngines s.platform :=
  ⟨rfl, rfl, ⟨_, rfl⟩, by decide⟩

/-- Key written, stride not; then one key half and the stride. -/
theorem witness_BatchSetupConfigures_clauses :
    ((toSetUp (some 8#16) 1#16 1#32).engine .scalar).cfgStride = none ∧
    ((toSetUp (some 8#16) 1#16 1#32).engine .scalar).key0 = some 0x0706050403020100#64 ∧
    ((toSetUp (some 8#16) 1#16 1#32).engine .scalar).key1 = some 0x0f0e0d0c0b0a0908#64 ∧
    (let s := pend (State.reset.setEngine .scalar
        { Engine.powerOn .scalar with cfgSize := some 8#16, cfgStride := some 0#32, key1 := some 1#64 }) [.batchSetup];
      s.pending = .batchSetup :: [] ∧ (s.engine .scalar).cfgSize = some 8#16 ∧ (s.engine .scalar).cfgWidth ≠ 0#16 ∧
      (s.engine .scalar).cfgFlags.getLsbD 1 = false ∧ (s.engine .scalar).cfgStride = some 0#32 ∧
      (s.engine .scalar).key0 = none) := by
  decide

theorem witness_BatchSetupConfigures :
    (toSetUp (some 8#16) 1#16 1#32).pending = .batchSetup :: [] ∧
    (∀ v, ((toSetUp (some 8#16) 1#16 1#32).engine v).status = .unconfigured) ∧
    ((toSetUp (some 8#16) 1#16 1#32).engine .scalar).cfgSize = some 8#16 ∧
    ((toSetUp (some 8#16) 1#16 1#32).engine .scalar).cfgWidth ≠ 0#16 ∧
    ((toSetUp (some 8#16) 1#16 1#32).engine .scalar).cfgFlags.getLsbD 1 = false := by
  refine ⟨rfl, ?_, rfl, by decide, by decide⟩
  intro v; cases v <;> rfl

theorem witness_BatchDeliversEveryHash_shape : ShapeInv batchState ∧ ConfiguredInv batchState ∧ MemoryInv batchState := by
  refine ⟨?_, ?_, rfl⟩
  · intro v; cases v <;> exact ⟨rfl, rfl⟩
  · intro v hv
    cases v with
    | scalar => exact ⟨by decide, _, rfl, ⟨by decide, by decide, by decide⟩, rfl⟩
    | dual => exact ⟨by decide, _, rfl, ⟨by decide, by decide, by decide⟩, rfl⟩
    | quad => exact ⟨by decide, _, rfl, ⟨by decide, by decide, by decide⟩, rfl⟩
    | scalarImm => exact absurd hv (by decide)
    | ref => exact absurd hv (by decide)

/-- The same engines with no set-up in force, the width in `CFG_WIDTH` of SCALAR. -/
theorem witness_BatchDeliversEveryHash_ownEngines :
    let s := { batchState with batch := none, engines := { batchState.engines with scalar := { batchState.engines.scalar with cfgWidth := 3#16 } } }
    s.batch = none ∧ (s.engine .scalar).cfgWidth = 3#16 ∧ (3#16 : BitVec 16) ≠ 0#16 ∧ s.pending = [.batch 0x40#64 0x58#64] := by
  decide

/-- R283: such a BATCH is accepted and goes on with its engine calls, the first on the DUAL engine. -/
theorem test_batch_of_own_engines_starts :
    (match step { batchState with
        batch := none
        engines := { batchState.engines with scalar := { batchState.engines.scalar with cfgWidth := 3#16 } } } with
      | .next t => t.pending
      | _ => []) =
      [.issue .dual (.callOut 0x40#64 0x58#64), .await .dual, .issue .scalar (.call 0x50#64), .await .scalar, .storeRes 0x60] := by
  decide

/-- A batch of two SCALAR records with stride 16 whose second record begins at `2^64` (R64, U6): accepted, its first call issued. -/
theorem test_batch_past_the_address_space :
    (match step { batchState with
        platform := { Platform.default with hasDual := false, hasQuad := false }
        batch := some { width := 2#16, norm := normOf 8 16 0 0 false false, iv := iv0f }
        engines := { batchState.engines with scalar := { batchState.engines.scalar with norm := some (normOf 8 16 0 0 false false) } }
        pending := [.batch 0xfffffffffffffff0#64 0x40#64] } with
      | .next t => t.pending
      | _ => []) =
      [.issue .scalar (.call 0xfffffffffffffff0#64), .await .scalar, .storeRes 0x40, .callBeyond] := by
  decide

theorem witness_BatchDeliversEveryHash_engines :
    (∀ v ∈ composerEngines batchState.platform, (batchState.engine v).status = .ready ∧
      (batchState.engine v).norm = some shortNorm ∧ (batchState.engine v).iv = some iv0f) ∧
    (∀ v, (batchState.engine v).status ≠ .busy) ∧ (∀ r ∈ batchState.platform.regions, r.kind = .memory) := by
  refine ⟨by decide, ?_, by decide⟩
  intro v; cases v <;> decide

theorem witness_BatchDeliversEveryHash_regions :
    batchState.pending = [.batch 0x40#64 0x58#64] ∧ batchState.batch = some ⟨3#16, shortNorm, iv0f⟩ ∧ shortNorm.standard = false ∧
    (∀ c ∈ batchCalls batchState.platform shortNorm.stride.toNat (3#16).toNat (0x40#64).toNat (0x58#64).toNat, c.input < 2 ^ 64) ∧
    (0x40#64).toNat + ((3#16).toNat - 1) * shortNorm.stride.toNat + shortNorm.size.toNat ≤ (0x58#64).toNat ∧
    (∀ l < (3#16).toNat, admitsRead batchState.platform ((0x40#64).toNat + l * shortNorm.stride.toNat) shortNorm.size.toNat = true) ∧
    admitsWrite batchState.platform (0x58#64).toNat (4 * (3#16).toNat) = true := by
  decide

end Sys2Proof.Tests
end

section
/-! Proofs of the state family (10_state): what a step keeps of an engine's identity, flags, fault record and call registers, the
parameters of the platform, the register writes, and the values after power-on. The invariants are read off `step_engine`, the one
list of what a step can make of an engine. -/

namespace Sys2Proof.Machine

/-! ### Statuses and power-on -/

/-- The statuses in which a configuration write may be accepted (R290, log entry 13). -/
theorem quiescent_iff {st : Status} : st.quiescent = true ↔ st = .unconfigured ∨ st = .ready := by
  cases st <;> decide

theorem ne_fault_of_quiescent {st : Status} (h : st.quiescent = true) : st ≠ .fault := by
  rintro rfl; cases h

theorem ne_busy_of_quiescent {st : Status} (h : st.quiescent = true) : st ≠ .busy := by
  rintro rfl; cases h

/-- Each engine of the reset state is its variant's engine after power-on (R45, R270). -/
@[simp] theorem reset_engine (v : Variant) : State.reset.engine v = Engine.powerOn v := by
  cases v <;> rfl

/-- After power-on no lane register holds a value (R24, R45). -/
theorem powerOn_lane_get {v : Variant} {x : Lane} (h : x ∈ (Engine.powerOn v).lanes) (r : Reg) : x.get r = none := by
  obtain rfl : x = Lane.empty := List.eq_of_mem_replicate h
  cases r <;> rfl

/-- Settles O33: each engine is `Engine.powerOn` of its variant, whose registers are read off. -/
theorem powerOnValues : Obligations.PowerOnValues := by
  unfold Obligations.PowerOnValues
  intro v
  simp only [reset_engine]
  exact ⟨rfl, List.length_replicate, fun _ hx r => powerOn_lane_get hx r, rfl, rfl, rfl, rfl, rfl, rfl, rfl, rfl, rfl, rfl, rfl, rfl,
    rfl, rfl, rfl, rfl, rfl, rfl, rfl⟩

/-! ### Register writes (R29, R231) -/

/-- A host write of `CFG_FLAGS` keeps bits 1:0 of the value. -/
theorem flagsWritten_eq (x : BitVec 32) : flagsWritten x = BitVec.ofNat 32 (x.toNat % 4) := by
  apply BitVec.eq_of_toNat_eq
  have hand : x.toNat &&& 3 = x.toNat % 4 := Nat.and_two_pow_sub_one_eq_mod x.toNat 2
  rw [flagsWritten, BitVec.toNat_and, BitVec.toNat_ofNat, BitVec.toNat_ofNat, Nat.mod_eq_of_lt (show x.toNat % 4 < 2 ^ 32 by omega)]
  exact hand

/-- The reserved bits of `CFG_FLAGS` ignore a write (U14). -/
theorem flagsWritten_reserved (x : BitVec 32) {k : Nat} (hk : 2 ≤ k) : (flagsWritten x).getLsbD k = false := by
  have hmask : (3#32).getLsbD k = false :=
    Nat.testBit_lt_two_pow (lt_of_lt_of_le (show 3 < 2 ^ 2 by decide) (Nat.pow_le_pow_right two_pos hk))
  rw [flagsWritten, BitVec.getLsbD_and, hmask, Bool.and_false]

/-- A step with a command pending issues it. -/
theorem step_issue {s : State} {v : Variant} {c : Command} {rest : List HostEvent} (h : s.pending = .issue v c :: rest) :
    step s = .next (issue { s with pending := rest } v c) := by
  rw [step, h]; rfl

/-- An accepted command is performed. -/
theorem issue_accepted {s : State} {v : Variant} {c : Command} (h : accepts s v c = true) : issue s v c = perform s v c :=
  if_pos h

/-- Settles O28: each of the eight writes is accepted in a quiescent status, and `perform` writes its one register. -/
theorem registerWrites : Obligations.RegisterWrites := by
  unfold Obligations.RegisterWrites
  intro s v c rest hpend hhas hstatus e hwrite
  have hquiescent : (s.platform.has v && (s.engine v).status.quiescent) = true :=
    Bool.and_eq_true_iff.2 ⟨hhas, quiescent_iff.2 hstatus⟩
  have hperform : accepts { s with pending := rest } v c = (s.platform.has v && (s.engine v).status.quiescent) →
      step s = .next (perform { s with pending := rest } v c) := fun haccepts => by
    rw [step_issue hpend, issue_accepted (haccepts.trans hquiescent)]
  simp only [← flagsWritten_eq] at hwrite
  rcases hwrite with ⟨x, rfl, rfl⟩ | ⟨x, rfl, rfl⟩ | ⟨x, rfl, rfl⟩ | ⟨x, rfl, rfl⟩ | ⟨x, rfl, rfl⟩ | ⟨x, rfl, rfl⟩ |
    ⟨x, rfl, rfl⟩ | ⟨x, rfl, rfl⟩
  all_goals exact hperform rfl

/-! ### Identity and parameters (R41, R44) -/

/-- No command changes an engine's identity. -/
theorem commandEffect_variant {s : State} {v : Variant} {e e' : Engine} (h : CommandEffect s v e e') : e'.variant = e.variant := by
  cases h with
  | write _ _ hw => obtain ⟨_, _, _, _, _, _, _, _, rfl, -⟩ := hw; rfl
  | _ => rfl

/-- No step changes an engine's identity. -/
theorem engineStep_variant {s : State} {v : Variant} {e' : Engine} (h : EngineStep s v e') : e'.variant = (s.engine v).variant := by
  cases h with
  | micro _ _ _ _ hx _ => exact hx.variant
  | command _ hc => exact commandEffect_variant hc
  | _ => rfl

/-- An issued command keeps the platform. -/
theorem issue_platform (s : State) (v : Variant) (c : Command) : (issue s v c).platform = s.platform := by
  obtain hs | ⟨_, _, _, _, -, hs⟩ := issue_cases s v c
  · rw [hs]
  · rw [hs, setEngine_platform]

/-- Batch set-up keeps the platform. -/
theorem batchSetup_platform (s : State) : (batchSetup s).platform = s.platform := by
  obtain hs | ⟨_, -, -, hs⟩ | ⟨n, key, _, -, -, hs⟩ := batchSetup_cases s
  · rw [hs]
  · rw [hs, setEngine_platform]
  · obtain ⟨-, hplatform, -⟩ := configureAll_frame (s.engine .scalar) n key (composerEngines s.platform) s
    rw [hs]; exact hplatform

/-- A BATCH keeps the platform. -/
theorem startBatch_platform (s : State) (p o : Word) : (startBatch s p o).platform = s.platform := by
  obtain ⟨_, hs⟩ | ⟨_, -, -, hs⟩ := startBatch_cases s p o
  · rw [hs]
  · rw [hs, setEngine_platform]

/-- Of the platform a step can change only the regions the host declares. -/
theorem step_platform {s t : State} (h : step s = .next t) : ∃ rs, t.platform = { s.platform with regions := rs } := by
  obtain ⟨_, _, -, hm, -⟩ | ⟨_, _, rfl⟩ | ⟨_, rest, -, he⟩ := step_next h
  · obtain ⟨-, hplatform, -⟩ := microOpTo_engine hm
    exact ⟨_, hplatform⟩
  · exact ⟨_, rfl⟩
  · cases he with
    | issue v c => exact ⟨_, issue_platform _ v c⟩
    | declare rs => exact ⟨rs, rfl⟩
    | batchSetup => exact ⟨_, batchSetup_platform _⟩
    | batch p o => exact ⟨_, startBatch_platform _ p o⟩
    | _ => exact ⟨_, rfl⟩

/-- Settles O42: of the platform only the regions change, and `engineStep_variant` keeps each `ID`. -/
theorem parametersNeverChange : Obligations.ParametersNeverChange := by
  unfold Obligations.ParametersNeverChange
  intro s t hstep
  obtain ⟨rs, hplatform⟩ := step_platform hstep
  rw [hplatform]
  exact ⟨rfl, rfl, rfl, fun v => engineStep_variant (step_engine hstep v)⟩

/-! ### Shape and reserved bits (R209, R29) -/

/-- A command keeps the number of lanes, or gives the engine afresh the lanes of its variant. -/
theorem commandEffect_lanes_length {s : State} {v : Variant} {e e' : Engine} (h : CommandEffect s v e e') :
    e'.lanes.length = e.lanes.length ∨ e'.lanes.length = e.variant.lanes := by
  cases h with
  | reset => exact .inr List.length_replicate
  | fails _ _ _ => exact .inl rfl
  | configured _ _ _ _ => exact .inl rfl
  | call _ _ _ => exact .inr List.length_replicate
  | callOut _ _ _ _ => exact .inr List.length_replicate
  | callImm _ _ _ => exact .inr List.length_replicate
  | write _ _ hw => obtain ⟨_, _, _, _, _, _, _, _, rfl, -⟩ := hw; exact .inl rfl

/-- A step keeps the number of lanes, or gives the engine afresh the lanes of its variant. -/
theorem engineStep_lanes_length {s : State} {v : Variant} {e' : Engine} (h : EngineStep s v e') :
    e'.lanes.length = (s.engine v).lanes.length ∨ e'.lanes.length = (s.engine v).variant.lanes := by
  cases h with
  | micro _ _ _ _ hx _ => exact .inl hx.lanes
  | command _ hc => exact commandEffect_lanes_length hc
  | _ => exact .inl rfl

/-- A command keeps `CFG_FLAGS` or leaves in it what a host write can leave. -/
theorem commandEffect_cfgFlags {s : State} {v : Variant} {e e' : Engine} (h : CommandEffect s v e e') :
    e'.cfgFlags = e.cfgFlags ∨ ∃ x, e'.cfgFlags = flagsWritten x := by
  cases h with
  | reset => exact .inr ⟨0#32, rfl⟩
  | write _ _ hw => obtain ⟨_, _, _, _, _, _, _, _, rfl, hflags⟩ := hw; exact hflags
  | _ => exact .inl rfl

/-- After a step `CFG_FLAGS` holds what some engine's held before (a batch set-up copies that of SCALAR), or what a host write can
leave. -/
theorem engineStep_cfgFlags {s : State} {v : Variant} {e' : Engine} (h : EngineStep s v e') :
    (∃ u, e'.cfgFlags = (s.engine u).cfgFlags) ∨ ∃ x, e'.cfgFlags = flagsWritten x := by
  cases h with
  | micro _ _ _ _ hx _ => exact .inl ⟨v, hx.cfgFlags⟩
  | command _ hc => exact (commandEffect_cfgFlags hc).imp_left fun hkept => ⟨v, hkept⟩
  | batchConfigured _ _ _ _ _ => exact .inl ⟨.scalar, rfl⟩
  | _ => exact .inl ⟨v, rfl⟩

theorem shapeInv_step {s t : State} (hs : ShapeInv s) (hstep : step s = .next t) : ShapeInv t := by
  intro v
  obtain ⟨hvariant, hlanes⟩ := hs v
  have hv := step_engine hstep v
  refine ⟨(engineStep_variant hv).trans hvariant, ?_⟩
  obtain hkept | hfresh := engineStep_lanes_length hv
  · exact hkept.trans hlanes
  · rw [hfresh, hvariant]

theorem reservedInv_step {s t : State} (hs : ReservedInv s) (hstep : step s = .next t) : ReservedInv t := by
  intro v k hk
  obtain ⟨u, hkept⟩ | ⟨x, hwritten⟩ := engineStep_cfgFlags (step_engine hstep v)
  · rw [hkept]; exact hs u k hk
  · rw [hwritten]; exact flagsWritten_reserved x hk

/-- Settles O38: identity and flags are kept or written within their form, and lanes are only remade `LANES` at a time. -/
theorem stepKeepsShape : Obligations.StepKeepsShape := by
  unfold Obligations.StepKeepsShape
  exact fun _ _ hshape hreserved hstep => ⟨shapeInv_step hshape hstep, reservedInv_step hreserved hstep⟩

/-! ### The fault record (R40, R262) -/

/-- What `FaultInv` says of one engine. -/
def Engine.FaultRecord (e : Engine) : Prop :=
  (e.status = .fault ↔ e.cause ≠ 0#8) ∧ e.cause = recordedCode e.raised ∧ (e.status = .fault → e.res = none)

theorem faultInv_iff {s : State} : FaultInv s ↔ ∀ v, (s.engine v).FaultRecord := Iff.rfl

/-- Every cause has a code other than that of "no fault" (R250). -/
theorem cause_code_ne_zero (c : Cause) : c.code ≠ 0#8 := by
  cases c <;> exact of_decide_eq_true rfl

theorem faultRecord_powerOn (v : Variant) : (Engine.powerOn v).FaultRecord := by
  simp [Engine.FaultRecord, Engine.powerOn, recordedCode]

/-- A fault entry records its cause, or keeps the one recorded before. -/
theorem faultRecord_raise {e : Engine} (h : e.FaultRecord) (c : Cause) : (e.raise c).FaultRecord := by
  obtain ⟨-, hcode, -⟩ := h
  by_cases hc : e.cause = 0#8
  · simp [Engine.FaultRecord, hc, cause_code_ne_zero, recordedCode]
  · simp [Engine.FaultRecord, hc, ← hcode]

/-- Between statuses other than FAULT the record is kept by keeping `CAUSE`. -/
theorem faultRecord_of_ne_fault {e e' : Engine} (h : e.FaultRecord) (hs : e.status ≠ .fault) (hs' : e'.status ≠ .fault)
    (hcause : e'.cause = e.cause) (hraised : e'.raised = e.raised) : e'.FaultRecord := by
  obtain ⟨hiff, hcode, -⟩ := h
  have hnone : e.cause = 0#8 := not_not.mp fun hc => hs (hiff.2 hc)
  exact ⟨iff_of_false hs' fun hc => hc (hcause.trans hnone), by rw [hcause, hraised, hcode], fun hf => absurd hf hs'⟩

/-- A micro-op raises a fault or leaves `CAUSE` and a status other than FAULT. -/
theorem faultRecord_micro {e e' : Engine} {m m' : Memory} (h : e.FaultRecord) (hbusy : e.status = .busy)
    (hx : ExecEffect e e' m m') : e'.FaultRecord := by
  have hs : e.status ≠ .fault := by rw [hbusy]; decide
  obtain ⟨c, rfl, -⟩ | ⟨hst, -, hcause, hraised, -⟩ | ⟨hst, -, -, -, hcause, hraised, -⟩ := hx.outcome
  · exact faultRecord_raise h c
  · exact faultRecord_of_ne_fault h hs (hst.symm ▸ hs) hcause hraised
  · exact faultRecord_of_ne_fault h hs (by rw [hst]; decide) hcause hraised

/-- An accepted command other than RESET finds the engine out of FAULT, and takes it there only by a fault entry. -/
theorem faultRecord_command {s : State} {v : Variant} {e e' : Engine} (h : e.FaultRecord) (hc : CommandEffect s v e e') :
    e'.FaultRecord := by
  have hready : e.status = .ready → e.status ≠ .fault := fun hr => by rw [hr]; decide
  cases hc with
  | reset => exact faultRecord_powerOn e.variant
  | fails c _ _ => exact faultRecord_raise h c
  | configured _ _ hq _ => exact faultRecord_of_ne_fault h (ne_fault_of_quiescent hq) Status.noConfusion rfl rfl
  | call _ hr _ => exact faultRecord_of_ne_fault h (hready hr) Status.noConfusion rfl rfl
  | callOut _ _ hr _ => exact faultRecord_of_ne_fault h (hready hr) Status.noConfusion rfl rfl
  | callImm _ hr _ => exact faultRecord_of_ne_fault h (hready hr) Status.noConfusion rfl rfl
  | write _ hq hw =>
    obtain ⟨_, _, _, _, _, _, _, _, rfl, -⟩ := hw
    exact faultRecord_of_ne_fault h (ne_fault_of_quiescent hq) (ne_fault_of_quiescent hq) rfl rfl

/-- Each thing a step can make of an engine keeps that engine's fault record. -/
theorem faultRecord_engineStep {s : State} {v : Variant} {e' : Engine} (h : (s.engine v).FaultRecord) (he : EngineStep s v e') :
    e'.FaultRecord := by
  cases he with
  | same => exact h
  | micro _ _ _ hbusy hx _ => exact faultRecord_micro h hbusy hx
  | command _ hc => exact faultRecord_command h hc
  | batchFails c _ _ => exact faultRecord_raise h c
  | batchConfigured _ _ _ hq _ => exact faultRecord_of_ne_fault h (ne_fault_of_quiescent hq) Status.noConfusion rfl rfl

/-- Settles O39: `FaultInv` is `FaultRecord` of every engine, which `faultRecord_engineStep` keeps. -/
theorem stepKeepsFaultRecord : Obligations.StepKeepsFaultRecord := by
  unfold Obligations.StepKeepsFaultRecord
  exact fun s t hinv hstep => faultInv_iff.2 fun v => faultRecord_engineStep (faultInv_iff.1 hinv v) (step_engine hstep v)

/-! ### Call registers (R26, R227, R228) -/

/-- What `CallInv` says of the engine of variant `v`. -/
def Engine.CallRegisters (v : Variant) (e : Engine) : Prop :=
  e.status = .busy →
    e.upc ≤ e.prog.length ∧ (v = .scalarImm → e.arg ≠ none) ∧ (v ≠ .scalarImm → e.inPtr ≠ none) ∧
      (v.multiLane = true → e.outPtr ≠ none)

theorem callInv_iff {s : State} : CallInv s ↔ ∀ v, (s.engine v).CallRegisters v := Iff.rfl

theorem callRegisters_of_ne_busy {v : Variant} {e : Engine} (h : e.status ≠ .busy) : e.CallRegisters v :=
  fun hb => absurd hb h

/-- A micro-op that leaves its engine BUSY was fetched within the program, moves `upc` on by one and keeps the call registers. -/
theorem callRegisters_micro {v : Variant} {e e' : Engine} {m m' : Memory} (h : e.CallRegisters v) (hbusy : e.status = .busy)
    (hx : ExecEffect e e' m m') (hfetched : e'.status = .busy → e.upc < e.prog.length) : e'.CallRegisters v := by
  obtain ⟨c, rfl, -⟩ | ⟨-, hupc, -⟩ | ⟨hst, -⟩ := hx.outcome
  · exact callRegisters_of_ne_busy Status.noConfusion
  · intro hb
    obtain ⟨-, hregs⟩ := h hbusy
    rw [hupc, hx.prog, hx.arg, hx.inPtr, hx.outPtr]
    exact ⟨hfetched hb, hregs⟩
  · exact callRegisters_of_ne_busy (by rw [hst]; decide)

/-- An accepted call writes the call registers of its variant; no other command leaves an engine BUSY. -/
theorem callRegisters_command {s : State} {v : Variant} {e e' : Engine} (hc : CommandEffect s v e e') : e'.CallRegisters v := by
  cases hc with
  | reset => exact callRegisters_of_ne_busy Status.noConfusion
  | fails _ _ _ => exact callRegisters_of_ne_busy Status.noConfusion
  | configured _ _ _ _ => exact callRegisters_of_ne_busy Status.noConfusion
  | call p _ hv =>
    have himm : v ≠ .scalarImm := by obtain rfl | rfl := hv <;> decide
    have hsingle : v.multiLane ≠ true := by obtain rfl | rfl := hv <;> decide
    exact fun _ => ⟨Nat.zero_le _, fun h => absurd h himm, fun _ => Option.some_ne_none p, fun h => absurd h hsingle⟩
  | callOut p o _ hv =>
    have himm : v ≠ .scalarImm := fun h => by subst h; cases hv
    exact fun _ => ⟨Nat.zero_le _, fun h => absurd h himm, fun _ => Option.some_ne_none p, fun _ => Option.some_ne_none o⟩
  | callImm a _ hv =>
    have hsingle : v.multiLane ≠ true := hv ▸ Bool.false_ne_true
    exact fun _ => ⟨Nat.zero_le _, fun _ => Option.some_ne_none a, fun h => absurd hv h, fun h => absurd h hsingle⟩
  | write _ hq hw =>
    obtain ⟨_, _, _, _, _, _, _, _, rfl, -⟩ := hw
    exact callRegisters_of_ne_busy (ne_busy_of_quiescent hq)

/-- A step leaves an engine BUSY as it was, by a micro-op fetched within the program, or by an accepted call. -/
theorem callRegisters_engineStep {s : State} {v : Variant} {e' : Engine} (h : (s.engine v).CallRegisters v)
    (he : EngineStep s v e') : e'.CallRegisters v := by
  cases he with
  | same => exact h
  | micro _ _ _ hbusy hx hfetched => exact callRegisters_micro h hbusy hx hfetched
  | command _ hc => exact callRegisters_command hc
  | batchFails _ _ _ => exact callRegisters_of_ne_busy Status.noConfusion
  | batchConfigured _ _ _ _ _ => exact callRegisters_of_ne_busy Status.noConfusion

/-- Settles O41: `CallInv` is `CallRegisters` of every engine, which `callRegisters_engineStep` keeps. -/
theorem stepKeepsCallRegisters : Obligations.StepKeepsCallRegisters := by
  unfold Obligations.StepKeepsCallRegisters
  exact fun s t hinv hstep => callInv_iff.2 fun v => callRegisters_engineStep (callInv_iff.1 hinv v) (step_engine hstep v)

/-! ### The invariants at reset -/

/-- Settles O36: every engine is fresh from power-on, so UNCONFIGURED, and memory is empty. -/
theorem resetMeetsTheInvariants : Obligations.ResetMeetsTheInvariants := by
  unfold Obligations.ResetMeetsTheInvariants
  have hstatus : ∀ v, (State.reset.engine v).status = .unconfigured := fun v => by rw [reset_engine]; rfl
  refine ⟨rfl, fun v => ?_, fun v k _ => ?_, faultInv_iff.2 fun v => ?_, fun v hv => ?_, callInv_iff.2 fun v => ?_⟩
  · rw [reset_engine]; exact ⟨rfl, List.length_replicate⟩
  · rw [reset_engine]; exact BitVec.getLsbD_zero
  · rw [reset_engine]; exact faultRecord_powerOn v
  · rw [hstatus] at hv; simp at hv
  · exact callRegisters_of_ne_busy (by rw [hstatus]; decide)

end Sys2Proof.Machine
end

section
/-! Proofs of the memory family (20_memory): every step keeps the canonical form, a wide read is its parts side by side, an access
that is not admitted stops, and a launch that breaks the region discipline is refused. -/

namespace Sys2Proof.Machine

/-! ### Memory over a step (R60, R62) -/

/-- An issued command leaves memory as it is. -/
theorem issue_mem (s : State) (v : Variant) (c : Command) : (issue s v c).mem = s.mem := by
  obtain hs | ⟨_, _, _, _, -, hs⟩ := issue_cases s v c
  · rw [hs]
  · rw [hs, setEngine_mem]

/-- Batch set-up leaves memory as it is. -/
theorem batchSetup_mem (s : State) : (batchSetup s).mem = s.mem := by
  obtain hs | ⟨_, -, -, hs⟩ | ⟨n, key, _, -, -, hs⟩ := batchSetup_cases s
  · rw [hs]
  · rw [hs, setEngine_mem]
  · obtain ⟨hmem, -⟩ := configureAll_frame (s.engine .scalar) n key (composerEngines s.platform) s
    rw [hs]; exact hmem

/-- A BATCH leaves memory as it is: its engine calls come later. -/
theorem startBatch_mem (s : State) (p o : Word) : (startBatch s p o).mem = s.mem := by
  obtain ⟨_, hs⟩ | ⟨_, -, -, hs⟩ := startBatch_cases s p o
  · rw [hs]
  · rw [hs, setEngine_mem]

/-- A host event keeps memory in canonical form: only `poke` and a stored result write it. -/
theorem hostEffect_wf {s t : State} {ev : HostEvent} (he : HostEffect s ev t) (hw : Memory.wf s.mem = true) :
    Memory.wf t.mem = true := by
  cases he with
  | issue v c => rw [issue_mem]; exact hw
  | poke a b => exact MemoryLaws.wf_write a.toNat b hw
  | declare rs => exact hw
  | batchSetup => rw [batchSetup_mem]; exact hw
  | batch p o => rw [startBatch_mem]; exact hw
  | storeNothing slot _ => exact hw
  | storeRes slot r _ _ => exact MemoryLaws.wf_storeSlots [r] slot hw

theorem memoryInv_step {s t : State} (hs : MemoryInv s) (hstep : step s = .next t) : MemoryInv t := by
  obtain ⟨_, _, -, hmicro, -⟩ | ⟨_, _, rfl⟩ | ⟨_, _, -, he⟩ := step_next hstep
  · exact microOpTo_wf hmicro hs
  · exact hs
  · exact hostEffect_wf he hs

/-- Settles O37: `step_next` lists the steps, and micro-ops and host events each keep the canonical form. -/
theorem stepKeepsMemoryCanonical : Obligations.StepKeepsMemoryCanonical := by
  unfold Obligations.StepKeepsMemoryCanonical
  exact fun _ _ => memoryInv_step

/-! ### Reads of several widths (R61, R65) -/

/-- A read in two parts: the second part counts `256^n`. -/
theorem memRead_add (m : Memory) (a n k : Nat) : memRead m a (n + k) = memRead m a n + 256 ^ n * memRead m (a + n) k := by
  rw [memRead, ByteLaws.readBytes_add, ByteLaws.leValue_append, ByteLaws.readBytes_length]
  rfl

/-- Bits from `i` up beside bits below `i`: OR is addition. -/
theorem or_mul_two_pow {x i : Nat} (hx : x < 2 ^ i) (y : Nat) : x ||| y * 2 ^ i = x + y * 2 ^ i := by
  rw [Nat.or_comm, Nat.mul_comm, ← Nat.two_pow_add_eq_or_of_lt hx, Nat.add_comm]

/-- Settles O16: the 8-byte read is its 4-, 2-, 1- and 1-byte parts as a sum, and parts that share no bit are added by OR. -/
theorem mixedWidthLoadsAgree : Obligations.MixedWidthLoadsAgree := by
  unfold Obligations.MixedWidthLoadsAgree
  intro m a
  have hsplit : memRead m a 8 = memRead m a 4 + 256 ^ 4 * (memRead m (a + 4) 2 + 256 ^ 2 *
      (memRead m (a + 6) 1 + 256 ^ 1 * memRead m (a + 7) 1)) := by
    rw [memRead_add m a 4 4, memRead_add m (a + 4) 2 2, memRead_add m (a + 6) 1 1]
  have h4 : memRead m a 4 < 2 ^ 32 := ByteLaws.memRead_lt m a 4
  have h2 : memRead m (a + 4) 2 < 2 ^ 16 := ByteLaws.memRead_lt m (a + 4) 2
  have h1 : memRead m (a + 6) 1 < 2 ^ 8 := ByteLaws.memRead_lt m (a + 6) 1
  rw [or_mul_two_pow h4, or_mul_two_pow (by omega), hsplit]
  omega

/-! ### Accesses that are not admitted (R64) -/

/-- A row of addresses with one that fails the test. -/
theorem allAddresses_eq_false {ok : Nat → Bool} {a n : Nat} (h : ∃ k < n, ok (a + k) = false) : allAddresses ok a n = false := by
  obtain ⟨k, hk, hbad⟩ := h
  exact List.all_eq_false.2 ⟨k, List.mem_range.2 hk, by simp [hbad]⟩

/-- A load on a variant that reads memory is the common load of its width (R160). -/
theorem exec_load {i : Instr} {s : State} (hwidth : 0 < loadWidth i) (hv : s.eng.variant ≠ .scalarImm) :
    ∃ rd, exec i s = memLoad (loadWidth i) rd s := by
  cases i with
  | ld8 rd => exact ⟨rd, if_neg hv⟩
  | ld16 rd => exact ⟨rd, if_neg hv⟩
  | ld32 rd => exact ⟨rd, if_neg hv⟩
  | ld64 rd => exact ⟨rd, if_neg hv⟩
  | _ => exact absurd hwidth (Nat.lt_irrefl 0)

/-- With its control registers written, a load stops at a lane whose access is not admitted. -/
theorem loadStop_not_admitted {s : State} {n : Nat} (hptr : s.eng.inPtr ≠ none) (hnorm : s.eng.norm ≠ none)
    (h : ∃ l < s.eng.lanes.length, admitsRead s.platform (s.eng.ea l) n = false) :
    loadStop s n = some .readNotAdmitted := by
  obtain ⟨l, hl, hbad⟩ := h
  have hall : (List.range s.eng.lanes.length).all (fun l => admitsRead s.platform (s.eng.ea l) n) = false :=
    List.all_eq_false.2 ⟨l, List.mem_range.2 hl, by simp [hbad]⟩
  simp [loadStop, hptr, hnorm, hall]

/-- The effective address of the model is that of R160. -/
theorem ea_eq_effectiveAddress {s : State} {p : Word} (hp : s.eng.inPtr = some p) (l : Nat) :
    s.eng.ea l = effectiveAddress s p l := by
  rw [Engine.ea, hp]; rfl

/-- A delivery with a slot byte that is not admitted stops. -/
theorem deliverSlots_not_admitted {rs : Reg} {std : Bool} {s : State} {p : Word} (hp : s.eng.outPtr = some p)
    (h : admitsWrite s.platform p.toNat (Config.slotBytes * s.eng.lanes.length) = false) :
    deliverSlots rs std s = .fault .writeNotAdmitted := by
  rw [deliverSlots, hp]; exact if_neg (ne_true_of_eq_false h)

/-- FIN of a written register delivers to the slots on DUAL and QUAD (R171, R172). -/
theorem execFin_multiLane {rs : Reg} {s : State} (hv : s.eng.variant.multiLane = true) (hw : Written s rs) :
    execFin rs false s = deliverSlots rs false s := by
  have hwritten : s.eng.firstUnwritten [rs] = none := (firstUnwritten_eq_none_iff _ _).2 fun r hr => List.mem_singleton.1 hr ▸ hw
  simp [execFin, hv, hwritten]

/-- The wrapper's store of a result into a slot with a byte that is not admitted stops (R233). -/
theorem storeRes_not_admitted {slot : Nat} {s : State} {r : OutWord} (hr : (s.engine .scalar).validRes = some r)
    (h : admitsWrite s.platform slot Config.slotBytes = false) : storeRes slot s = .fault .writeNotAdmitted := by
  rw [storeRes, hr]; exact if_neg (ne_true_of_eq_false h)

/-- An engine call with a pointer that is no address is not addressed (R232, log entry 19). -/
theorem addressed_eq_false {c : EngineCall} (h : 2 ^ 64 ≤ c.input ∨ (c.variant.multiLane = true ∧ 2 ^ 64 ≤ c.output)) :
    c.addressed = false := by
  obtain hin | ⟨hv, hout⟩ := h
  · have hbeyond : decide (c.input < Config.addressSpace) = false := decide_eq_false (Nat.not_lt.2 hin)
    simp [EngineCall.addressed, hbeyond]
  · have hbeyond : decide (c.output < Config.addressSpace) = false := decide_eq_false (Nat.not_lt.2 hout)
    simp [EngineCall.addressed, hv, hbeyond]

/-- Settles O20: each of the four accesses reaches the check of R64, which fails on the one byte. -/
theorem unadmittedAccessStops : Obligations.UnadmittedAccessStops := by
  unfold Obligations.UnadmittedAccessStops
  refine ⟨fun i s p hwidth hv hp hnorm ⟨l, hl, hbad⟩ => ?_, fun rs s p hv hp hw hbad => ?_,
    fun s rest slot r hpend hbusy hres hbad => ?_, fun s rest c hpend hbeyond => ?_⟩
  · obtain ⟨rd, hload⟩ := exec_load hwidth hv
    have hlane : admitsRead s.platform (s.eng.ea l) (loadWidth i) = false :=
      allAddresses_eq_false (ea_eq_effectiveAddress hp l ▸ hbad)
    rw [hload, memLoad, loadStop_not_admitted (hp ▸ Option.some_ne_none p) hnorm ⟨l, hl, hlane⟩]
  · exact (execFin_multiLane hv hw).trans (deliverSlots_not_admitted hp (allAddresses_eq_false hbad))
  · have hvalid : (s.engine .scalar).validRes = some r := (if_neg hbusy).trans hres
    rw [step, hpend]
    exact storeRes_not_admitted hvalid (allAddresses_eq_false hbad)
  · rw [step, hpend, callEvents_beyond (addressed_eq_false hbeyond)]
    rfl

/-! ### The region discipline of a launch (R73, R74, R77) -/

/-- A command that is not accepted changes nothing. -/
theorem issue_refused {s : State} {v : Variant} {c : Command} (h : accepts s v c ≠ true) : issue s v c = s :=
  if_neg h

/-- Address `a` lies in the range. -/
def Span.Has (x : Span) (a : Nat) : Prop :=
  x.lo ≤ a ∧ a < x.hi

/-- Ranges that do not overlap share no address. -/
theorem not_has_of_not_overlaps {x y : Span} {a : Nat} (h : x.overlaps y = false) (hy : y.Has a) : ¬ x.Has a :=
  fun hx => Bool.false_ne_true (h.symm.trans (overlaps_of_mem hx hy))

/-- The input region covers every record. -/
theorem inputSpan_has {n : Norm} {inPtr lanes a : Nat} (h : InRecords n inPtr lanes a) : (inputSpan n lanes inPtr).Has a := by
  obtain ⟨l, hl, hlo, hhi⟩ := h
  have hsize : n.size.toNat ≠ 0 := by omega
  have hstride : l * n.stride.toNat ≤ (lanes - 1) * n.stride.toNat := Nat.mul_le_mul_right _ (by omega)
  rw [inputSpan, if_neg hsize]
  exact ⟨(Nat.le_add_right _ _).trans hlo, hhi.trans_le (by simpa using hstride)⟩

/-- The output region is the bytes of the slots. -/
theorem outputSpan_has {outPtr lanes a : Nat} (h : InSlots outPtr lanes a) : (outputSpan lanes outPtr).Has a := h

/-- An input byte of a call in progress lies in its engine's input region. -/
theorem callInput_has {s : State} {u : Variant} {a : Nat} (h : CallReads s u a) : (s.engine u).callInput.Has a := by
  obtain ⟨-, hv, n, p, hn, hp, hrec⟩ := h
  simp only [Engine.callInput, hn, if_neg hv, hp, ptrValue]
  exact inputSpan_has hrec

/-- An output byte of a call in progress lies in its engine's output region. -/
theorem callOutput_has {s : State} {u : Variant} {a : Nat} (h : CallWrites s u a) : (s.engine u).callOutput.Has a := by
  obtain ⟨-, hv, o, ho, hslot⟩ := h
  simp only [Engine.callOutput, if_pos hv, ho, ptrValue]
  exact outputSpan_has hslot

theorem deviceAt_of_inDevice {s : State} {a : Nat} (h : InDevice s a) : deviceAt s.platform.regions a = true := by
  obtain ⟨r, hr, hkind, hlo, hhi⟩ := h
  exact List.any_eq_true.2 ⟨r, hr, by simp [Region.holds, hkind, hlo, hhi]⟩

theorem touchesDevice_of_inDevice {s : State} {a : Nat} {x : Span} (h : InDevice s a) (hx : x.Has a) :
    touchesDevice s.platform.regions x = true := by
  obtain ⟨r, hr, hkind, hregion⟩ := h
  have hoverlaps : x.overlaps ⟨r.base, r.base + r.size⟩ = true := overlaps_of_mem hx hregion
  exact List.any_eq_true.2 ⟨r, hr, by simp [hkind, hoverlaps]⟩

/-- Beside a BUSY engine a launch keeps its regions apart from that engine's. -/
theorem disjointFromBusy_engine {s : State} {i o : Span} {u : Variant} (h : disjointFromBusy s i o = true)
    (hb : (s.engine u).status = .busy) : o.overlaps (s.engine u).callInput = false ∧
      o.overlaps (s.engine u).callOutput = false ∧ i.overlaps (s.engine u).callOutput = false := by
  have hu : u ∈ allVariants := by cases u <;> decide
  simpa [hb, and_assoc] using List.all_eq_true.1 h u hu

section launchAllowed
variable {s : State} {ps : List Nat} {i o : Span} {a : Nat} (h : launchAllowed s ps i o = true)
include h

/-- An allowed launch has no input byte among its output bytes (R74). -/
theorem launchAllowed_apart (hi : i.Has a) : ¬ o.Has a := by
  obtain ⟨-, hio, -⟩ := (launchAllowed_iff s ps i o).1 h
  exact fun ho => not_has_of_not_overlaps hio ho hi

/-- An allowed launch has no pointer and no byte in a device region (R73). -/
theorem launchAllowed_device (hd : InDevice s a) : a ∉ ps ∧ ¬ i.Has a ∧ ¬ o.Has a := by
  obtain ⟨hps, -, hin, hout, -⟩ := (launchAllowed_iff s ps i o).1 h
  refine ⟨fun ha => ?_, fun hi => ?_, fun ho => ?_⟩
  · exact Bool.false_ne_true ((hps a ha).symm.trans (deviceAt_of_inDevice hd))
  · exact Bool.false_ne_true (hin.symm.trans (touchesDevice_of_inDevice hd hi))
  · exact Bool.false_ne_true (hout.symm.trans (touchesDevice_of_inDevice hd ho))

/-- An allowed launch writes no input byte of a call in progress (R77). -/
theorem launchAllowed_callReads {u : Variant} (hu : CallReads s u a) : ¬ o.Has a := by
  obtain ⟨-, -, -, -, hbusy⟩ := (launchAllowed_iff s ps i o).1 h
  obtain ⟨hin, -, -⟩ := disjointFromBusy_engine hbusy hu.1
  exact not_has_of_not_overlaps hin (callInput_has hu)

/-- An allowed launch neither reads nor writes an output byte of a call in progress (R77). -/
theorem launchAllowed_callWrites {u : Variant} (hu : CallWrites s u a) : ¬ i.Has a ∧ ¬ o.Has a := by
  obtain ⟨-, -, -, -, hbusy⟩ := (launchAllowed_iff s ps i o).1 h
  obtain ⟨-, hout, hin⟩ := disjointFromBusy_engine hbusy hu.1
  exact ⟨not_has_of_not_overlaps hin (callOutput_has hu), not_has_of_not_overlaps hout (callOutput_has hu)⟩

end launchAllowed

/-- An accepted CALL of an engine without slots obeys the region discipline. -/
theorem launchAllowed_of_accepts_call {s : State} {v : Variant} {p : Word} {n : Norm} (hn : (s.engine v).norm = some n)
    (h : accepts s v (.call p) = true) : launchAllowed s [p.toNat] (inputSpan n v.lanes p.toNat) ⟨0, 0⟩ = true := by
  simp only [accepts, acceptsCall, hn, Bool.and_eq_true] at h
  exact h.2.2

/-- An accepted CALL of an engine with slots obeys the region discipline. -/
theorem launchAllowed_of_accepts_callOut {s : State} {v : Variant} {p o : Word} {n : Norm} (hn : (s.engine v).norm = some n)
    (h : accepts s v (.callOut p o) = true) :
    launchAllowed s [p.toNat, o.toNat] (inputSpan n v.lanes p.toNat) (outputSpan v.lanes o.toNat) = true := by
  simp only [accepts, acceptsCallOut, hn, Bool.and_eq_true] at h
  exact h.2.2

/-- A step whose pending command is not accepted only takes it off the host's queue. -/
theorem step_refused {s : State} {v : Variant} {c : Command} {rest : List HostEvent} (hpend : s.pending = .issue v c :: rest)
    (h : accepts { s with pending := rest } v c ≠ true) : step s = .next { s with pending := rest } := by
  rw [step_issue hpend, issue_refused h]

/-- Settles O31: an accepted CALL would be an allowed launch, and none of the bytes named can be one of its own. -/
theorem launchRegionsRefused : Obligations.LaunchRegionsRefused := by
  unfold Obligations.LaunchRegionsRefused
  refine fun s v rest p n a hn => ⟨fun o hpend hbad => step_refused hpend fun haccepts => ?_,
    fun hpend hbad => step_refused hpend fun haccepts => ?_⟩
  · have hlaunch := launchAllowed_of_accepts_callOut hn haccepts
    obtain ⟨hrec, hslot⟩ | ⟨hdev, hbyte⟩ | ⟨u, hreads, hslot⟩ | ⟨u, hwrites, hbyte⟩ := hbad
    · exact launchAllowed_apart hlaunch (inputSpan_has hrec) (outputSpan_has hslot)
    · obtain ⟨hptr, hin, hout⟩ := launchAllowed_device hlaunch hdev
      obtain rfl | hrec | hslot := hbyte
      · exact hptr List.mem_cons_self
      · exact hin (inputSpan_has hrec)
      · exact hout (outputSpan_has hslot)
    · exact launchAllowed_callReads hlaunch hreads (outputSpan_has hslot)
    · obtain ⟨hin, hout⟩ := launchAllowed_callWrites hlaunch hwrites
      exact hbyte.elim (fun hrec => hin (inputSpan_has hrec)) fun hslot => hout (outputSpan_has hslot)
  · have hlaunch := launchAllowed_of_accepts_call hn haccepts
    obtain ⟨hdev, hbyte⟩ | ⟨u, hwrites, hrec⟩ := hbad
    · obtain ⟨hptr, hin, -⟩ := launchAllowed_device hlaunch hdev
      obtain rfl | hrec := hbyte
      · exact hptr List.mem_cons_self
      · exact hin (inputSpan_has hrec)
    · exact (launchAllowed_callWrites hlaunch hwrites).1 (inputSpan_has hrec)

end Sys2Proof.Machine
end

section
/-! Proofs of the encoding family (30_encoding): decode and encode are inverse to each other, which words are illegal, and every
word of a generated program is legal. A word is read by its fields; `decode` is described once by its row of the opcode map. -/

namespace Sys2Proof.Machine

/-! ### Fields of a word (R92) -/

theorem field_lt (w : MicroWord) (lo width : Nat) : field w lo width < 2 ^ width :=
  Nat.mod_lt _ (Nat.two_pow_pos width)

theorem field_and (a b : MicroWord) (lo width : Nat) : field (a &&& b) lo width = field a lo width &&& field b lo width := by
  rw [field, BitVec.toNat_and, Nat.and_div_two_pow, Nat.and_mod_two_pow]; rfl

/-- Where the mask of a row is all ones the word has the bits of the row's `match`. -/
theorem field_eq_of_mask {w mask code : MicroWord} {lo width : Nat} (h : w &&& mask = code)
    (hones : field mask lo width = 2 ^ width - 1) : field w lo width = field code lo width := by
  rw [← h, field_and, hones, Nat.and_two_pow_sub_one_of_lt_two_pow (field_lt w lo width)]

/-- A word is its fields side by side: `op`, `ra`, and the nine bits below. -/
theorem field_split (w : MicroWord) : w.toNat = 2 ^ 12 * field w 12 4 + (2 ^ 9 * field w 9 3 + field w 0 9) := by
  have hw := w.isLt
  simp only [field]
  omega

/-- A low field within the nine bits below `ra`. -/
theorem field_low_eq {w : MicroWord} {width : Nat} (hwidth : width ≤ 9) : field w 0 width = field w 0 9 % 2 ^ width := by
  rw [field, field, Nat.mod_mod_of_dvd _ (pow_dvd_pow 2 hwidth)]

/-- The nine bits below `ra` are their low field when the bits above that field are zero. -/
theorem field_rest_eq_low {w : MicroWord} {width : Nat} (hwidth : width ≤ 9) (hzero : field w width (9 - width) = 0) :
    field w 0 9 = field w 0 width := by
  have hhigh : field w 0 9 / 2 ^ width = 0 := by
    have hsplit : 2 ^ 9 = 2 ^ width * 2 ^ (9 - width) := by rw [← pow_add, Nat.add_sub_cancel' hwidth]
    rwa [field, pow_zero, Nat.div_one, hsplit, Nat.mod_mul_right_div_self]
  rw [field_low_eq hwidth, Nat.mod_eq_of_lt]
  exact (Nat.div_eq_zero_iff_lt (Nat.two_pow_pos width)).1 hhigh

/-- A `match` word has bits in the `op` field only (R99). -/
theorem toNat_code (op : Mnemonic) : op.code.toNat = 2 ^ 12 * field op.code 12 4 := by
  cases op <;> rfl

/-- The fields of an assembled word stand side by side: `op`, `ra`, and the nine bits `rest` that `rb` and `low` fill. -/
theorem toNat_assembleWord (op : Mnemonic) {ra rb low rest : Nat} (hra : ra < 8) (hrest : rb * 2 ^ 6 ||| low = rest)
    (hlt : rest < 2 ^ 9) :
    (assembleWord op ra rb low).toNat = 2 ^ 12 * field op.code 12 4 + (2 ^ 9 * ra + rest) := by
  have hrb : rb * 2 ^ 6 ≤ rest := hrest ▸ Nat.left_le_or
  have hlow : low ≤ rest := hrest ▸ Nat.right_le_or
  have hword : (assembleWord op ra rb low).toNat = 2 ^ 12 * field op.code 12 4 ||| (2 ^ 9 * ra ||| rest) := by
    simp only [assembleWord, BitVec.toNat_or, BitVec.toNat_ofNat, toNat_code]
    rw [Nat.mod_eq_of_lt (by omega), Nat.mod_eq_of_lt (by omega), Nat.mod_eq_of_lt (by omega), Nat.or_assoc, Nat.or_assoc,
      hrest, Nat.mul_comm ra]
  rw [hword, ← Nat.two_pow_add_eq_or_of_lt hlt, ← Nat.two_pow_add_eq_or_of_lt (by omega)]

/-! ### Registers and formats (R22, R94 to R98) -/

theorem index_lt (r : Reg) : r.index < 6 := by
  cases r <;> decide

theorem regOfIndex_eq_some_iff {k : Nat} {r : Reg} : regOfIndex k = some r ↔ k = r.index := by
  constructor
  · intro h; unfold regOfIndex at h; split at h <;> cases h <;> rfl
  · rintro rfl; cases r <;> rfl

theorem regOfIndex_eq_none_iff {k : Nat} : regOfIndex k = none ↔ 5 < k := by
  match k with
  | 0 | 1 | 2 | 3 | 4 | 5 => simp [regOfIndex]
  | _ + 6 => simp [regOfIndex]

theorem decodeOne_eq_ok_iff {w : MicroWord} {build : Reg → Instr} {i : Instr} :
    decodeOne w build = .ok i ↔ ∃ ra : Reg, field w 9 3 = ra.index ∧ build ra = i := by
  simp only [← regOfIndex_eq_some_iff]
  cases h : regOfIndex (field w 9 3) <;> simp [decodeOne, h]

theorem decodeOne_eq_error_iff {w : MicroWord} {build : Reg → Instr} :
    (∃ e, decodeOne w build = .error e) ↔ 5 < field w 9 3 := by
  rw [← regOfIndex_eq_none_iff]
  cases h : regOfIndex (field w 9 3) <;> simp [decodeOne, h]

theorem decodeTwo_eq_ok_iff {w : MicroWord} {build : Reg → Reg → Instr} {i : Instr} :
    decodeTwo w build = .ok i ↔ ∃ ra rb : Reg, field w 9 3 = ra.index ∧ field w 6 3 = rb.index ∧ build ra rb = i := by
  simp only [← regOfIndex_eq_some_iff]
  cases ha : regOfIndex (field w 9 3) <;> cases hb : regOfIndex (field w 6 3) <;> simp [decodeTwo, ha, hb]

theorem decodeTwo_eq_error_iff {w : MicroWord} {build : Reg → Reg → Instr} :
    (∃ e, decodeTwo w build = .error e) ↔ 5 < field w 9 3 ∨ 5 < field w 6 3 := by
  rw [← regOfIndex_eq_none_iff, ← regOfIndex_eq_none_iff]
  cases ha : regOfIndex (field w 9 3) <;> cases hb : regOfIndex (field w 6 3) <;> simp [decodeTwo, ha, hb]

/-! ### The row of a word (R99, R102) -/

/-- The rows of the opcode map are those of `op` 1 to 12. -/
theorem exists_row_iff {w : MicroWord} :
    (∃ r ∈ opcodeTable, field r.code 12 4 = field w 12 4) ↔ 1 ≤ field w 12 4 ∧ field w 12 4 ≤ 12 := by
  have hops : opcodeTable.map (fun r => field r.code 12 4) = List.range' 1 12 := rfl
  rw [← List.mem_map (f := fun r : OpcodeRow => field r.code 12 4), hops, List.mem_range'_1]
  omega

/-- A word whose `op` has a row is judged by that row. -/
theorem decode_of_row {w : MicroWord} {r : OpcodeRow} (hr : r ∈ opcodeTable) (hop : field r.code 12 4 = field w 12 4) :
    decode w = if w &&& r.mask = r.code then decodeOperands w r.mnemonic else .error .mustBeZero := by
  have hfind : ∀ r ∈ opcodeTable, opcodeTable.find? (fun x => field x.code 12 4 == field r.code 12 4) = some r := by decide
  rw [decode, ← hop, hfind r hr]

/-- A word whose `op` has no row is illegal. -/
theorem decode_of_no_row {w : MicroWord} (h : ¬ ∃ r ∈ opcodeTable, field r.code 12 4 = field w 12 4) :
    decode w = .error .opcode := by
  have hfind : opcodeTable.find? (fun x => field x.code 12 4 == field w 12 4) = none := by
    rw [List.find?_eq_none]; exact fun r hr heq => h ⟨r, hr, beq_iff_eq.1 heq⟩
  rw [decode, hfind]

/-- A word with the fixed bits of a row has that row's `op`. -/
theorem opcode_of_mask {w : MicroWord} {r : OpcodeRow} (hr : r ∈ opcodeTable) (h : w &&& r.mask = r.code) :
    field w 12 4 = field r.code 12 4 :=
  have hmask : ∀ r ∈ opcodeTable, field r.mask 12 4 = 2 ^ 4 - 1 := by decide
  field_eq_of_mask h (hmask r hr)

/-- The decoder answers an instruction exactly when the word has the fixed bits of a row and the row's operands are legal. -/
theorem decode_eq_ok_iff {w : MicroWord} {i : Instr} :
    decode w = .ok i ↔ ∃ r ∈ opcodeTable, w &&& r.mask = r.code ∧ decodeOperands w r.mnemonic = .ok i := by
  constructor
  · intro h
    by_cases hrow : ∃ r ∈ opcodeTable, field r.code 12 4 = field w 12 4
    · obtain ⟨r, hr, hop⟩ := hrow
      rw [decode_of_row hr hop] at h
      by_cases hmask : w &&& r.mask = r.code
      · exact ⟨r, hr, hmask, by rwa [if_pos hmask] at h⟩
      · rw [if_neg hmask] at h; cases h
    · rw [decode_of_no_row hrow] at h; cases h
  · rintro ⟨r, hr, hmask, hops⟩
    rw [decode_of_row hr (opcode_of_mask hr hmask).symm, if_pos hmask, hops]

/-! ### Decode of encode (R102) -/

/-- A one-register format with an operand in its low `width` bits, read back from the word it was assembled to. -/
theorem decodeOne_assembleWord (op : Mnemonic) (r : Reg) {low width : Nat} (hwidth : width ≤ 9) (hlow : low < 2 ^ width)
    (build : Reg → Nat → Instr) :
    decodeOne (assembleWord op r.index 0 low) (fun ra => build ra (field (assembleWord op r.index 0 low) 0 width)) =
      .ok (build r low) := by
  have hr := index_lt r
  have hlt : low < 2 ^ 9 := hlow.trans_le (Nat.pow_le_pow_right two_pos hwidth)
  have hlow0 : 0 * 2 ^ 6 ||| low = low := by rw [Nat.zero_mul, Nat.zero_or]
  have hword := toNat_assembleWord op (show r.index < 8 by omega) hlow0 hlt
  have hrest : field (assembleWord op r.index 0 low) 0 9 = low := by rw [field, hword]; omega
  refine decodeOne_eq_ok_iff.2 ⟨r, ?_, ?_⟩
  · rw [field, hword]; omega
  · rw [field_low_eq hwidth, hrest, Nat.mod_eq_of_lt hlow]

theorem decodeTwo_assembleWord (op : Mnemonic) (ra rb : Reg) (build : Reg → Reg → Instr) :
    decodeTwo (assembleWord op ra.index rb.index 0) build = .ok (build ra rb) := by
  have ha := index_lt ra
  have hb := index_lt rb
  refine decodeTwo_eq_ok_iff.2 ⟨ra, rb, ?_, ?_, rfl⟩ <;>
  · rw [field, toNat_assembleWord op (by omega) (Nat.or_zero _) (by omega)]
    omega

/-- The operands read from the word of a well-formed instruction are its own. -/
theorem decodeOperands_encode {i : Instr} (h : i.wellFormed = true) : decodeOperands (encode i) i.mnemonic = .ok i := by
  cases i with
  | init => rfl
  | add rd rs => exact decodeTwo_assembleWord .add rd rs _
  | xor rd rs => exact decodeTwo_assembleWord .xor rd rs _
  | or rd rs => exact decodeTwo_assembleWord .or rd rs _
  | shl rd n => exact decodeOne_assembleWord .shl rd (by decide) (Nat.lt_succ_of_le (of_decide_eq_true h)) .shl
  | rotl rd n => exact decodeOne_assembleWord .rotl rd (by decide) (Nat.lt_succ_of_le (of_decide_eq_true h)) .rotl
  | ldi rd b => exact decodeOne_assembleWord .ldi rd (by decide) (Nat.lt_succ_of_le (of_decide_eq_true h)) .ldi
  | ld8 rd => exact decodeOne_assembleWord .ld8 rd (Nat.zero_le 9) Nat.one_pos fun ra _ => .ld8 ra
  | ld16 rd => exact decodeOne_assembleWord .ld16 rd (Nat.zero_le 9) Nat.one_pos fun ra _ => .ld16 ra
  | ld32 rd => exact decodeOne_assembleWord .ld32 rd (Nat.zero_le 9) Nat.one_pos fun ra _ => .ld32 ra
  | ld64 rd => exact decodeOne_assembleWord .ld64 rd (Nat.zero_le 9) Nat.one_pos fun ra _ => .ld64 ra
  | fin rs standard =>
    have hflag : (standard.toNat == 1) = standard := by cases standard <;> rfl
    have hfin := decodeOne_assembleWord (width := 1) .fin rs (by decide) (Bool.toNat_lt standard) fun ra n => .fin ra (n == 1)
    rwa [hflag] at hfin

/-- The word of every well-formed instruction matches the row of its mnemonic. -/
theorem rowFits (i : Instr) : Laws.RowFits.Statement i :=
  match i with
  | .init => Laws.RowFits.init
  | .add rd rs => Laws.RowFits.add rd rs
  | .xor rd rs => Laws.RowFits.xor rd rs
  | .or rd rs => Laws.RowFits.or rd rs
  | .shl rd n => Laws.RowFits.shl rd n
  | .rotl rd n => Laws.RowFits.rotl rd n
  | .ldi rd b => Laws.RowFits.ldi rd b
  | .ld8 rd => Laws.RowFits.ld8 rd
  | .ld16 rd => Laws.RowFits.ld16 rd
  | .ld32 rd => Laws.RowFits.ld32 rd
  | .ld64 rd => Laws.RowFits.ld64 rd
  | .fin rs standard => Laws.RowFits.fin rs standard

/-- Settles O1: the word of `i` has the fixed bits of its row (`rowFits`), and there its operands are read back. -/
theorem decodeOfEncode : Obligations.DecodeOfEncode := by
  unfold Obligations.DecodeOfEncode
  intro i hwf
  obtain ⟨r, hr, hmnemonic, hmask⟩ := rowFits i hwf
  exact decode_eq_ok_iff.2 ⟨r, hr, hmask, hmnemonic ▸ decodeOperands_encode hwf⟩

/-! ### Encode of decode (R102) -/

/-- A word is assembled from its own fields. -/
theorem assembleWord_fields {w : MicroWord} {op : Mnemonic} {rb low : Nat} (hop : field w 12 4 = field op.code 12 4)
    (hrest : rb * 2 ^ 6 ||| low = field w 0 9) : assembleWord op (field w 9 3) rb low = w := by
  apply BitVec.eq_of_toNat_eq
  rw [toNat_assembleWord op (field_lt w 9 3) hrest (field_lt w 0 9), field_split w, hop]

/-- The two-register format: what is read from a word with its zero bits is well-formed and gives the word back. -/
theorem encode_of_decodeTwo {w : MicroWord} {op : Mnemonic} {build : Reg → Reg → Instr} {i : Instr}
    (h : decodeTwo w build = .ok i) (hwf : ∀ ra rb, (build ra rb).wellFormed = true)
    (hencode : ∀ ra rb, encode (build ra rb) = assembleWord op ra.index rb.index 0)
    (hop : field w 12 4 = field op.code 12 4) (hzero : field w 0 6 = 0) :
    i.wellFormed = true ∧ encode i = w := by
  obtain ⟨ra, rb, ha, hb, rfl⟩ := decodeTwo_eq_ok_iff.1 h
  refine ⟨hwf ra rb, ?_⟩
  rw [hencode, ← ha, ← hb]
  refine assembleWord_fields hop ?_
  simp only [field, Nat.or_zero] at hzero ⊢
  omega

/-- The one-register formats: what is read from a word with its zero bits is well-formed and gives the word back. -/
theorem encode_of_decodeOne {w : MicroWord} {op : Mnemonic} {build : Reg → Instr} {low : Nat} {i : Instr}
    (h : decodeOne w build = .ok i) (hwf : ∀ ra, (build ra).wellFormed = true)
    (hencode : ∀ ra, encode (build ra) = assembleWord op ra.index 0 low)
    (hop : field w 12 4 = field op.code 12 4) (hrest : field w 0 9 = low) :
    i.wellFormed = true ∧ encode i = w := by
  obtain ⟨ra, ha, rfl⟩ := decodeOne_eq_ok_iff.1 h
  refine ⟨hwf ra, ?_⟩
  rw [hencode, ← ha]
  exact assembleWord_fields hop (by rw [Nat.zero_mul, Nat.zero_or, hrest])

/-- What is read from a word with the fixed bits of a row is well-formed and gives the word back. -/
theorem encode_of_decodeOperands {w : MicroWord} {r : OpcodeRow} {i : Instr} (hr : r ∈ opcodeTable)
    (hmask : w &&& r.mask = r.code) (h : decodeOperands w r.mnemonic = .ok i) : i.wellFormed = true ∧ encode i = w := by
  have hop := opcode_of_mask hr hmask
  have hamount : field w 0 6 ≤ 63 := Nat.le_of_lt_succ (field_lt w 0 6)
  have hbyte : field w 0 8 ≤ 255 := Nat.le_of_lt_succ (field_lt w 0 8)
  have hflag : (field w 0 1 == 1).toNat = field w 0 1 := by
    obtain h0 | h1 : field w 0 1 = 0 ∨ field w 0 1 = 1 := by have := field_lt w 0 1; omega
    · rw [h0]; rfl
    · rw [h1]; rfl
  simp only [opcodeTable, List.mem_cons, List.not_mem_nil, or_false] at hr
  obtain rfl | rfl | rfl | rfl | rfl | rfl | rfl | rfl | rfl | rfl | rfl | rfl := hr
  · obtain rfl : Instr.init = i := Except.ok.inj h
    exact ⟨rfl, hmask.symm.trans BitVec.and_allOnes⟩
  · exact encode_of_decodeTwo (op := .add) h (fun _ _ => rfl) (fun _ _ => rfl) hop (field_eq_of_mask hmask rfl)
  · exact encode_of_decodeTwo (op := .xor) h (fun _ _ => rfl) (fun _ _ => rfl) hop (field_eq_of_mask hmask rfl)
  · exact encode_of_decodeTwo (op := .or) h (fun _ _ => rfl) (fun _ _ => rfl) hop (field_eq_of_mask hmask rfl)
  · exact encode_of_decodeOne (op := .shl) h (fun _ => decide_eq_true hamount) (fun _ => rfl) hop
      (field_rest_eq_low (by decide) (field_eq_of_mask hmask rfl))
  · exact encode_of_decodeOne (op := .rotl) h (fun _ => decide_eq_true hamount) (fun _ => rfl) hop
      (field_rest_eq_low (by decide) (field_eq_of_mask hmask rfl))
  · exact encode_of_decodeOne (op := .ldi) h (fun _ => decide_eq_true hbyte) (fun _ => rfl) hop
      (field_rest_eq_low (by decide) (field_eq_of_mask hmask rfl))
  · exact encode_of_decodeOne (op := .ld8) h (fun _ => rfl) (fun _ => rfl) hop (field_eq_of_mask hmask rfl)
  · exact encode_of_decodeOne (op := .ld16) h (fun _ => rfl) (fun _ => rfl) hop (field_eq_of_mask hmask rfl)
  · exact encode_of_decodeOne (op := .ld32) h (fun _ => rfl) (fun _ => rfl) hop (field_eq_of_mask hmask rfl)
  · exact encode_of_decodeOne (op := .ld64) h (fun _ => rfl) (fun _ => rfl) hop (field_eq_of_mask hmask rfl)
  · exact encode_of_decodeOne (op := .fin) h (fun _ => rfl) (fun _ => rfl) hop
      ((field_rest_eq_low (by decide) (field_eq_of_mask hmask rfl)).trans hflag.symm)

/-- Settles O2: a word that decodes has the fixed bits of a row, whose operands give the word back. -/
theorem encodeOfDecode : Obligations.EncodeOfDecode := by
  unfold Obligations.EncodeOfDecode
  intro w i h
  obtain ⟨r, hr, hmask, hops⟩ := decode_eq_ok_iff.1 h
  exact encode_of_decodeOperands hr hmask hops

/-! ### Illegal words (R101) -/

/-- The register fields a format uses are legal or the word is not: `ra` for every row but INIT, `rb` for ADD, XOR, OR. -/
theorem decodeOperands_eq_error_iff {w : MicroWord} {r : OpcodeRow} (hr : r ∈ opcodeTable) :
    (∃ e, decodeOperands w r.mnemonic = .error e) ↔
      (2 ≤ field r.code 12 4 ∧ 5 < field w 9 3) ∨
        (2 ≤ field r.code 12 4 ∧ field r.code 12 4 ≤ 4 ∧ 5 < field w 6 3) := by
  have hcode : field r.code 12 4 = field r.mnemonic.code 12 4 := by
    have hcodes : ∀ r ∈ opcodeTable, field r.code 12 4 = field r.mnemonic.code 12 4 := by decide
    exact hcodes r hr
  rw [hcode]
  cases r.mnemonic <;>
    simp [decodeOperands, decodeOne_eq_error_iff, decodeTwo_eq_error_iff, field, Mnemonic.code]

/-- A word is illegal when its `op` has no row, or by the zero bits or the register fields of the row of its `op`. -/
theorem decode_eq_error_iff {w : MicroWord} :
    (∃ e, decode w = .error e) ↔ (¬ ∃ r ∈ opcodeTable, field r.code 12 4 = field w 12 4) ∨
      ∃ r ∈ opcodeTable, field r.code 12 4 = field w 12 4 ∧
        (w &&& r.mask ≠ r.code ∨ ∃ e, decodeOperands w r.mnemonic = .error e) := by
  constructor
  · rintro ⟨e, he⟩
    by_cases hrow : ∃ r ∈ opcodeTable, field r.code 12 4 = field w 12 4
    · obtain ⟨r, hr, hop⟩ := hrow
      refine .inr ⟨r, hr, hop, or_iff_not_imp_left.2 fun hmask => ⟨e, ?_⟩⟩
      rwa [decode_of_row hr hop, if_pos (not_not.1 hmask)] at he
    · exact .inl hrow
  · rintro (hrow | ⟨r, hr, hop, hbad⟩)
    · exact ⟨_, decode_of_no_row hrow⟩
    · rw [decode_of_row hr hop]
      by_cases hmask : w &&& r.mask = r.code
      · rw [if_pos hmask]; exact hbad.resolve_left (not_not.2 hmask)
      · exact ⟨_, if_neg hmask⟩

/-- Settles O3: the row of an `op` exists for 1 to 12, and its operands fail by `decodeOperands_eq_error_iff`. -/
theorem illegalWordsAreExactly : Obligations.IllegalWordsAreExactly := by
  unfold Obligations.IllegalWordsAreExactly
  intro w
  rw [decode_eq_error_iff, exists_row_iff]
  constructor
  · rintro (hnone | ⟨r, hr, hop, hmask | hops⟩)
    · exact .inl (by omega)
    · exact .inr (.inl ⟨r, hr, hop, hmask⟩)
    · have hrow := exists_row_iff.1 ⟨r, hr, hop⟩
      rw [decodeOperands_eq_error_iff hr, hop] at hops
      omega
  · rintro (hnone | ⟨r, hr, hop, hmask⟩ | hreg)
    · exact .inl (by omega)
    · exact .inr ⟨r, hr, hop, .inl hmask⟩
    · obtain ⟨r, hr, hop⟩ := exists_row_iff.2 (by omega : 1 ≤ field w 12 4 ∧ field w 12 4 ≤ 12)
      refine .inr ⟨r, hr, hop, .inr ((decodeOperands_eq_error_iff hr).2 ?_)⟩
      rw [hop]
      omega

/-! ### Generated programs (R180 to R188) -/

theorem wellFormed_of_mem_repeatOps {p : List Instr} (h : ∀ i ∈ p, i.wellFormed = true) (n : Nat) :
    ∀ i ∈ repeatOps n p, i.wellFormed = true := by
  induction n with
  | zero => exact fun i hi => absurd hi List.not_mem_nil
  | succ n ih => exact List.forall_mem_append.2 ⟨h, ih⟩

theorem wellFormed_of_mem_roundOps : ∀ i ∈ roundOps, i.wellFormed = true := by decide

theorem wellFormed_of_mem_compressOps (c : Nat) : ∀ i ∈ compressOps c, i.wellFormed = true := by
  have hrounds := wellFormed_of_mem_repeatOps wellFormed_of_mem_roundOps c
  exact List.forall_mem_append.2 ⟨List.forall_mem_append.2 ⟨by decide, hrounds⟩, by decide⟩

theorem wellFormed_of_mem_blockOps (c : Nat) : ∀ i ∈ blockOps c, i.wellFormed = true :=
  List.forall_mem_cons.2 ⟨rfl, wellFormed_of_mem_compressOps c⟩

theorem wellFormed_of_mem_finalOps (d : Nat) (standard : Bool) : ∀ i ∈ finalOps d standard, i.wellFormed = true := by
  have hrounds := wellFormed_of_mem_repeatOps wellFormed_of_mem_roundOps d
  have hfin : ∀ i ∈ [Instr.xor .v0 .v1, .xor .v2 .v3, .xor .v0 .v2, .fin .v0 standard], i.wellFormed = true := by
    cases standard <;> decide
  exact List.forall_mem_append.2 ⟨List.forall_mem_append.2 ⟨by decide, hrounds⟩, hfin⟩

theorem wellFormed_chunkLoad (width : Nat) (rd : Reg) : (chunkLoad width rd).wellFormed = true := by
  unfold chunkLoad; split_ifs <;> rfl

/-- A tail chunk starts within the 8 bytes of its word. -/
theorem offset_lt_of_mem_tailChunks {r : Nat} (hr : r < 8) : ∀ chunk ∈ tailChunks r, chunk.2 < 8 := by
  have hall : ∀ r < 8, ∀ chunk ∈ tailChunks r, chunk.2 < 8 := by decide
  exact hall r hr

theorem wellFormed_of_mem_mergeChunk {chunk : Nat × Nat} (h : chunk.2 < 8) : ∀ i ∈ mergeChunk chunk, i.wellFormed = true := by
  have hload : ∀ i ∈ [chunkLoad chunk.1 .t], i.wellFormed = true := List.forall_mem_singleton.2 (wellFormed_chunkLoad _ _)
  have hshift : ∀ i ∈ if 0 < chunk.2 then [Instr.shl .t (8 * chunk.2)] else [], i.wellFormed = true := by
    split_ifs
    · exact List.forall_mem_singleton.2 (decide_eq_true (by omega))
    · exact fun i hi => absurd hi List.not_mem_nil
  exact List.forall_mem_append.2 ⟨List.forall_mem_append.2 ⟨hload, hshift⟩, by decide⟩

theorem wellFormed_of_mem_mergeChunks {chunks : List (Nat × Nat)} (h : ∀ chunk ∈ chunks, chunk.2 < 8) :
    ∀ i ∈ chunks.flatMap mergeChunk, i.wellFormed = true := by
  intro i hi
  obtain ⟨chunk, hchunk, hmem⟩ := List.mem_flatMap.1 hi
  exact wellFormed_of_mem_mergeChunk (h chunk hchunk) i hmem

theorem wellFormed_of_mem_tailAsOps {r : Nat} (hr : r < 8) (size : Nat) : ∀ i ∈ tailAsOps r size, i.wellFormed = true := by
  have hbyte : size % 256 ≤ 255 := by omega
  have hlast : ∀ i ∈ [Instr.ldi .m (size % 256), .shl .m 56], i.wellFormed = true :=
    List.forall_mem_cons.2 ⟨decide_eq_true hbyte, by decide⟩
  exact List.forall_mem_append.2 ⟨hlast, wellFormed_of_mem_mergeChunks (offset_lt_of_mem_tailChunks hr)⟩

theorem wellFormed_of_mem_tailFixedOps {r : Nat} (hr : r < 8) : ∀ i ∈ tailFixedOps r, i.wellFormed = true := by
  have hoffset := offset_lt_of_mem_tailChunks hr
  unfold tailFixedOps
  split
  case h_1 => exact fun i hi => absurd hi List.not_mem_nil
  case h_2 c cs heq =>
    rw [heq] at hoffset
    exact List.forall_mem_cons.2 ⟨wellFormed_chunkLoad _ _, wellFormed_of_mem_mergeChunks (List.forall_mem_cons.1 hoffset).2⟩

theorem wellFormed_of_mem_tailOps (n : Norm) : ∀ i ∈ tailOps n, i.wellFormed = true := by
  have hr : n.size.toNat % 8 < 8 := Nat.mod_lt _ (by decide)
  unfold tailOps
  split_ifs
  · exact List.forall_mem_append.2 ⟨wellFormed_of_mem_tailAsOps hr _, wellFormed_of_mem_compressOps _⟩
  · exact List.forall_mem_append.2 ⟨wellFormed_of_mem_tailFixedOps hr, wellFormed_of_mem_compressOps _⟩
  · exact fun i hi => absurd hi List.not_mem_nil

/-- Every micro-op of a generated program is well-formed. -/
theorem wellFormed_of_mem_program (n : Norm) : ∀ i ∈ program n, i.wellFormed = true := by
  have hblocks := wellFormed_of_mem_repeatOps (wellFormed_of_mem_blockOps n.c.toNat) (n.size.toNat / 8)
  exact List.forall_mem_append.2 ⟨List.forall_mem_append.2 ⟨List.forall_mem_append.2 ⟨by decide, hblocks⟩,
    wellFormed_of_mem_tailOps n⟩, wellFormed_of_mem_finalOps _ _⟩

/-- Settles O49: every micro-op of the program is well-formed, so its word decodes to it. -/
theorem programWordsAreLegal : Obligations.ProgramWordsAreLegal := by
  unfold Obligations.ProgramWordsAreLegal
  intro n
  rw [programWords, List.map_map]
  exact List.map_congr_left fun i hi => decodeOfEncode i (wellFormed_of_mem_program n i hi)

/-! ### Words written out from the formats (R93 to R99) -/

/-- Settles O4: each word is that of its micro-op, which decodes to it. -/
theorem specWordsDecode : Obligations.SpecWordsDecode := by
  unfold Obligations.SpecWordsDecode
  exact ⟨decodeOfEncode .init rfl, decodeOfEncode (.add .t .t) rfl, decodeOfEncode (.or .m .t) rfl,
    decodeOfEncode (.shl .t 48) rfl, decodeOfEncode (.rotl .v1 13) rfl, decodeOfEncode (.ldi .t 255) rfl,
    decodeOfEncode (.ld32 .t) rfl, decodeOfEncode (.fin .v0 true) rfl⟩

end Sys2Proof.Machine
end

section
/-! Proofs of the algorithm family (40_algorithm): the round can be undone, what values an internal output takes, and what is left of
the hash when no round runs. The round is read as two half rounds, each undone by its own inverse; a hash without rounds is followed
by the exclusive-or of its four state words. -/

namespace Sys2Proof.Machine

/-- An exclusive-or with the same word again undoes it. -/
theorem xor_xor_cancel_right {w : Nat} (x y : BitVec w) : x ^^^ y ^^^ y = x := by
  rw [BitVec.xor_assoc, BitVec.xor_self, BitVec.xor_zero]

/-! ### The round (R123, R124) -/

/-- The model's rotation is the library's. -/
theorem rotl64_eq_rotateLeft (x : Word) {k : Nat} (hk : k < 64) : rotl64 x k = x.rotateLeft k := by
  rw [BitVec.rotateLeft_def, Nat.mod_eq_of_lt hk, rotl64]
  split
  case isTrue h => rw [h, BitVec.shiftLeft_zero, BitVec.ushiftRight_eq_zero (Nat.le_refl 64), BitVec.or_zero]
  case isFalse => rfl

/-- Rotations by two amounts that make up a full turn undo each other. -/
theorem rotl64_rotl64_cancel (x : Word) {j k : Nat} (hj : 0 < j) (hk : 0 < k) (hjk : j + k = 64) :
    rotl64 (rotl64 x j) k = x := by
  rw [rotl64_eq_rotateLeft _ (by omega), rotl64_eq_rotateLeft _ (by omega)]
  apply BitVec.eq_of_getElem_eq
  intro i hi
  simp only [BitVec.getElem_rotateLeft, Nat.mod_eq_of_lt (show j < 64 by omega), Nat.mod_eq_of_lt (show k < 64 by omega)]
  split
  case isTrue h =>
    rw [dif_neg (by omega)]
    congr 1; omega
  case isFalse h =>
    rw [dif_pos (by omega)]
    congr 1; omega

/-- Half of a round: two additions, each mixed back into its addend rotated by `j` or `k`; `v0` rotated by half a turn. -/
def sipHalf (j k : Nat) (v : SipState) : SipState :=
  { v0 := rotl64 (v.v0 + v.v1) 32
    v1 := rotl64 v.v1 j ^^^ (v.v0 + v.v1)
    v2 := v.v2 + v.v3
    v3 := rotl64 v.v3 k ^^^ (v.v2 + v.v3) }

/-- The steps of `sipHalf` undone, the last first. -/
def sipHalfInv (j k : Nat) (v : SipState) : SipState :=
  let sum := rotl64 v.v0 32
  let v1 := rotl64 (v.v1 ^^^ sum) (64 - j)
  let v3 := rotl64 (v.v3 ^^^ v.v2) (64 - k)
  { v0 := sum - v1, v1 := v1, v2 := v.v2 - v3, v3 := v3 }

/-- The second half of a round finds `v0` and `v2` in each other's places. -/
def swapEven (v : SipState) : SipState :=
  { v with v0 := v.v2, v2 := v.v0 }

/-- The fourteen steps of R123 are two half rounds. -/
theorem sipRound_eq_halves : sipRound = swapEven ∘ sipHalf 17 21 ∘ swapEven ∘ sipHalf 13 16 := rfl

section halves
variable {j k : Nat} (hj : 0 < j) (hj64 : j < 64) (hk : 0 < k) (hk64 : k < 64)
include hj hj64 hk hk64

theorem sipHalfInv_leftInverse : Function.LeftInverse (sipHalfInv j k) (sipHalf j k) := fun v => by
  simp only [sipHalf, sipHalfInv, rotl64_rotl64_cancel _ (by decide : 0 < 32) (by decide : 0 < 32) rfl, xor_xor_cancel_right,
    rotl64_rotl64_cancel _ hj (Nat.sub_pos_of_lt hj64) (Nat.add_sub_cancel' hj64.le),
    rotl64_rotl64_cancel _ hk (Nat.sub_pos_of_lt hk64) (Nat.add_sub_cancel' hk64.le), BitVec.add_sub_cancel]

theorem sipHalfInv_rightInverse : Function.RightInverse (sipHalfInv j k) (sipHalf j k) := fun v => by
  simp only [sipHalf, sipHalfInv, BitVec.sub_add_cancel, rotl64_rotl64_cancel _ (by decide : 0 < 32) (by decide : 0 < 32) rfl,
    rotl64_rotl64_cancel _ (Nat.sub_pos_of_lt hj64) hj (Nat.sub_add_cancel hj64.le),
    rotl64_rotl64_cancel _ (Nat.sub_pos_of_lt hk64) hk (Nat.sub_add_cancel hk64.le), xor_xor_cancel_right]

theorem sipHalf_bijective : Function.Bijective (sipHalf j k) :=
  Function.bijective_iff_has_inverse.2
    ⟨sipHalfInv j k, sipHalfInv_leftInverse hj hj64 hk hk64, sipHalfInv_rightInverse hj hj64 hk hk64⟩

end halves

theorem swapEven_bijective : Function.Bijective swapEven :=
  Function.Involutive.bijective fun _ => rfl

/-- Settles O50: the round is two half rounds and two swaps, each of them a bijection. -/
theorem sipRoundIsBijective : Obligations.SipRoundIsBijective := by
  unfold Obligations.SipRoundIsBijective
  have hfirst : Function.Bijective (sipHalf 13 16) := sipHalf_bijective (by decide) (by decide) (by decide) (by decide)
  have hsecond : Function.Bijective (sipHalf 17 21) := sipHalf_bijective (by decide) (by decide) (by decide) (by decide)
  rw [sipRound_eq_halves]
  exact swapEven_bijective.comp (hsecond.comp (swapEven_bijective.comp hfirst))

/-! ### The internal format (R134, R136) -/

/-- An internal output is twice bits 62:32 of the result word. -/
theorem formatOut_internal_toNat (h : Word) : (formatOut false h).toNat = 2 * (h.toNat / 2 ^ 32 % 2 ^ 31) := by
  simp only [formatOut, Bool.false_eq_true, if_false, BitVec.toNat_shiftLeft, BitVec.toNat_setWidth, BitVec.toNat_ushiftRight,
    Nat.shiftLeft_eq, Nat.shiftRight_eq_div_pow]
  omega

/-- Settles O51: twice a number below `2^31` is even and at most `0xFFFFFFFE`. -/
theorem internalOutputRange : Obligations.InternalOutputRange := by
  unfold Obligations.InternalOutputRange
  intro ic n key record hinternal
  have hout : (hash ic n key record).toNat = 2 * ((hash64From (initState ic key) n record).toNat / 2 ^ 32 % 2 ^ 31) := by
    rw [hash, hashFrom, hinternal, formatOut_internal_toNat]
  have heven : (hash ic n key record).toNat % 2 = 0 := by omega
  have hle : (hash ic n key record).toNat ≤ 0xFFFFFFFE := by omega
  refine ⟨fun hsentinel => ?_, ?_, heven, hle⟩
  · rw [hsentinel] at hle
    exact absurd hle (by decide)
  · rw [BitVec.getLsbD, Nat.testBit_zero, heven]
    rfl

/-! ### No rounds (R137) -/

/-- The exclusive-or of the four state words, which `finalize` returns after its rounds (R132). -/
def xorWords (v : SipState) : Word :=
  v.v0 ^^^ v.v1 ^^^ v.v2 ^^^ v.v3

/-- Each key half enters twice and cancels. -/
theorem xorWords_initState (ic : SipState) (key : List Byte) : xorWords (initState ic key) = xorWords ic := by
  simp only [xorWords, initState]
  generalize BitVec.ofNat 64 (leValue (key.take 8)) = k0
  generalize BitVec.ofNat 64 (leValue ((key.drop 8).take 8)) = k1
  calc ic.v0 ^^^ k0 ^^^ (ic.v1 ^^^ k1) ^^^ (ic.v2 ^^^ k0) ^^^ (ic.v3 ^^^ k1)
      = ic.v0 ^^^ ic.v1 ^^^ ic.v2 ^^^ ic.v3 ^^^ k0 ^^^ k0 ^^^ k1 ^^^ k1 := by ac_rfl
    _ = ic.v0 ^^^ ic.v1 ^^^ ic.v2 ^^^ ic.v3 := by rw [xor_xor_cancel_right, xor_xor_cancel_right]

/-- Without rounds a message word enters twice and cancels. -/
theorem xorWords_compress_zero (v : SipState) (m : Word) : xorWords (compress v m 0) = xorWords v :=
  calc v.v0 ^^^ m ^^^ v.v1 ^^^ v.v2 ^^^ (v.v3 ^^^ m)
      = v.v0 ^^^ v.v1 ^^^ v.v2 ^^^ v.v3 ^^^ m ^^^ m := by ac_rfl
    _ = v.v0 ^^^ v.v1 ^^^ v.v2 ^^^ v.v3 := xor_xor_cancel_right _ m

theorem xorWords_compressBlocks_zero (b : Nat) : ∀ (v : SipState) (bytes : List Byte),
    xorWords (compressBlocks 0 b v bytes) = xorWords v := by
  induction b with
  | zero => exact fun _ _ => rfl
  | succ b ih => exact fun v bytes => by rw [compressBlocks, ih, xorWords_compress_zero]

theorem xorWords_tailStep_zero {n : Norm} (hc : n.c = 0#8) (record : List Byte) (v : SipState) :
    xorWords (tailStep n record v) = xorWords v := by
  have hzero : n.c.toNat = 0 := by rw [hc]; rfl
  rw [tailStep, hzero]
  split_ifs
  · exact xorWords_compress_zero v _
  · exact xorWords_compress_zero v _
  · rfl

theorem finalize_zero (v : SipState) : finalize v 0 = xorWords v ^^^ 0xff#64 := by
  show v.v0 ^^^ v.v1 ^^^ (v.v2 ^^^ 0xff#64) ^^^ v.v3 = v.v0 ^^^ v.v1 ^^^ v.v2 ^^^ v.v3 ^^^ 0xff#64
  ac_rfl

/-- Without rounds only the exclusive-or of the initial state's words and `0xff` reach the result word. -/
theorem hash64From_zero (iv : SipState) {n : Norm} (hc : n.c = 0#8) (hd : n.d = 0#8) (record : List Byte) :
    hash64From iv n record = xorWords iv ^^^ 0xff#64 := by
  have hczero : n.c.toNat = 0 := by rw [hc]; rfl
  have hdzero : n.d.toNat = 0 := by rw [hd]; rfl
  rw [hash64From, hdzero, finalize_zero, xorWords_tailStep_zero hc, hczero, xorWords_compressBlocks_zero]

/-- Settles O52: the key halves cancel in the exclusive-or, which is all that reaches the result word. -/
theorem degenerateRounds : Obligations.DegenerateRounds := by
  unfold Obligations.DegenerateRounds
  intro ic n key record hc hd
  have hword : hash64From (initState ic key) n record = xorWords ic ^^^ 0xff#64 := by
    rw [hash64From_zero _ hc hd, xorWords_initState]
  refine ⟨hword, ?_⟩
  rintro rfl
  rw [hword]
  decide

end Sys2Proof.Machine
end

section
/-! Proofs of the arithmetic family (41_arith_ops): the rule of R150 and R258 is proved once for the common shape `aluOp`; what is left
of each micro-op is its word and the number its operation makes of its operands. -/

namespace Sys2Proof.Machine

/-! ### Words (R102) -/

/-- A field moved up by a product is the field shifted. -/
theorem ofNat_mul_two_pow (w x k : Nat) : BitVec.ofNat w (x * 2 ^ k) = BitVec.ofNat w x <<< k := by
  apply BitVec.eq_of_toNat_eq
  rw [BitVec.toNat_shiftLeft, BitVec.toNat_ofNat, BitVec.toNat_ofNat, Nat.shiftLeft_eq, Nat.mod_mul_mod]

/-- The word of a micro-op with two register operands. -/
theorem assembleWord_two (op : Mnemonic) (ra rb : Nat) :
    assembleWord op ra rb 0 = op.code ||| BitVec.ofNat 16 ra <<< 9 ||| BitVec.ofNat 16 rb <<< 6 := by
  rw [assembleWord, ofNat_mul_two_pow, ofNat_mul_two_pow, BitVec.or_zero]

/-- The word of a micro-op with a register and an immediate. -/
theorem assembleWord_immediate (op : Mnemonic) (ra low : Nat) :
    assembleWord op ra 0 low = op.code ||| BitVec.ofNat 16 ra <<< 9 ||| BitVec.ofNat 16 low := by
  rw [assembleWord, ofNat_mul_two_pow, Nat.zero_mul, BitVec.or_zero]

/-! ### Frames -/

/-- A change of the active engine alone keeps everything outside it. -/
theorem outsideKept_putEng (s : State) (e : Engine) : OutsideKept s (s.putEng e) := by
  refine ⟨?_, fun _ => rfl⟩
  rw [putEng_putEng, putEng_eng]

/-- The fault state of the model is the fault entry of R262. -/
theorem takesFault_raise (s : State) (c : Cause) : TakesFault s (s.raise c) c := by
  unfold TakesFault
  rw [stateRaise_eng]
  exact ⟨rfl, rfl, rfl, rfl, rfl, outsideKept_putEng s _⟩

/-- An operation on the lanes keeps the control registers. -/
theorem controlKept_mapLanes (s : State) (f : Nat → Lane → Lane) : ControlKept s (s.putEng (s.eng.mapLanes f).advance) := by
  unfold ControlKept
  rw [eng_putEng]
  rfl

/-- Lanes in which only `rd` was set, and to a value, are those of `WritesReg`. -/
theorem writesReg_of_lanes {s t : State} {rd : Reg} {value : Nat → Lane → Nat} {g : Nat → Lane → Option Word}
    (hlanes : t.eng.lanes = s.eng.lanes.mapIdx fun l x => x.set rd (g l x))
    (hvalue : ∀ l x, s.eng.lanes[l]? = some x → ∃ w, g l x = some w ∧ w.toNat = value l x) : WritesReg s t rd value := by
  refine ⟨by rw [hlanes, List.length_mapIdx], fun l x hx => ?_⟩
  obtain ⟨w, hw, hnat⟩ := hvalue l x hx
  refine ⟨x.set rd (g l x), w, ?_, ?_, hnat, fun r hr => lane_get_set_ne x _ hr⟩
  · rw [hlanes, List.getElem?_mapIdx, hx, Option.map_some]
  · rw [lane_get_set, hw]

/-! ### The common shape (R150, R258) -/

/-- The number in a register that holds a value. -/
theorem laneNat_of_get {x : Lane} {r : Reg} {a : Word} (h : x.get r = some a) : laneNat x r = a.toNat := by
  rw [laneNat, h]

/-- With an operand that holds NOVALUE in some lane, a first one is found. -/
theorem exists_firstUnwritten {s : State} {rs : List Reg} (h : ¬ ∀ r ∈ rs, Written s r) :
    ∃ r, s.eng.firstUnwritten rs = some r ∧ r ∈ rs ∧ ¬ Written s r := by
  obtain ⟨r, hr⟩ := Option.ne_none_iff_exists'.1 (mt (firstUnwritten_eq_none_iff s.eng rs).1 h)
  obtain ⟨hmem, x, hx, hnone⟩ := firstUnwritten_eq_some hr
  exact ⟨r, hr, hmem, fun hw => hw x hx hnone⟩

/-- A micro-op of the common shape, whose result on a lane with its operands written is the number `value`, follows the rule. -/
theorem aluRule_of_aluOp {i : Instr} {rd : Reg} {value : Lane → Nat} {g : Lane → Option Word}
    (hexec : exec i = aluOp i (readsOf i) fun x => x.set rd (g x))
    (hvalue : ∀ x : Lane, (∀ r ∈ readsOf i, x.get r ≠ none) → ∃ w, g x = some w ∧ w.toNat = value x) : AluRule i rd value := by
  unfold AluRule
  rw [hexec]
  constructor
  · intro s hwritten
    have hlane : ∀ (l : Nat) (x : Lane), s.eng.lanes[l]? = some x → ∃ w, g x = some w ∧ w.toNat = value x :=
      fun l x hx => hvalue x fun r hr => hwritten r hr x (List.mem_of_getElem? hx)
    exact ⟨_, aluOp_written hwritten, writesReg_of_lanes (by simp) hlane, by simp, by simp, controlKept_mapLanes s _,
      outsideKept_putEng s _⟩
  · intro s hunwritten
    obtain ⟨r, hfirst, hmem, hr⟩ := exists_firstUnwritten hunwritten
    exact ⟨_, r, aluOp_unwritten hfirst, hmem, hr, takesFault_raise s _⟩

/-- The rule for a micro-op that combines `rd` and `rs` (R151 to R153): `value` is its operation on numbers. -/
theorem aluRule_lift2 {i : Instr} {rd rs : Reg} {f : Word → Word → Word} (value : Nat → Nat → Nat)
    (hreads : readsOf i = [rd, rs])
    (hexec : exec i = aluOp i [rd, rs] fun x => x.set rd (lift2 f (x.get rd) (x.get rs)))
    (hvalue : ∀ a b, (f a b).toNat = value a.toNat b.toNat) :
    AluRule i rd fun x => value (laneNat x rd) (laneNat x rs) := by
  refine aluRule_of_aluOp (hreads ▸ hexec) fun x hx => ?_
  obtain ⟨a, ha⟩ := Option.ne_none_iff_exists'.1 (hx rd (by simp [hreads]))
  obtain ⟨b, hb⟩ := Option.ne_none_iff_exists'.1 (hx rs (by simp [hreads]))
  refine ⟨f a b, by rw [ha, hb, lift2], ?_⟩
  rw [laneNat_of_get ha, laneNat_of_get hb, hvalue]

/-- The rule for a micro-op that changes `rd` alone (R154, R155). -/
theorem aluRule_lift1 {i : Instr} {rd : Reg} {f : Word → Word} (value : Nat → Nat) (hreads : readsOf i = [rd])
    (hexec : exec i = aluOp i [rd] fun x => x.set rd (lift1 f (x.get rd)))
    (hvalue : ∀ a, (f a).toNat = value a.toNat) : AluRule i rd fun x => value (laneNat x rd) := by
  refine aluRule_of_aluOp (hreads ▸ hexec) fun x hx => ?_
  obtain ⟨a, ha⟩ := Option.ne_none_iff_exists'.1 (hx rd (by simp [hreads]))
  refine ⟨f a, by rw [ha, lift1], ?_⟩
  rw [laneNat_of_get ha, hvalue]

/-! ### The five micro-ops -/

/-- Settles O5: the sum of two words is the sum of their numbers modulo `2^64`. -/
theorem addRule : Obligations.AddRule := by
  unfold Obligations.AddRule
  exact fun rd rs => ⟨assembleWord_two .add rd.index rs.index,
    aluRule_lift2 (fun a b => (a + b) % 2 ^ 64) rfl rfl BitVec.toNat_add⟩

/-- Settles O6: the exclusive-or of two words is that of their numbers. -/
theorem xorRule : Obligations.XorRule := by
  unfold Obligations.XorRule
  exact fun rd rs => ⟨assembleWord_two .xor rd.index rs.index, aluRule_lift2 (· ^^^ ·) rfl rfl BitVec.toNat_xor⟩

/-- Settles O7: the OR of two words is that of their numbers. -/
theorem orRule : Obligations.OrRule := by
  unfold Obligations.OrRule
  exact fun rd rs => ⟨assembleWord_two .or rd.index rs.index, aluRule_lift2 (· ||| ·) rfl rfl BitVec.toNat_or⟩

/-- A shift to the left is a product modulo `2^64`. -/
theorem toNat_shiftLeft_eq_mul (a : Word) (n : Nat) : (a <<< n).toNat = a.toNat * 2 ^ n % 2 ^ 64 := by
  rw [BitVec.toNat_shiftLeft, Nat.shiftLeft_eq]

/-- Settles O8: a shift by `n` is the product with `2^n` modulo `2^64`. -/
theorem shlRule : Obligations.ShlRule := by
  unfold Obligations.ShlRule
  exact fun rd n _ => ⟨assembleWord_immediate .shl rd.index n,
    aluRule_lift1 (fun a => a * 2 ^ n % 2 ^ 64) rfl rfl fun a => toNat_shiftLeft_eq_mul a n⟩

/-- A rotation as a number: the identity by 0, else the bits moved up and, below them, the `n` bits moved out (R155). -/
theorem rotl64_toNat (a : Word) (n : Nat) : (rotl64 a n).toNat =
    if n = 0 then a.toNat else (a.toNat * 2 ^ n ||| a.toNat / 2 ^ (64 - n)) % 2 ^ 64 := by
  have hlow : a.toNat / 2 ^ (64 - n) < 2 ^ 64 := (Nat.div_le_self _ _).trans_lt a.isLt
  unfold rotl64
  split_ifs
  · rfl
  · rw [BitVec.toNat_or, toNat_shiftLeft_eq_mul, BitVec.toNat_ushiftRight, Nat.shiftRight_eq_div_pow, Nat.or_mod_two_pow,
      Nat.mod_eq_of_lt hlow]

/-- Settles O9: a rotation read as a number, 0 by the identity. -/
theorem rotlRule : Obligations.RotlRule := by
  unfold Obligations.RotlRule
  exact fun rd n _ => ⟨assembleWord_immediate .rotl rd.index n,
    aluRule_lift1 (fun a => if n = 0 then a else (a * 2 ^ n ||| a / 2 ^ (64 - n)) % 2 ^ 64) rfl rfl fun a => rotl64_toNat a n⟩

end Sys2Proof.Machine
end

section
/-! Proofs of the load family (42_load_ops): the rule of R160 is proved once for the common shape `memLoad`; what is left of each
load is its word, its width and the variant that does not read memory. -/

namespace Sys2Proof.Machine

/-! ### Words and bytes (R61, R102) -/

/-- The word of a micro-op with one register operand. -/
theorem assembleWord_one (op : Mnemonic) (ra : Nat) : assembleWord op ra 0 0 = op.code ||| BitVec.ofNat 16 ra <<< 9 := by
  rw [assembleWord_immediate, BitVec.or_zero]

/-- `MemRead` is the little-endian sum of the bytes read. -/
theorem memRead_eq_bytesAt (s : State) (a n : Nat) : memRead s.mem a n = bytesAt s a n := by
  induction n with
  | zero => rfl
  | succ n ih =>
    have hbyte : memRead s.mem (a + n) 1 = (Memory.read s.mem (a + n)).toNat := rfl
    rw [memRead_add, ih, hbyte, bytesAt, bytesAt, Finset.sum_range_succ, Nat.mul_comm]

/-- Eight bytes at most fit a lane register: zero extension keeps their number. -/
theorem toNat_ofNat_memRead (m : Memory) (a : Nat) {n : Nat} (hn : n ≤ 8) :
    (BitVec.ofNat 64 (memRead m a n)).toNat = memRead m a n :=
  Nat.mod_eq_of_lt ((ByteLaws.memRead_lt m a n).trans_le (Nat.pow_le_pow_right (by decide) hn))

/-! ### Loads from memory (R160) -/

/-- A row of addresses that all pass the test. -/
theorem allAddresses_eq_true {ok : Nat → Bool} {a n : Nat} (h : ∀ k < n, ok (a + k) = true) : allAddresses ok a n = true :=
  List.all_eq_true.2 fun k hk => h k (List.mem_range.1 hk)

/-- A load whose bytes are admitted in every lane does not stop; one lane needs no stride (R201). -/
theorem loadStop_admitted {s : State} {p : Word} {n : Nat} (hp : s.eng.inPtr = some p)
    (hnorm : 1 < s.eng.lanes.length → s.eng.norm ≠ none)
    (hread : ∀ l < s.eng.lanes.length, ∀ k < n, readable s.platform.regions (effectiveAddress s p l + k) = true) :
    loadStop s n = none := by
  refine (loadStop_eq_none_iff s n).2 ⟨hp ▸ Option.some_ne_none p, fun hnone => ?_, fun l hl => ?_⟩
  · exact Nat.not_lt.1 fun hlanes => hnorm hlanes hnone
  · exact allAddresses_eq_true (ea_eq_effectiveAddress hp l ▸ hread l hl)

/-- An operation on the lanes that also sets the cursor keeps the control registers. -/
theorem controlKept_mapLanes_cur (s : State) (f : Nat → Lane → Lane) (c : Nat) :
    ControlKept s (s.putEng { (s.eng.mapLanes f).advance with cur := c }) := by
  unfold ControlKept
  rw [eng_putEng]
  rfl

/-- A micro-op that is the common load of `n` bytes wherever memory is read follows the rule. -/
theorem loadRule_of_memLoad {i : Instr} {n : Nat} {rd : Reg} (hn : n ≤ 8)
    (hexec : ∀ s : State, s.eng.variant ≠ .scalarImm → exec i s = memLoad n rd s) : LoadRule i n rd := by
  intro s p hv hp hnorm hread
  have hlane : ∀ (l : Nat) (x : Lane), s.eng.lanes[l]? = some x → ∃ w : Word,
      some (BitVec.ofNat 64 (memRead s.mem (s.eng.ea l) n)) = some w ∧ w.toNat = bytesAt s (effectiveAddress s p l) n :=
    fun l _ _ => ⟨_, rfl, by rw [toNat_ofNat_memRead _ _ hn, memRead_eq_bytesAt, ea_eq_effectiveAddress hp]⟩
  exact ⟨_, (hexec s hv).trans (memLoad_admitted (loadStop_admitted hp hnorm hread)), writesReg_of_lanes (by simp) hlane,
    by simp, by simp, controlKept_mapLanes_cur s _ _, outsideKept_putEng s _⟩

/-- A load that SCALAR_IMM does not support takes `UE_LOAD_UNSUPPORTED` (R166). -/
theorem loadUnsupportedAt_of_exec {i : Instr} {s : State} (h : exec i s = loadUnsupported i s) : LoadUnsupportedAt i s :=
  ⟨_, h, takesFault_raise s _⟩

/-- A load that reads memory everywhere but on SCALAR_IMM, where it is not supported: its word, its rule and its fault. -/
theorem narrowLoad_rule {i : Instr} {op : Mnemonic} {n : Nat} {rd : Reg} (hn : n ≤ 8)
    (hword : encode i = assembleWord op rd.index 0 0)
    (hexec : ∀ s : State, exec i s = if s.eng.variant = .scalarImm then loadUnsupported i s else memLoad n rd s) :
    encode i = op.code ||| BitVec.ofNat 16 rd.index <<< 9 ∧ LoadRule i n rd ∧
      ∀ s : State, s.eng.variant = .scalarImm → LoadUnsupportedAt i s :=
  ⟨hword.trans (assembleWord_one op rd.index), loadRule_of_memLoad hn fun s hv => (hexec s).trans (if_neg hv),
    fun s hv => loadUnsupportedAt_of_exec ((hexec s).trans (if_pos hv))⟩

/-! ### The five micro-ops -/

/-- Settles O10: LD8 is the narrow load of one byte. -/
theorem ldByteRule : Obligations.LdByteRule := by
  unfold Obligations.LdByteRule
  exact fun rd => narrowLoad_rule (op := .ld8) (by decide) rfl fun _ => rfl

/-- Settles O11: LD16 is the narrow load of two bytes. -/
theorem ldHalfRule : Obligations.LdHalfRule := by
  unfold Obligations.LdHalfRule
  exact fun rd => narrowLoad_rule (op := .ld16) (by decide) rfl fun _ => rfl

/-- Settles O12: LD32 is the narrow load of four bytes. -/
theorem ldWordRule : Obligations.LdWordRule := by
  unfold Obligations.LdWordRule
  exact fun rd => narrowLoad_rule (op := .ld32) (by decide) rfl fun _ => rfl

/-- Settles O13: LD64 is the common load of eight bytes, except on SCALAR_IMM. -/
theorem ldDoubleRule : Obligations.LdDoubleRule := by
  unfold Obligations.LdDoubleRule
  exact fun rd => ⟨assembleWord_one .ld64 rd.index, loadRule_of_memLoad le_rfl fun _ hv => if_neg hv⟩

/-- Settles O14: on SCALAR_IMM LD64 branches on the cursor alone, to the load of `ARG` or to the fault. -/
theorem ldDoubleImmediate : Obligations.LdDoubleImmediate := by
  unfold Obligations.LdDoubleImmediate
  refine fun rd s hv => ⟨fun a hcur harg => ?_, fun hcur => ?_⟩
  · have hexec : exec (.ld64 rd) s = immLoad rd s := (if_pos hv).trans (if_pos hcur)
    exact ⟨_, hexec.trans (immLoad_arg harg), writesReg_of_lanes (by simp) fun _ _ _ => ⟨a, rfl, rfl⟩, by simp, by simp,
      controlKept_mapLanes_cur s _ 8, outsideKept_putEng s _⟩
  · exact loadUnsupportedAt_of_exec ((if_pos hv).trans (if_neg hcur))

/-- Settles O15: LDI is an operation on the lanes in every state, and a byte fits a lane register. -/
theorem ldiRule : Obligations.LdiRule := by
  unfold Obligations.LdiRule
  refine fun rd b hb => ⟨assembleWord_immediate .ldi rd.index b, fun s => ?_⟩
  have hbyte : (zextByte b).toNat = b := Nat.mod_eq_of_lt (by omega)
  exact ⟨_, rfl, writesReg_of_lanes (by simp) fun _ _ _ => ⟨_, rfl, hbyte⟩, by simp, by simp, controlKept_mapLanes s _,
    outsideKept_putEng s _⟩

end Sys2Proof.Machine
end

section
/-! Proofs of the system family (43_system_ops): INIT is an operation on the lanes; FIN takes one of its two faults or
delivers, and what a delivery leaves in `RES` or in the slots is said once for its words and for memory. -/

namespace Sys2Proof.Machine

/-! ### INIT (R170) -/

/-- Settles O17: INIT is an operation on the lanes in every state, which sets the four state words alone. -/
theorem initRule : Obligations.InitRule := by
  unfold Obligations.InitRule
  refine ⟨rfl, fun s => ⟨_, rfl, by simp, fun l x iv hx hiv => ?_, by simp, by simp, controlKept_mapLanes s _,
    outsideKept_putEng s _⟩⟩
  exact ⟨x.initFrom (some iv), by simp [hx, hiv], rfl, rfl, rfl, rfl, rfl, rfl⟩

/-! ### The three outcomes of FIN (R171, R265) -/

/-- The first check of FIN: the standard format on DUAL or QUAD (R174). -/
theorem execFin_finMode {rs : Reg} {standard : Bool} {s : State} (h : standard = true ∧ s.eng.variant.multiLane = true) :
    execFin rs standard s = .next (s.raise (.finMode (encode (.fin rs standard)) s.eng.upc)) :=
  if_pos (Bool.and_eq_true_iff.2 h)

/-- The second check of FIN: a register that holds NOVALUE in some lane (R258). -/
theorem execFin_unwritten {rs : Reg} {standard : Bool} {s : State}
    (hmode : ¬ (standard = true ∧ s.eng.variant.multiLane = true)) (hrs : ¬ Written s rs) :
    execFin rs standard s = .next (s.raise (.unwrittenReg (encode (.fin rs standard)) s.eng.upc rs)) := by
  obtain ⟨r, hfirst, hmem, -⟩ := exists_firstUnwritten (rs := [rs]) fun hall => hrs (hall rs (List.mem_singleton_self rs))
  rw [execFin, if_neg (mt Bool.and_eq_true_iff.1 hmode), hfirst, List.mem_singleton.1 hmem]

/-- FIN of a written register delivers to `RES` on the one-lane variants (R172). -/
theorem execFin_oneLane {rs : Reg} {standard : Bool} {s : State} (hv : s.eng.variant.multiLane = false) (hw : Written s rs) :
    execFin rs standard s = deliverRes rs standard s := by
  have hwritten : s.eng.firstUnwritten [rs] = none :=
    (firstUnwritten_eq_none_iff _ _).2 fun r hr => List.mem_singleton.1 hr ▸ hw
  simp [execFin, hv, hwritten]

/-- Settles O21: the two checks of FIN, in their order. -/
theorem finFaults : Obligations.FinFaults := by
  unfold Obligations.FinFaults
  refine fun rs standard => ⟨?_, fun s => ⟨fun hmode => ?_, fun hmode hrs => ?_⟩⟩
  · have hflag : BitVec.ofNat 16 standard.toNat = if standard then 1#16 else 0#16 := by cases standard <;> rfl
    rw [← hflag]
    exact assembleWord_immediate .fin rs.index standard.toNat
  · exact ⟨_, execFin_finMode hmode, takesFault_raise s _⟩
  · exact ⟨_, execFin_unwritten hmode hrs, takesFault_raise s _⟩

/-! ### Output words (R133, R134, R171) -/

/-- The output of a result word as a number: its low half, or bits 62:32 moved up by one. -/
theorem formatOut_toNat (standard : Bool) (h : Word) : (formatOut standard h).toNat =
    if standard then h.toNat % 2 ^ 32 else h.toNat / 2 ^ 32 * 2 % 2 ^ 32 := by
  cases standard with
  | true => exact BitVec.toNat_setWidth 32 h
  | false =>
    rw [formatOut_internal_toNat]
    simp only [Bool.false_eq_true, if_false]
    omega

/-- The output of a lane whose register holds a value. -/
theorem laneOut_toNat {standard : Bool} {rs : Reg} {x : Lane} (h : x.get rs ≠ none) : (laneOut standard rs x).toNat =
    if standard then laneNat x rs % 2 ^ 32 else laneNat x rs / 2 ^ 32 * 2 % 2 ^ 32 := by
  obtain ⟨a, ha⟩ := Option.ne_none_iff_exists'.1 h
  rw [laneNat_of_get ha, laneOut, ha, formatOut_toNat]

/-! ### Delivery to `RES` (R172, R173) -/

/-- Settles O18: FIN delivers the output of the first lane and ends the call. -/
theorem finDeliversToRes : Obligations.FinDeliversToRes := by
  unfold Obligations.FinDeliversToRes
  intro rs standard s hv hne hw
  obtain ⟨x, xs, hlanes⟩ := List.exists_cons_of_ne_nil hne
  have hwritten : x.get rs ≠ none := hw x (hlanes ▸ List.mem_cons_self)
  refine ⟨_, laneOut standard rs x, execFin_oneLane hv hw, ?_, fun y hy => ?_, ?_, ?_, outsideKept_putEng s _⟩
  · simp [Engine.outs, hlanes]
  · obtain rfl : x = y := by simpa [hlanes] using hy
    exact laneOut_toNat hwritten
  · simp
  · simp

/-! ### Delivery to slots (R62, R67, R172) -/

/-- The byte `k` of `bytesLE`. -/
theorem bytesLE_getElem? : ∀ {n k : Nat} (v : Nat), k < n → (bytesLE n v)[k]? = some (BitVec.ofNat 8 (v / 256 ^ k))
  | _ + 1, 0, v, _ => by simp [bytesLE]
  | n + 1, k + 1, v, h => by
    rw [bytesLE, List.getElem?_cons_succ, bytesLE_getElem? (v / 256) (Nat.lt_of_succ_lt_succ h), Nat.div_div_eq_div_mul,
      ← Nat.pow_succ']

/-- A byte that `MemWrite` wrote (R62). -/
theorem read_memWrite {m : Memory} (hm : m.wf = true) (a v : Nat) {n k : Nat} (hk : k < n) :
    (memWrite m a n v).read (a + k) = BitVec.ofNat 8 (v / 256 ^ k) := by
  rw [memWrite, MemoryLaws.read_writeBytes _ _ _ hm, if_pos (Nat.le_add_right a k), Nat.add_sub_cancel_left,
    bytesLE_getElem? v hk, Option.getD_some]

/-- A byte outside a `MemWrite` is kept (R62). -/
theorem read_memWrite_outside {m : Memory} (hm : m.wf = true) {a n c : Nat} (v : Nat) (hc : c < a ∨ a + n ≤ c) :
    (memWrite m a n v).read c = m.read c := by
  rw [memWrite, MemoryLaws.read_writeBytes _ _ _ hm]
  obtain hlow | hhigh := hc
  · exact if_neg (Nat.not_le.2 hlow)
  · have hpast : (bytesLE n v)[c - a]? = none := List.getElem?_eq_none (by rw [ByteLaws.bytesLE_length]; omega)
    rw [hpast, Option.getD_none, ite_self]

/-- A byte outside a row of slots is kept (R67). -/
theorem read_storeSlots_outside : ∀ (ws : List OutWord) {m : Memory} {a c : Nat}, m.wf = true →
    (c < a ∨ a + 4 * ws.length ≤ c) → (storeSlots m a ws).read c = m.read c
  | [], _, _, _, _, _ => rfl
  | w :: ws, m, a, c, hm, hc => by
    rw [List.length_cons] at hc
    have hrest : c < a + 4 ∨ a + 4 + 4 * ws.length ≤ c := by omega
    rw [storeSlots, Config.slotBytes, read_storeSlots_outside ws (MemoryLaws.wf_memWrite a 4 w.toNat hm) hrest]
    exact read_memWrite_outside hm w.toNat (by omega)

/-- The bytes of slot `l` are those of word `l`, least significant first (R67). -/
theorem read_storeSlots : ∀ {ws : List OutWord} {m : Memory} (a : Nat) {l k : Nat} {w : OutWord}, m.wf = true →
    ws[l]? = some w → k < 4 → (storeSlots m a ws).read (a + 4 * l + k) = slotByte w k
  | w :: ws, m, a, 0, k, _, hm, rfl, hk => by
    rw [storeSlots, Config.slotBytes, read_storeSlots_outside ws (MemoryLaws.wf_memWrite a 4 w.toNat hm) (by omega)]
    exact read_memWrite hm a w.toNat hk
  | w :: ws, m, a, l + 1, k, _, hm, hw, hk => by
    have haddr : a + 4 * (l + 1) + k = a + 4 + 4 * l + k := by omega
    rw [haddr]
    exact read_storeSlots (a + 4) (MemoryLaws.wf_memWrite a 4 w.toNat hm) hw hk

/-- A delivery to slots that is admitted ends the call and changes memory, and nothing else (R172, R173). -/
theorem deliverSlots_effect {rs : Reg} {standard : Bool} {s : State} {p : Word} (hp : s.eng.outPtr = some p)
    (ha : admitsWrite s.platform p.toNat (Config.slotBytes * s.eng.lanes.length) = true) :
    ∃ t, deliverSlots rs standard s = .next t ∧ t.mem = storeSlots s.mem p.toNat (s.eng.outs standard rs) ∧
      t.eng = { s.eng with status := .ready } ∧ { t.putEng s.eng with mem := s.mem } = s := by
  refine ⟨_, deliverSlots_admitted hp ha, rfl, eng_putEng s _, ?_⟩
  have hback : (s.putEng { s.eng with status := .ready }).putEng s.eng = s := (putEng_putEng s _ _).trans (putEng_eng s)
  exact congrArg (fun u : State => { u with mem := s.mem }) hback

/-- Settles O19: FIN delivers the outputs of the lanes, and the bytes of memory are as a row of slots leaves them. -/
theorem finDeliversToSlots : Obligations.FinDeliversToSlots := by
  unfold Obligations.FinDeliversToSlots
  intro rs s p hv hp hw hm hadmitted
  obtain ⟨t, hdeliver, hmem, heng, hback⟩ :=
    deliverSlots_effect (rs := rs) (standard := false) hp (allAddresses_eq_true hadmitted)
  refine ⟨t, (execFin_multiLane hv hw).trans hdeliver, fun l x hx k hk => ?_, fun a ha => ?_, by rw [heng],
    by rw [heng], hback⟩
  · have hout : (s.eng.outs false rs)[l]? = some (laneOut false rs x) := by simp [Engine.outs, hx]
    rw [hmem, read_storeSlots p.toNat hm hout hk, slotByte, laneOut_toNat (hw x (List.mem_of_getElem? hx))]
    rfl
  · have hlength : (s.eng.outs false rs).length = s.eng.lanes.length := List.length_map _
    rw [hmem, read_storeSlots_outside _ hm (hlength ▸ ha)]

end Sys2Proof.Machine
end

section
/-! Proofs of the sequencer family (44_sequencer), the program as a list: its length, its shape, the registers its micro-ops read, and
its loads. Each is a fact about the parts of `program`, put together along its recursion. -/

namespace Sys2Proof.Machine

/-! ### Repeated parts (R180) -/

theorem repeatOps_length (p : List Instr) (n : Nat) : (repeatOps n p).length = n * p.length := by
  induction n with
  | zero => simp [repeatOps]
  | succ n ih => rw [repeatOps, List.length_append, ih]; ring

/-- What holds of every micro-op of a part holds of its repetitions. -/
theorem all_repeatOps {f : Instr → Bool} {p : List Instr} (h : p.all f = true) (n : Nat) : (repeatOps n p).all f = true := by
  induction n with
  | zero => rfl
  | succ n ih => rw [repeatOps, List.all_append, h, ih]; rfl

/-! ### Length (R187) -/

theorem compressOps_length (c : Nat) : (compressOps c).length = 2 + 14 * c := by
  have hround : roundOps.length = 14 := rfl
  simp only [compressOps, List.length_append, repeatOps_length, hround, List.length_singleton]
  omega

theorem finalOps_length (d : Nat) (standard : Bool) : (finalOps d standard).length = 6 + 14 * d := by
  have hround : roundOps.length = 14 := rfl
  simp only [finalOps, List.length_append, repeatOps_length, hround, List.length_cons, List.length_nil]
  omega

/-- The fixed-size tail loads its first chunk into M and merges the others (R185). -/
theorem tailFixedOps_eq {r : Nat} (hr : r < 8) (hpos : 0 < r) : ∃ chunk chunks, tailChunks r = chunk :: chunks ∧
    tailFixedOps r = chunkLoad chunk.1 .m :: chunks.flatMap mergeChunk := by
  have hne : ∀ r < 8, 0 < r → tailChunks r ≠ [] := by decide
  obtain ⟨chunk, chunks, hchunks⟩ := List.exists_cons_of_ne_nil (hne r hr hpos)
  exact ⟨chunk, chunks, hchunks, by rw [tailFixedOps, hchunks]⟩

/-- The number of chunks of `r` tail bytes (R130). -/
def chunkCount (r : Nat) : Nat :=
  r / 4 % 2 + r / 2 % 2 + r % 2

/-- A chunk is merged by two micro-ops, and by three when it is not the first. -/
theorem mergeChunks_length {r : Nat} (hr : r < 8) :
    ((tailChunks r).flatMap mergeChunk).length = 2 * chunkCount r + (chunkCount r - 1) := by
  have hall : ∀ r < 8, ((tailChunks r).flatMap mergeChunk).length = 2 * chunkCount r + (chunkCount r - 1) := by decide
  exact hall r hr

theorem tailFixedOps_length {r : Nat} (hr : r < 8) (hpos : 0 < r) : (tailFixedOps r).length = 1 + 3 * (chunkCount r - 1) := by
  have hall : ∀ r < 8, 0 < r → (tailFixedOps r).length = 1 + 3 * (chunkCount r - 1) := by decide
  exact hall r hr hpos

theorem tailOps_length (n : Norm) : (tailOps n).length =
    if n.asSpecified then 2 + 2 * chunkCount (n.size.toNat % 8) + (chunkCount (n.size.toNat % 8) - 1) + (2 + 14 * n.c.toNat)
    else if 0 < n.size.toNat % 8 then 1 + 3 * (chunkCount (n.size.toNat % 8) - 1) + (2 + 14 * n.c.toNat)
    else 0 := by
  have hr : n.size.toNat % 8 < 8 := Nat.mod_lt _ (by decide)
  unfold tailOps
  split_ifs with has hpos
  · rw [tailAsOps, List.length_append, List.length_append, mergeChunks_length hr, compressOps_length]
    simp only [List.length_cons, List.length_nil]
    omega
  · rw [List.length_append, tailFixedOps_length hr hpos, compressOps_length]
  · rfl

/-- Settles O46: the lengths of the parts are added up. -/
theorem programLength_eq : Obligations.ProgramLength := by
  unfold Obligations.ProgramLength
  intro n
  simp only [program, List.length_append, repeatOps_length, blockOps, List.length_cons,
    compressOps_length, tailOps_length, finalOps_length]
  rw [show 2 + 14 * n.c.toNat + 1 = 3 + 14 * n.c.toNat by omega]
  rfl

/-! ### Shape (R188) -/

/-- Is the micro-op neither INIT nor FIN? -/
def isInner (i : Instr) : Bool :=
  decide (i ≠ .init) && !isFin i

theorem isInner_iff {i : Instr} : isInner i = true ↔ i ≠ .init ∧ isFin i = false := by
  simp [isInner]

/-- The finalization up to its FIN (R186). -/
def mixOps (d : Nat) : List Instr :=
  [.ldi .t 255, .xor .v2 .t] ++ repeatOps d roundOps ++ [.xor .v0 .v1, .xor .v2 .v3, .xor .v0 .v2]

/-- The micro-ops between INIT and FIN (R188). -/
def bodyOps (n : Norm) : List Instr :=
  repeatOps (n.size.toNat / 8) (blockOps n.c.toNat) ++ tailOps n ++ mixOps n.d.toNat

theorem finalOps_eq (d : Nat) (standard : Bool) : finalOps d standard = mixOps d ++ [.fin .v0 standard] := by
  simp [finalOps, mixOps]

theorem program_eq (n : Norm) : program n = .init :: (bodyOps n ++ [.fin .v0 n.standard]) := by
  simp [program, bodyOps, finalOps_eq]

theorem isInner_compressOps (c : Nat) : (compressOps c).all isInner = true := by
  have hround : (repeatOps c roundOps).all isInner = true := all_repeatOps (by decide) c
  rw [compressOps, List.all_append, List.all_append, hround]
  rfl

theorem isInner_mixOps (d : Nat) : (mixOps d).all isInner = true := by
  have hround : (repeatOps d roundOps).all isInner = true := all_repeatOps (by decide) d
  rw [mixOps, List.all_append, List.all_append, hround]
  rfl

theorem isInner_chunkLoad (width : Nat) (rd : Reg) : isInner (chunkLoad width rd) = true := by
  unfold chunkLoad; split_ifs <;> rfl

theorem isInner_mergeChunks (chunks : List (Nat × Nat)) : (chunks.flatMap mergeChunk).all isInner = true := by
  rw [List.all_flatMap, List.all_eq_true]
  intro chunk _
  have hshift : (if 0 < chunk.2 then [Instr.shl .t (8 * chunk.2)] else []).all isInner = true := by split_ifs <;> rfl
  rw [mergeChunk, List.all_append, List.all_append, hshift, List.all_cons, isInner_chunkLoad]
  rfl

theorem isInner_tailOps (n : Norm) : (tailOps n).all isInner = true := by
  have hfixed : ∀ r, (tailFixedOps r).all isInner = true := fun r => by
    unfold tailFixedOps
    split
    · rfl
    · rw [List.all_cons, isInner_chunkLoad, isInner_mergeChunks]; rfl
  unfold tailOps
  split_ifs
  · rw [tailAsOps, List.all_append, List.all_append, isInner_mergeChunks, isInner_compressOps]; rfl
  · rw [List.all_append, hfixed, isInner_compressOps]; rfl
  · rfl

theorem isInner_bodyOps (n : Norm) : (bodyOps n).all isInner = true := by
  have hblock : (blockOps n.c.toNat).all isInner = true := by rw [blockOps, List.all_cons, isInner_compressOps]; rfl
  rw [bodyOps, List.all_append, List.all_append, all_repeatOps hblock, isInner_tailOps, isInner_mixOps]
  rfl

/-! ### The registers read (R189) -/

/-- Run from lanes in which the registers of `known` hold values, every micro-op reads registers that are in `known` or that an
earlier micro-op wrote. -/
def ReadsKnown : List Reg → List Instr → Prop
  | _, [] => True
  | known, i :: p => (∀ r ∈ readsOf i, r ∈ known) ∧ ReadsKnown (writesOf i ++ known) p

theorem ReadsKnown.mono {p : List Instr} : ∀ {known known' : List Reg}, (∀ r ∈ known, r ∈ known') → ReadsKnown known p →
    ReadsKnown known' p := by
  induction p with
  | nil => exact fun _ _ => trivial
  | cons i p ih =>
    rintro known known' hsub ⟨hreads, hrest⟩
    refine ⟨fun r hr => hsub r (hreads r hr), ih (fun r hr => ?_) hrest⟩
    exact List.mem_append.2 ((List.mem_append.1 hr).imp_right (hsub r))

theorem ReadsKnown.append {p q : List Instr} : ∀ {known : List Reg}, ReadsKnown known p → ReadsKnown known q →
    ReadsKnown known (p ++ q) := by
  induction p with
  | nil => exact fun _ hq => hq
  | cons i p ih => exact fun hp hq => ⟨hp.1, ih hp.2 (hq.mono fun _ => List.mem_append_right _)⟩

theorem ReadsKnown.repeatOps {known : List Reg} {p : List Instr} (h : ReadsKnown known p) (n : Nat) :
    ReadsKnown known (repeatOps n p) := by
  induction n with
  | zero => trivial
  | succ n ih => exact h.append ih

/-- Every register a micro-op reads is known, or an earlier micro-op wrote it. -/
theorem ReadsKnown.read_written {p : List Instr} : ∀ {known : List Reg} {k : Nat} {i : Instr} {r : Reg}, ReadsKnown known p →
    p[k]? = some i → r ∈ readsOf i → r ∈ known ∨ ∃ j < k, ∃ i', p[j]? = some i' ∧ r ∈ writesOf i' := by
  induction p with
  | nil => exact fun _ hi _ => absurd hi (by simp)
  | cons i p ih =>
    rintro known (_ | k) i' r ⟨hreads, hrest⟩ hi hr
    · obtain rfl : i = i' := by simpa using hi
      exact .inl (hreads r hr)
    · obtain hknown | ⟨j, hj, i'', hi'', hwrites⟩ := ih hrest (by simpa using hi) hr
      · obtain hfirst | hold := List.mem_append.1 hknown
        · exact .inr ⟨0, Nat.succ_pos k, i, rfl, hfirst⟩
        · exact .inl hold
      · exact .inr ⟨j + 1, Nat.succ_lt_succ hj, i'', by simpa using hi'', hwrites⟩

/-- The four registers of the state words, which INIT writes (R170). -/
def stateRegs : List Reg :=
  [.v0, .v1, .v2, .v3]

theorem readsKnown_roundOps : ReadsKnown stateRegs roundOps := by
  simp only [roundOps, ReadsKnown, readsOf, writesOf, stateRegs]
  decide

theorem readsKnown_compressOps {known : List Reg} (h : ∀ r ∈ stateRegs, r ∈ known) (hm : .m ∈ known) (c : Nat) :
    ReadsKnown known (compressOps c) := by
  have hmix : ∀ r, r ∈ stateRegs → ReadsKnown known [.xor r .m] := fun r hr => by simp [ReadsKnown, readsOf, h r hr, hm]
  exact ((hmix .v3 (by decide)).append ((readsKnown_roundOps.repeatOps c).mono h)).append (hmix .v0 (by decide))

theorem readsKnown_mixOps (d : Nat) : ReadsKnown stateRegs (mixOps d) := by
  have hrounds := readsKnown_roundOps.repeatOps d
  have hmask : ReadsKnown stateRegs [.ldi .t 255, .xor .v2 .t] := by simp [ReadsKnown, readsOf, writesOf, stateRegs]
  have hfold : ReadsKnown stateRegs [.xor .v0 .v1, .xor .v2 .v3, .xor .v0 .v2] := by simp [ReadsKnown, readsOf, stateRegs]
  exact (hmask.append hrounds).append hfold

@[simp] theorem readsOf_chunkLoad (width : Nat) (rd : Reg) : readsOf (chunkLoad width rd) = [] := by
  unfold chunkLoad; split_ifs <;> rfl

@[simp] theorem writesOf_chunkLoad (width : Nat) (rd : Reg) : writesOf (chunkLoad width rd) = [rd] := by
  unfold chunkLoad; split_ifs <;> rfl

/-- A chunk needs M alone: T is loaded first (R184). -/
theorem readsKnown_mergeChunks {known : List Reg} (hm : .m ∈ known) (chunks : List (Nat × Nat)) :
    ReadsKnown known (chunks.flatMap mergeChunk) := by
  induction chunks with
  | nil => trivial
  | cons chunk chunks ih =>
    have hshift : ReadsKnown (.t :: known) (if 0 < chunk.2 then [.shl .t (8 * chunk.2)] else []) := by
      split_ifs <;> simp [ReadsKnown, readsOf]
    have hmerge : ReadsKnown (.t :: known) [.or .m .t] := by simp [ReadsKnown, readsOf, hm]
    have hchunk : ReadsKnown known (mergeChunk chunk) := ⟨by simp, by simpa using hshift.append hmerge⟩
    exact hchunk.append ih

theorem readsKnown_tailOps (n : Norm) : ReadsKnown stateRegs (tailOps n) := by
  have hlater : ∀ {known : List Reg} (chunks : List (Nat × Nat)), (∀ r ∈ stateRegs, r ∈ known) → .m ∈ known →
      ReadsKnown known (chunks.flatMap mergeChunk ++ compressOps n.c.toNat) := fun chunks hstate hm =>
    (readsKnown_mergeChunks hm chunks).append (readsKnown_compressOps hstate hm _)
  unfold tailOps
  split_ifs with has hpos
  · have hstate : ∀ r ∈ stateRegs, r ∈ writesOf (.shl .m 56) ++ (writesOf (.ldi .m (n.size.toNat % 256)) ++ stateRegs) :=
      fun _ hr => List.mem_append_right _ (List.mem_append_right _ hr)
    exact ⟨by simp [readsOf], by simp [readsOf, writesOf], hlater _ hstate (by simp [writesOf])⟩
  · obtain ⟨chunk, chunks, -, hops⟩ := tailFixedOps_eq (Nat.mod_lt _ (by decide)) hpos
    rw [hops]
    exact ⟨by simp, hlater chunks (fun _ => List.mem_append_right _) (by simp)⟩
  · trivial

theorem readsKnown_program (n : Norm) : ReadsKnown [] (program n) := by
  have hblock : ReadsKnown stateRegs (blockOps n.c.toNat) := ⟨by simp [readsOf], readsKnown_compressOps (by decide) (by decide) _⟩
  have hfin : ReadsKnown stateRegs [.fin .v0 n.standard] := by simp [ReadsKnown, readsOf, stateRegs]
  have hbody := ((hblock.repeatOps (n.size.toNat / 8)).append (readsKnown_tailOps n)).append (readsKnown_mixOps n.d.toNat)
  rw [program_eq]
  exact ⟨by simp [readsOf], hbody.append hfin⟩

/-- Settles O47: the program is INIT, `bodyOps` and FIN; INIT writes the state words, every part writes M and T before it reads them. -/
theorem programShape : Obligations.ProgramShape := by
  unfold Obligations.ProgramShape
  refine fun n => ⟨⟨bodyOps n, program_eq n, fun i hi => isInner_iff.1 (List.all_eq_true.1 (isInner_bodyOps n) i hi)⟩,
    fun k i hi r hr => ?_⟩
  exact ((readsKnown_program n).read_written hi hr).resolve_left List.not_mem_nil

/-! ### The loads (R190) -/

/-- The widths of the loads of a list of micro-ops, in order. -/
def loadWidths (p : List Instr) : List Nat :=
  (p.map loadWidth).filter fun k => decide (0 < k)

/-- The bytes per lane a list of micro-ops reads. -/
def loadBytes (p : List Instr) : Nat :=
  (p.map loadWidth).sum

@[simp] theorem loadWidths_append (p q : List Instr) : loadWidths (p ++ q) = loadWidths p ++ loadWidths q := by
  simp [loadWidths]

@[simp] theorem loadBytes_append (p q : List Instr) : loadBytes (p ++ q) = loadBytes p + loadBytes q := by
  simp [loadBytes]

theorem loadWidths_repeatOps (p : List Instr) (n : Nat) :
    loadWidths (repeatOps n p) = (List.replicate n (loadWidths p)).flatten := by
  induction n with
  | zero => rfl
  | succ n ih => rw [repeatOps, loadWidths_append, ih, List.replicate_succ, List.flatten_cons]

/-- Micro-ops of width 0 do not count. -/
theorem loadWidths_sum (p : List Instr) : (loadWidths p).sum = loadBytes p := by
  have hzero : ∀ k ∈ p.map loadWidth, decide (0 < k) = (k != 0) := fun k _ => by cases k <;> rfl
  rw [loadWidths, List.filter_congr hzero, List.sum_filter_bne_zero, loadBytes]

theorem loadWidths_rounds (n : Nat) : loadWidths (repeatOps n roundOps) = [] := by
  have hround : loadWidths roundOps = [] := by decide
  rw [loadWidths_repeatOps, hround, List.flatten_replicate_nil]

theorem loadWidths_compressOps (c : Nat) : loadWidths (compressOps c) = [] := by
  rw [compressOps, loadWidths_append, loadWidths_append, loadWidths_rounds]
  decide

theorem loadWidths_blockOps (c : Nat) : loadWidths (blockOps c) = [8] := by
  have happend : blockOps c = [.ld64 .m] ++ compressOps c := rfl
  rw [happend, loadWidths_append, loadWidths_compressOps]
  decide

theorem loadWidths_mixOps (d : Nat) : loadWidths (mixOps d) = [] := by
  rw [mixOps, loadWidths_append, loadWidths_append, loadWidths_rounds]
  decide

/-- The widths of the chunks of `r` tail bytes (R130). -/
def tailWidths (r : Nat) : List Nat :=
  (if 4 ≤ r then [4] else []) ++ (if 2 ≤ r % 4 then [2] else []) ++ (if r % 2 = 1 then [1] else [])

theorem tailWidths_sum {r : Nat} (hr : r < 8) : (tailWidths r).sum = r := by
  have hall : ∀ r < 8, (tailWidths r).sum = r := by decide
  exact hall r hr

theorem loadWidths_tailAsOps {r : Nat} (hr : r < 8) (size : Nat) : loadWidths (tailAsOps r size) = tailWidths r := by
  have hall : ∀ r < 8, loadWidths ((tailChunks r).flatMap mergeChunk) = tailWidths r := by decide
  rw [tailAsOps, loadWidths_append, hall r hr]
  rfl

theorem loadWidths_tailFixedOps {r : Nat} (hr : r < 8) : loadWidths (tailFixedOps r) = tailWidths r := by
  have hall : ∀ r < 8, loadWidths (tailFixedOps r) = tailWidths r := by decide
  exact hall r hr

theorem loadWidths_tailOps (n : Norm) : loadWidths (tailOps n) = tailWidths (n.size.toNat % 8) := by
  have hr : n.size.toNat % 8 < 8 := Nat.mod_lt _ (by decide)
  unfold tailOps
  split_ifs with has hpos
  · rw [loadWidths_append, loadWidths_compressOps, List.append_nil, loadWidths_tailAsOps hr]
  · rw [loadWidths_append, loadWidths_compressOps, List.append_nil, loadWidths_tailFixedOps hr]
  · rw [Nat.eq_zero_of_not_pos hpos]; rfl

/-- The loads of a program: one of 8 bytes for each block, then the chunks of the tail. -/
theorem loadWidths_program (n : Norm) :
    loadWidths (program n) = List.replicate (n.size.toNat / 8) 8 ++ tailWidths (n.size.toNat % 8) := by
  have happend : program n = [.init] ++ bodyOps n ++ [.fin .v0 n.standard] := program_eq n
  rw [happend, bodyOps]
  simp only [loadWidths_append, loadWidths_repeatOps, loadWidths_blockOps, loadWidths_tailOps, loadWidths_mixOps,
    List.flatten_replicate_singleton, List.append_nil]
  exact List.append_nil _

theorem loadBytes_program (n : Norm) : loadBytes (program n) = n.size.toNat := by
  rw [← loadWidths_sum, loadWidths_program, List.sum_append, List.sum_replicate, tailWidths_sum (Nat.mod_lt _ (by decide)),
    smul_eq_mul, Nat.div_add_mod']

/-- Settles O48: the widths and the bytes of the loads of a program. -/
theorem programLoads : Obligations.ProgramLoads := by
  unfold Obligations.ProgramLoads
  refine fun n => ⟨?_, loadBytes_program n⟩
  have htail := loadWidths_program n
  rw [tailWidths, Nat.mod_mod_of_dvd _ (by decide : 4 ∣ 8), Nat.mod_mod_of_dvd _ (by decide : 2 ∣ 8)] at htail
  simp only [List.append_assoc] at htail ⊢
  exact htail

end Sys2Proof.Machine
end

section
/-! Proofs of the sequencer family (44_sequencer), one lane: what the micro-ops of a program make of a lane that reads its record from
`bytes`. The parts of a program act on the state words as the functions of 40_algorithm do, and the result register ends with `H64` of
the record (R192). -/

namespace Sys2Proof.Machine

/-! ### A micro-op on one lane -/

/-- The word of a list of bytes, the first the least significant (R11, R126). -/
def leWord (bytes : List Byte) : Word :=
  BitVec.ofNat 64 (leValue bytes)

/-- What a micro-op makes of a lane whose record goes on with `bytes`, in a call with initial state `iv`. -/
def Lane.after (iv : SipState) (bytes : List Byte) (x : Lane) : Instr → Lane
  | .init => x.initFrom (some iv)
  | .add rd rs => x.set rd (lift2 (fun a b => a + b) (x.get rd) (x.get rs))
  | .xor rd rs => x.set rd (lift2 (fun a b => a ^^^ b) (x.get rd) (x.get rs))
  | .or rd rs => x.set rd (lift2 (fun a b => a ||| b) (x.get rd) (x.get rs))
  | .shl rd n => x.set rd (lift1 (fun a => a <<< n) (x.get rd))
  | .rotl rd n => x.set rd (lift1 (fun a => rotl64 a n) (x.get rd))
  | .ldi rd b => x.set rd (some (zextByte b))
  | .ld8 rd => x.set rd (some (leWord (bytes.take 1)))
  | .ld16 rd => x.set rd (some (leWord (bytes.take 2)))
  | .ld32 rd => x.set rd (some (leWord (bytes.take 4)))
  | .ld64 rd => x.set rd (some (leWord (bytes.take 8)))
  | .fin _ _ => x

/-- What a list of micro-ops makes of a lane: each load takes its bytes from the front of what is left of the record. -/
def Lane.run (iv : SipState) : List Byte → Lane → List Instr → Lane
  | _, x, [] => x
  | bytes, x, i :: p => Lane.run iv (bytes.drop (loadWidth i)) (x.after iv bytes i) p

section lane
variable (iv : SipState) (bytes : List Byte)

theorem lane_run_append (p q : List Instr) : ∀ (bytes : List Byte) (x : Lane),
    x.run iv bytes (p ++ q) = (x.run iv bytes p).run iv (bytes.drop (loadBytes p)) q := by
  induction p with
  | nil => exact fun _ _ => rfl
  | cons i p ih =>
    intro bytes x
    rw [List.cons_append, Lane.run, ih, List.drop_drop]
    rfl

/-- A lane with the state words `v`, and M and T as given. -/
def stateLane (v : SipState) (m t : Option Word) : Lane :=
  { v0 := some v.v0, v1 := some v.v1, v2 := some v.v2, v3 := some v.v3, m := m, t := t }

/-! ### Rounds and blocks (R123 to R126) -/

/-- The fourteen micro-ops of ROUND are the fourteen steps of the round. -/
theorem run_roundOps (v : SipState) (m t : Option Word) :
    (stateLane v m t).run iv bytes roundOps = stateLane (sipRound v) m t := rfl

theorem run_rounds (c : Nat) : ∀ (bytes : List Byte) (v : SipState) (m t : Option Word),
    (stateLane v m t).run iv bytes (repeatOps c roundOps) = stateLane (sipRounds c v) m t := by
  induction c with
  | zero => exact fun _ _ _ _ => rfl
  | succ c ih => exact fun bytes v m t => by rw [repeatOps, lane_run_append, run_roundOps, ih, sipRounds]

theorem run_compressOps (c : Nat) (v : SipState) (m : Word) (t : Option Word) :
    (stateLane v (some m) t).run iv bytes (compressOps c) = stateLane (compress v m c) (some m) t := by
  have hinject : (stateLane v (some m) t).run iv bytes [.xor .v3 .m] =
      stateLane { v with v3 := v.v3 ^^^ m } (some m) t := rfl
  rw [compressOps, lane_run_append, lane_run_append, hinject, run_rounds]
  rfl

/-- A BLOCK compresses the next eight bytes (R126). -/
theorem run_blockOps (c : Nat) (v : SipState) (m t : Option Word) : (stateLane v m t).run iv bytes (blockOps c) =
    stateLane (compress v (leWord (bytes.take 8)) c) (some (leWord (bytes.take 8))) t :=
  run_compressOps iv _ c v _ t

theorem loadBytes_blockOps (c : Nat) : loadBytes (blockOps c) = 8 := by
  rw [← loadWidths_sum, loadWidths_blockOps]; rfl

theorem run_blocks (c b : Nat) : ∀ (bytes : List Byte) (v : SipState) (m t : Option Word), ∃ m',
    (stateLane v m t).run iv bytes (repeatOps b (blockOps c)) = stateLane (compressBlocks c b v bytes) m' t := by
  induction b with
  | zero => exact fun _ _ m _ => ⟨m, rfl⟩
  | succ b ih =>
    intro bytes v m t
    rw [repeatOps, lane_run_append, run_blockOps, loadBytes_blockOps]
    exact ih _ _ _ t

/-! ### The tail (R127 to R131) -/

/-- The word of two lists of bytes, one after the other. -/
theorem leWord_append (as bs : List Byte) : leWord (as ++ bs) = leWord as ||| leWord bs <<< (8 * as.length) := by
  have hlow : leValue as < 2 ^ (8 * as.length) := by
    have hlt := ByteLaws.leValue_lt as
    rwa [show 256 = 2 ^ 8 by rfl, ← Nat.pow_mul] at hlt
  have hsum : leValue (as ++ bs) = leValue as ||| leValue bs * 2 ^ (8 * as.length) := by
    rw [ByteLaws.leValue_append, or_mul_two_pow hlow, Nat.mul_comm (leValue bs), Nat.pow_mul]
  rw [leWord, hsum, BitVec.ofNat_or, ofNat_mul_two_pow]
  rfl

/-- Chunks that follow each other from byte `pos` up, each of a width that has a load (R130). -/
def Contiguous : Nat → List (Nat × Nat) → Bool
  | _, [] => true
  | pos, (width, offset) :: chunks =>
    decide (offset = pos) && decide (width = 4 ∨ width = 2 ∨ width = 1) && Contiguous (pos + width) chunks

/-- The bytes in a list of chunks. -/
def chunkBytes (chunks : List (Nat × Nat)) : Nat :=
  (chunks.map Prod.fst).sum

/-- The chunks of `r` tail bytes are those bytes from the first on. -/
theorem tailChunks_contiguous {r : Nat} (hr : r < 8) : Contiguous 0 (tailChunks r) = true ∧ chunkBytes (tailChunks r) = r := by
  have hall : ∀ r < 8, Contiguous 0 (tailChunks r) = true ∧ chunkBytes (tailChunks r) = r := by decide
  exact hall r hr

theorem after_chunkLoad {width : Nat} (hw : width = 4 ∨ width = 2 ∨ width = 1) (x : Lane) (rd : Reg) :
    x.after iv bytes (chunkLoad width rd) = x.set rd (some (leWord (bytes.take width))) := by
  obtain rfl | rfl | rfl := hw <;> rfl

theorem loadWidth_chunkLoad {width : Nat} (hw : width = 4 ∨ width = 2 ∨ width = 1) (rd : Reg) :
    loadWidth (chunkLoad width rd) = width := by
  obtain rfl | rfl | rfl := hw <;> rfl

/-- A chunk at byte `pos` is merged into M there. -/
theorem run_mergeChunk {width : Nat} (hw : width = 4 ∨ width = 2 ∨ width = 1) (pos : Nat) (v : SipState) (m : Word)
    (t : Option Word) : ∃ t', (stateLane v (some m) t).run iv bytes (mergeChunk (width, pos)) =
      stateLane v (some (m ||| leWord (bytes.take width) <<< (8 * pos))) t' := by
  rw [mergeChunk, List.append_assoc, List.singleton_append, Lane.run, after_chunkLoad iv bytes hw]
  split
  · exact ⟨_, rfl⟩
  · next hpos =>
    obtain rfl : pos = 0 := Nat.eq_zero_of_not_pos hpos
    refine ⟨some (leWord (bytes.take width)), ?_⟩
    rw [Nat.mul_zero, BitVec.shiftLeft_zero]
    rfl

theorem loadBytes_mergeChunk {width : Nat} (hw : width = 4 ∨ width = 2 ∨ width = 1) (pos : Nat) :
    loadBytes (mergeChunk (width, pos)) = width := by
  have hload : loadBytes [chunkLoad width .t] = width := loadWidth_chunkLoad hw .t
  have hshift : loadBytes (if 0 < pos then [.shl .t (8 * pos)] else []) = 0 := by split <;> rfl
  have hmerge : loadBytes [.or .m .t] = 0 := rfl
  rw [mergeChunk, loadBytes_append, loadBytes_append, hload, hshift, hmerge]
  rfl

/-- With the bytes `done` below them in M, contiguous chunks add the next bytes of the record. -/
theorem run_mergeChunks (v : SipState) (high : Word) (chunks : List (Nat × Nat)) : ∀ (bytes done : List Byte) (t : Option Word),
    Contiguous done.length chunks = true → chunkBytes chunks ≤ bytes.length →
    ∃ t', (stateLane v (some (high ||| leWord done)) t).run iv bytes (chunks.flatMap mergeChunk) =
      stateLane v (some (high ||| leWord (done ++ bytes.take (chunkBytes chunks)))) t' := by
  induction chunks with
  | nil => exact fun bytes done t _ _ => ⟨t, by simp [chunkBytes, Lane.run]⟩
  | cons chunk chunks ih =>
    obtain ⟨width, pos⟩ := chunk
    intro bytes done t hc hlen
    simp only [Contiguous, Bool.and_eq_true, decide_eq_true_eq] at hc
    obtain ⟨⟨rfl, hw⟩, hrest⟩ := hc
    have hbytes : chunkBytes ((width, done.length) :: chunks) = width + chunkBytes chunks := by simp [chunkBytes]
    rw [hbytes] at hlen ⊢
    have hdone : (done ++ bytes.take width).length = done.length + width := by
      rw [List.length_append, List.length_take_of_le (by omega)]
    obtain ⟨t', hchunk⟩ := run_mergeChunk iv bytes hw done.length v (high ||| leWord done) t
    rw [BitVec.or_assoc, ← leWord_append] at hchunk
    rw [List.flatMap_cons, lane_run_append, hchunk, loadBytes_mergeChunk hw, List.take_add, ← List.append_assoc]
    exact ih (bytes.drop width) _ t' (hdone ▸ hrest) (by rw [List.length_drop]; omega)

/-- TAIL_AS leaves the tail bytes with the size byte above them in M (R128, R184). -/
theorem run_tailAsOps (v : SipState) (m t : Option Word) (size : Nat) (hlen : bytes.length < 8) :
    ∃ t', (stateLane v m t).run iv bytes (tailAsOps bytes.length size) =
      stateLane v (some (leWord bytes ||| BitVec.ofNat 64 (size % 256) <<< 56)) t' := by
  obtain ⟨hc, hbytes⟩ := tailChunks_contiguous hlen
  have hsize : (stateLane v m t).run iv bytes [.ldi .m (size % 256), .shl .m 56] =
      stateLane v (some (BitVec.ofNat 64 (size % 256) <<< 56 ||| leWord [])) t :=
    congrArg (fun a => stateLane v (some a) t) BitVec.or_zero.symm
  obtain ⟨t', hmerge⟩ := run_mergeChunks iv v (BitVec.ofNat 64 (size % 256) <<< 56) _ bytes [] t hc hbytes.le
  rw [hbytes, List.nil_append, List.take_length, BitVec.or_comm _ (leWord bytes)] at hmerge
  exact ⟨t', by rw [tailAsOps, lane_run_append, hsize]; exact hmerge⟩

/-- TAIL_FIXED leaves the tail bytes in M (R129, R185). -/
theorem run_tailFixedOps (v : SipState) (m t : Option Word) (hlen : bytes.length < 8) (hpos : 0 < bytes.length) :
    ∃ t', (stateLane v m t).run iv bytes (tailFixedOps bytes.length) = stateLane v (some (leWord bytes)) t' := by
  obtain ⟨⟨width, pos⟩, chunks, hchunks, hops⟩ := tailFixedOps_eq hlen hpos
  obtain ⟨hc, hbytes⟩ := tailChunks_contiguous hlen
  rw [hchunks] at hc hbytes
  simp only [Contiguous, Bool.and_eq_true, decide_eq_true_eq, Nat.zero_add] at hc
  obtain ⟨⟨-, hw⟩, hrest⟩ := hc
  have hsum : width + chunkBytes chunks = bytes.length := by simpa [chunkBytes] using hbytes
  have hfirst : (bytes.take width).length = width := List.length_take_of_le (by omega)
  have hload : (stateLane v m t).after iv bytes (chunkLoad width .m) =
      stateLane v (some (leWord (bytes.take width))) t := after_chunkLoad iv bytes hw _ .m
  obtain ⟨t', hmerge⟩ := run_mergeChunks iv v 0#64 chunks (bytes.drop width) (bytes.take width) t (hfirst.symm ▸ hrest)
    (by rw [List.length_drop]; omega)
  rw [← List.take_add, hsum, List.take_length] at hmerge
  simp only [BitVec.zero_or] at hmerge
  exact ⟨t', by rw [hops, Lane.run, hload, loadWidth_chunkLoad hw]; exact hmerge⟩

/-- The tail of a program acts on the state words as the tail step of either policy (R128, R129, R131). -/
theorem run_tailOps {n : Norm} {record : List Byte} (hlen : record.length = n.size.toNat) (v : SipState) (m t : Option Word) :
    ∃ m' t', (stateLane v m t).run iv (record.drop (8 * (n.size.toNat / 8))) (tailOps n) =
      stateLane (tailStep n record v) m' t' := by
  have hrest : (record.drop (8 * (n.size.toNat / 8))).length = n.size.toNat % 8 := by
    rw [List.length_drop, hlen]; omega
  have hr : n.size.toNat % 8 < 8 := Nat.mod_lt _ (by decide)
  unfold tailOps tailStep
  split_ifs with has hpos
  · obtain ⟨t', htail⟩ := run_tailAsOps iv _ v m t n.size.toNat (hrest.trans_lt hr)
    rw [hrest] at htail
    exact ⟨_, t', by rw [lane_run_append, htail, run_compressOps]; rfl⟩
  · obtain ⟨t', htail⟩ := run_tailFixedOps iv _ v m t (hrest.trans_lt hr) (hrest.symm ▸ hpos)
    rw [hrest] at htail
    exact ⟨_, t', by rw [lane_run_append, htail, run_compressOps]; rfl⟩
  · exact ⟨m, t, rfl⟩

/-! ### The result word (R132, R135) -/

/-- The finalization leaves its word in V0 (R132, R186). -/
theorem run_mixOps (d : Nat) (v : SipState) (m t : Option Word) :
    ((stateLane v m t).run iv bytes (mixOps d)).get .v0 = some (finalize v d) := by
  have hmask : (stateLane v m t).run iv bytes [.ldi .t 255, .xor .v2 .t] =
      stateLane { v with v2 := v.v2 ^^^ 0xff#64 } m (some 0xff#64) := rfl
  have hfold : ∀ (bytes : List Byte) (u : SipState),
      ((stateLane u m (some 0xff#64)).run iv bytes [.xor .v0 .v1, .xor .v2 .v3, .xor .v0 .v2]).get .v0 =
        some (u.v0 ^^^ u.v1 ^^^ (u.v2 ^^^ u.v3)) := fun _ _ => rfl
  rw [mixOps, lane_run_append, lane_run_append, hmask, run_rounds, hfold, ← BitVec.xor_assoc]
  rfl

theorem loadBytes_blocks (c b : Nat) : loadBytes (repeatOps b (blockOps c)) = 8 * b := by
  rw [← loadWidths_sum, loadWidths_repeatOps, loadWidths_blockOps, List.flatten_replicate_singleton, List.sum_replicate,
    smul_eq_mul, Nat.mul_comm]

/-- The micro-program computes `H64` of the record its loads read (R192). -/
theorem run_program {n : Norm} {record : List Byte} (hlen : record.length = n.size.toNat) (x : Lane) :
    (x.run iv record (program n)).get .v0 = some (hash64From iv n record) := by
  have hinit : x.after iv record .init = stateLane iv x.m x.t := rfl
  obtain ⟨m, hblocks⟩ := run_blocks iv n.c.toNat (n.size.toNat / 8) record iv x.m x.t
  obtain ⟨m', t', htail⟩ := run_tailOps iv hlen (compressBlocks n.c.toNat (n.size.toNat / 8) iv record) m x.t
  rw [program_eq, Lane.run, hinit, loadWidth, List.drop_zero, lane_run_append, bodyOps, lane_run_append, lane_run_append, hblocks,
    loadBytes_blocks, htail]
  exact run_mixOps iv _ _ _ m' t'

end lane

end Sys2Proof.Machine
end

section
/-! Proofs of the sequencer family (44_sequencer), a call: every step of a call runs the next micro-op of its program on all lanes, each
of which reads its own record, and FIN delivers what the lanes hold (R192). Why no step faults is said by the shape and the loads of a
program: a register that is read was written before, and the loads stay within the record. -/

namespace Sys2Proof.Machine

/-! ### One micro-op on the lanes -/

/-- An engine after a micro-op that is not FIN, in a call with initial state `iv`; lane `l` reads from the front of `bytes l`. -/
def Engine.afterOp (iv : SipState) (bytes : Nat → List Byte) (e : Engine) (i : Instr) : Engine :=
  { e with
    lanes := e.lanes.mapIdx fun l x => x.after iv (bytes l) i
    upc := e.upc + 1
    cur := e.cur + loadWidth i }

section exec
variable {u : State} {iv : SipState} {bytes : Nat → List Byte} {i : Instr}

/-- With its operands written, a micro-op that is neither a load nor FIN acts on every lane alone. -/
theorem exec_of_written (hfin : isFin i = false) (hwidth : loadWidth i = 0) (hiv : u.eng.iv = some iv)
    (hreads : ∀ r ∈ readsOf i, Written u r) : exec i u = .next (u.putEng (u.eng.afterOp iv bytes i)) := by
  cases i with
  | init => exact congrArg (fun k => Host.Outcome.next (u.putEng (u.eng.mapLanes fun _ x => x.initFrom k).advance)) hiv
  | add rd rs => exact aluOp_written hreads
  | xor rd rs => exact aluOp_written hreads
  | or rd rs => exact aluOp_written hreads
  | shl rd n => exact aluOp_written hreads
  | rotl rd n => exact aluOp_written hreads
  | ldi rd b => rfl
  | ld8 rd => cases hwidth
  | ld16 rd => cases hwidth
  | ld32 rd => cases hwidth
  | ld64 rd => cases hwidth
  | fin rs standard => cases hfin

/-- A load from memory puts into each lane the word of the bytes at its address, which are the next ones of its record. -/
theorem exec_memoryLoad (hwidth : 0 < loadWidth i) (hv : u.eng.variant ≠ .scalarImm) (hstop : loadStop u (loadWidth i) = none)
    (hbytes : ∀ l, Memory.readBytes u.mem (u.eng.ea l) (loadWidth i) = (bytes l).take (loadWidth i)) :
    exec i u = .next (u.putEng (u.eng.afterOp iv bytes i)) := by
  have hload : ∃ rd, exec i u = memLoad (loadWidth i) rd u ∧
      ∀ l (x : Lane), x.after iv (bytes l) i = x.set rd (some (leWord ((bytes l).take (loadWidth i)))) := by
    cases i with
    | ld8 rd => exact ⟨rd, if_neg hv, fun _ _ => rfl⟩
    | ld16 rd => exact ⟨rd, if_neg hv, fun _ _ => rfl⟩
    | ld32 rd => exact ⟨rd, if_neg hv, fun _ _ => rfl⟩
    | ld64 rd => exact ⟨rd, if_neg hv, fun _ _ => rfl⟩
    | _ => exact absurd hwidth (Nat.lt_irrefl 0)
  obtain ⟨rd, hexec, hafter⟩ := hload
  have hloaded : u.eng.loaded u.mem (loadWidth i) rd = u.eng.afterOp iv bytes i := by
    simp only [Engine.afterOp, hafter, ← hbytes]
    rfl
  rw [hexec, memLoad_admitted hstop, hloaded]

/-- The word of the eight bytes of a word. -/
theorem leWord_bytesLE (a : Word) : leWord (bytesLE 8 a.toNat) = a := by
  apply BitVec.eq_of_toNat_eq
  rw [leWord, ByteLaws.leValue_bytesLE, BitVec.toNat_ofNat]
  have ha := a.isLt
  omega

/-- LD64 at the start of a call on SCALAR_IMM puts the bytes of `ARG` into each lane (R166). -/
theorem exec_immediateLoad {rd : Reg} {a : Word} (hv : u.eng.variant = .scalarImm) (hcur : u.eng.cur = 0)
    (harg : u.eng.arg = some a) (hbytes : ∀ l, (bytes l).take 8 = bytesLE 8 a.toNat) :
    exec (.ld64 rd) u = .next (u.putEng (u.eng.afterOp iv bytes (.ld64 rd))) := by
  have hexec : exec (.ld64 rd) u = immLoad rd u := (if_pos hv).trans (if_pos hcur)
  have hloaded : { (u.eng.mapLanes fun _ x => x.set rd (some a)).advance with cur := 8 } = u.eng.afterOp iv bytes (.ld64 rd) := by
    simp only [Engine.afterOp, Lane.after, hbytes, leWord_bytesLE, hcur]
    rfl
  rw [hexec, immLoad_arg harg, hloaded]

end exec

/-! ### The step that fetches a micro-op (R229) -/

/-- With no event pending, a BUSY active engine runs the micro-op whose word is at `upc`. -/
theorem step_fetch {u : State} {i : Instr} (hpend : u.pending = []) (hbusy : u.eng.status = .busy)
    (hword : u.eng.prog[u.eng.upc]? = some (encode i)) (hwf : i.wellFormed = true) : step u = exec i u := by
  have hschedule : schedule u = u := if_pos hbusy
  have hengine : engineStep u = fetchExec u := if_pos hbusy
  rw [step, hpend]
  simp only [hschedule, hengine, fetchExec, hword, decodeOfEncode i hwf]

/-- A run whose first step answers a next state goes on from there. -/
theorem run_of_step {s s' : State} (h : step s = .next s') (k : Nat) :
    Sys2Proof.core.run (k + 1) s = Sys2Proof.core.run k s' := by
  have hstep : Sys2Proof.core.step s = .next s' := h
  simp only [Host.Core.run, hstep]

/-- A run that answers a next state goes on by a step of that state. -/
theorem run_succ {k : Nat} : ∀ {s u : State}, Sys2Proof.core.run k s = .next u → Sys2Proof.core.run (k + 1) s = step u := by
  induction k with
  | zero =>
    intro s u h
    obtain rfl : s = u := Host.Outcome.next.inj h
    show Sys2Proof.core.run 1 s = Sys2Proof.core.step s
    simp only [Host.Core.run]
    cases Sys2Proof.core.step s <;> rfl
  | succ k ih =>
    intro s u h
    cases hstep : step s with
    | next s' => rw [run_of_step hstep] at h ⊢; exact ih h
    | fault r =>
      have hfault : Sys2Proof.core.step s = .fault r := hstep
      simp [Host.Core.run, hfault] at h
    | refused r =>
      have hrefused : Sys2Proof.core.step s = .refused r := hstep
      simp [Host.Core.run, hrefused] at h

/-! ### A call in progress -/

/-- What the loads of a call that starts in `s` read, as the record of each lane: memory at `IN_PTR`, or on SCALAR_IMM the bytes of
`ARG` (R160, R166, R202). -/
inductive CallRecords (s : State) (n : Norm) : (Nat → List Byte) → Prop
  | memory (p : Word) : s.eng.variant ≠ .scalarImm → s.eng.inPtr = some p →
      InputAdmitted s n p.toNat s.eng.variant.lanes → CallRecords s n (recordAt s.mem n p.toNat)
  | immediate (a : Word) : s.eng.variant = .scalarImm → s.eng.arg = some a → CallRecords s n fun _ => bytesLE 8 a.toNat

/-- The state of a call that starts in `s`, once the micro-ops `done` of its program have run. -/
def State.afterOps (s : State) (iv : SipState) (record : Nat → List Byte) (done : List Instr) : State :=
  s.putEng { s.eng with
    lanes := s.eng.lanes.mapIdx fun l x => x.run iv (record l) done
    upc := done.length
    cur := loadBytes done }

/-- One more micro-op. -/
theorem afterOps_snoc (s : State) (iv : SipState) (record : Nat → List Byte) (done : List Instr) (i : Instr) :
    (s.afterOps iv record done).putEng
      ((s.afterOps iv record done).eng.afterOp iv (fun l => (record l).drop (loadBytes done)) i) =
    s.afterOps iv record (done ++ [i]) := by
  have hwidth : loadBytes [i] = loadWidth i := Nat.add_zero _
  simp [State.afterOps, Engine.afterOp, lane_run_append, hwidth, Lane.run, List.mapIdx_mapIdx, Function.comp_def]

/-! ### Operands hold values (R189, R258) -/

theorem lift1_ne_none {f : Word → Word} {a : Option Word} (ha : a ≠ none) : lift1 f a ≠ none := by
  obtain ⟨a, rfl⟩ := Option.ne_none_iff_exists'.1 ha
  exact Option.some_ne_none _

theorem lift2_ne_none {f : Word → Word → Word} {a b : Option Word} (ha : a ≠ none) (hb : b ≠ none) : lift2 f a b ≠ none := by
  obtain ⟨a, rfl⟩ := Option.ne_none_iff_exists'.1 ha
  obtain ⟨b, rfl⟩ := Option.ne_none_iff_exists'.1 hb
  exact Option.some_ne_none _

/-- A register that is set to a value, or held one, holds one. -/
theorem lane_set_get_ne_none {x : Lane} {rd r : Reg} {v : Option Word} (hv : v ≠ none) (hr : r ∈ [rd] ∨ x.get r ≠ none) :
    (x.set rd v).get r ≠ none := by
  by_cases hrd : r = rd
  · rw [hrd, lane_get_set]; exact hv
  · rw [lane_get_set_ne x v hrd]
    exact hr.resolve_left fun hmem => hrd (List.mem_singleton.1 hmem)

/-- A micro-op whose operands hold values gives values to the registers it writes and takes none away. -/
theorem lane_after_get_ne_none (iv : SipState) (bytes : List Byte) {x : Lane} {i : Instr} {r : Reg}
    (hreads : ∀ q ∈ readsOf i, x.get q ≠ none) (hr : r ∈ writesOf i ∨ x.get r ≠ none) : (x.after iv bytes i).get r ≠ none := by
  have htwo : ∀ {rd rs : Reg} (f : Word → Word → Word), (∀ q ∈ [rd, rs], x.get q ≠ none) → lift2 f (x.get rd) (x.get rs) ≠ none :=
    fun _ hq => lift2_ne_none (hq _ (by simp)) (hq _ (by simp))
  have hone : ∀ {rd : Reg} (f : Word → Word), (∀ q ∈ [rd], x.get q ≠ none) → lift1 f (x.get rd) ≠ none :=
    fun _ hq => lift1_ne_none (hq _ (by simp))
  cases i with
  | init =>
    cases r with
    | m => exact hr.resolve_left (by decide)
    | t => exact hr.resolve_left (by decide)
    | _ => exact Option.some_ne_none _
  | add rd rs => exact lane_set_get_ne_none (htwo _ hreads) hr
  | xor rd rs => exact lane_set_get_ne_none (htwo _ hreads) hr
  | or rd rs => exact lane_set_get_ne_none (htwo _ hreads) hr
  | shl rd n => exact lane_set_get_ne_none (hone _ hreads) hr
  | rotl rd n => exact lane_set_get_ne_none (hone _ hreads) hr
  | ldi rd b => exact lane_set_get_ne_none (Option.some_ne_none _) hr
  | ld8 rd => exact lane_set_get_ne_none (Option.some_ne_none _) hr
  | ld16 rd => exact lane_set_get_ne_none (Option.some_ne_none _) hr
  | ld32 rd => exact lane_set_get_ne_none (Option.some_ne_none _) hr
  | ld64 rd => exact lane_set_get_ne_none (Option.some_ne_none _) hr
  | fin rs standard => exact hr.resolve_left List.not_mem_nil

/-- The operands of the next micro-op hold values in a lane that started with values in the registers of `known`. -/
theorem operands_written (iv : SipState) {i : Instr} {rest : List Instr} (done : List Instr) :
    ∀ {known : List Reg} {bytes : List Byte} {x : Lane}, ReadsKnown known (done ++ i :: rest) →
      (∀ r ∈ known, x.get r ≠ none) → ∀ r ∈ readsOf i, (x.run iv bytes done).get r ≠ none := by
  induction done with
  | nil => exact fun hp hknown r hr => hknown r (hp.1 r hr)
  | cons j done ih =>
    rintro known bytes x ⟨hreads, hrest⟩ hknown
    have hoperands : ∀ r ∈ readsOf j, x.get r ≠ none := fun r hr => hknown r (hreads r hr)
    exact ih hrest fun r hr =>
      lane_after_get_ne_none iv bytes hoperands ((List.mem_append.1 hr).imp_right (hknown r))

/-! ### The loads of a call (R160, R166, R190) -/

/-- Some addresses of a row that passes the test. -/
theorem allAddresses_part {ok : Nat → Bool} {a n c k : Nat} (h : allAddresses ok a n = true) (hk : c + k ≤ n) :
    allAddresses ok (a + c) k = true :=
  allAddresses_eq_true fun j hj => by
    rw [Nat.add_assoc]
    exact List.all_eq_true.1 h _ (List.mem_range.2 (by omega))

/-- Some bytes of a row of bytes read. -/
theorem readBytes_part (m : Memory) (a : Nat) {n c k : Nat} (hk : c + k ≤ n) :
    m.readBytes (a + c) k = ((m.readBytes a n).drop c).take k := by
  obtain ⟨j, rfl⟩ := Nat.exists_eq_add_of_le hk
  rw [Nat.add_assoc, ByteLaws.readBytes_add, List.drop_left' (ByteLaws.readBytes_length m c a), ByteLaws.readBytes_add,
    List.take_left' (ByteLaws.readBytes_length m k (a + c))]

section call
variable {s : State} {n : Norm} {iv : SipState} {record : Nat → List Byte}

theorem afterOps_nil (h : AtCallStart s n iv) : s.afterOps iv record [] = s := by
  obtain ⟨-, -, hupc, hcur, -⟩ := h
  have hlanes : s.eng.lanes.mapIdx (fun _ x => x) = s.eng.lanes := List.ext_getElem? fun k => by simp
  have heng : ({ s.eng with upc := 0, cur := 0 } : Engine) = s.eng :=
    (congrArg₂ (fun k c => ({ s.eng with upc := k, cur := c } : Engine)) hupc hcur).symm
  calc s.afterOps iv record []
      = s.putEng { s.eng with lanes := s.eng.lanes.mapIdx fun _ x => x, upc := 0, cur := 0 } := rfl
    _ = s.putEng { s.eng with upc := 0, cur := 0 } := by rw [hlanes]
    _ = s := by rw [heng, putEng_eng]

theorem afterOps_eng (done : List Instr) : (s.afterOps iv record done).eng =
    { s.eng with
      lanes := s.eng.lanes.mapIdx fun l x => x.run iv (record l) done
      upc := done.length
      cur := loadBytes done } :=
  eng_putEng s _

/-- Every record of a call is `size` bytes long. -/
theorem CallRecords.length (hrec : CallRecords s n record) (h : AtCallStart s n iv) (l : Nat) :
    (record l).length = n.size.toNat := by
  obtain ⟨-, -, -, -, -, -, -, ⟨-, himm, -⟩, -⟩ := h
  cases hrec with
  | memory p _ _ _ => exact ByteLaws.readBytes_length _ _ _
  | immediate a hv _ => rw [(himm hv).1]; exact ByteLaws.bytesLE_length 8 _

/-- The next micro-op of a call that is a load reads the next bytes of every record. -/
theorem exec_load_afterOps (h : AtCallStart s n iv) (hrec : CallRecords s n record) {done rest : List Instr} {i : Instr}
    (hprogram : program n = done ++ i :: rest) (hwidth : 0 < loadWidth i) :
    exec i (s.afterOps iv record done) = .next (s.afterOps iv record (done ++ [i])) := by
  obtain ⟨-, -, -, -, -, hnorm, -, ⟨-, himm, -⟩, hlanes⟩ := h
  have hfits : loadBytes done + loadWidth i ≤ n.size.toNat := by
    have hcons : loadBytes (i :: rest) = loadWidth i + loadBytes rest := List.sum_cons
    rw [← loadBytes_program, hprogram, loadBytes_append, hcons]
    omega
  rw [← afterOps_snoc]
  cases hrec with
  | memory p hv hp hadmitted =>
    have hea : ∀ l, (s.afterOps iv (recordAt s.mem n p.toNat) done).eng.ea l =
        p.toNat + l * n.stride.toNat + loadBytes done := fun l => by
      rw [afterOps_eng]; simp [Engine.ea, Engine.strideValue, hp, hnorm, ptrValue]
    refine exec_memoryLoad hwidth (by rw [afterOps_eng]; exact hv) ((loadStop_eq_none_iff _ _).2 ⟨?_, ?_, ?_⟩) fun l => ?_
    · rw [afterOps_eng]; exact hp ▸ Option.some_ne_none p
    · rw [afterOps_eng]; exact fun hnone => absurd (hnorm.symm.trans hnone) (by simp)
    · intro l hl
      rw [hea]
      refine allAddresses_part (hadmitted l ?_) hfits
      rwa [afterOps_eng, List.length_mapIdx, hlanes] at hl
    · rw [hea]
      exact readBytes_part _ _ hfits
  | immediate a hv ha =>
    obtain ⟨hsize, -⟩ := himm hv
    have hwidths : loadWidths (program n) = [8] := by rw [loadWidths_program, hsize]; rfl
    have hmem : loadWidth i ∈ loadWidths (program n) := by rw [hprogram]; simp [loadWidths, hwidth]
    have hwidth8 : loadWidth i = 8 := List.mem_singleton.1 (hwidths ▸ hmem)
    have hzero : loadBytes done = 0 := by
      rw [hwidth8, hsize] at hfits
      exact Nat.le_zero.1 (Nat.le_of_add_le_add_right (hfits.trans (Nat.zero_add 8).ge))
    obtain ⟨rd, rfl⟩ : ∃ rd, i = .ld64 rd := by
      cases i with
      | ld64 rd => exact ⟨rd, rfl⟩
      | _ => cases hwidth8
    refine exec_immediateLoad (a := a) ?_ ?_ ?_ fun l => ?_
    · rw [afterOps_eng]; exact hv
    · rw [afterOps_eng]; exact hzero
    · rw [afterOps_eng]; exact ha
    · rw [hzero, List.drop_zero, List.take_of_length_le (ByteLaws.bytesLE_length 8 _).le]

/-! ### The steps of a call (R192, R229) -/

/-- A step of a call runs the next micro-op of its program. -/
theorem step_afterOps (h : AtCallStart s n iv) {done rest : List Instr} {i : Instr} (hprogram : program n = done ++ i :: rest) :
    step (s.afterOps iv record done) = exec i (s.afterOps iv record done) := by
  obtain ⟨hpend, hbusy, -, -, -, -, hprog, -⟩ := h
  refine step_fetch hpend ?_ ?_ (wellFormed_of_mem_program n i (by simp [hprogram]))
  · rw [afterOps_eng]; exact hbusy
  · rw [afterOps_eng]
    simp [hprog, programWords, hprogram]

/-- In a call no operand of the next micro-op holds NOVALUE. -/
theorem written_afterOps {done rest : List Instr} {i : Instr} (hprogram : program n = done ++ i :: rest) :
    ∀ r ∈ readsOf i, Written (s.afterOps iv record done) r := by
  intro r hr x hx
  rw [afterOps_eng] at hx
  obtain ⟨l, hl, rfl⟩ := List.mem_mapIdx.1 hx
  exact operands_written iv done (hprogram ▸ readsKnown_program n) (fun _ hr => absurd hr List.not_mem_nil) r hr

/-- A step of a call, up to FIN, completes its micro-op. -/
theorem step_call (h : AtCallStart s n iv) (hrec : CallRecords s n record) {done rest : List Instr} {i : Instr}
    (hprogram : program n = done ++ i :: rest) (hrest : rest ≠ []) :
    step (s.afterOps iv record done) = .next (s.afterOps iv record (done ++ [i])) := by
  have hfin : isFin i = false := by
    have hinit : done ++ i :: rest.dropLast = .init :: bodyOps n := by
      have hdrop := congrArg List.dropLast (hprogram.symm.trans (program_eq n))
      rwa [List.dropLast_append_of_ne_nil (List.cons_ne_nil i rest), List.dropLast_cons_of_ne_nil hrest, ← List.cons_append,
        List.dropLast_concat] at hdrop
    have hmem : i ∈ Instr.init :: bodyOps n := hinit ▸ (by simp)
    obtain rfl | hbody := List.mem_cons.1 hmem
    · rfl
    · exact (isInner_iff.1 (List.all_eq_true.1 (isInner_bodyOps n) i hbody)).2
  rw [step_afterOps h hprogram]
  obtain hwidth | hwidth := Nat.eq_zero_or_pos (loadWidth i)
  · obtain ⟨-, -, -, -, hiv, -⟩ := h
    rw [← afterOps_snoc]
    exact exec_of_written hfin hwidth (by rw [afterOps_eng]; exact hiv) (written_afterOps hprogram)
  · exact exec_load_afterOps h hrec hprogram hwidth

/-- The run of a call, up to FIN. -/
theorem run_call (h : AtCallStart s n iv) (hrec : CallRecords s n record) (done : List Instr) : ∀ {rest : List Instr},
    program n = done ++ rest → rest ≠ [] → Sys2Proof.core.run done.length s = .next (s.afterOps iv record done) := by
  induction done using List.reverseRecOn with
  | nil => exact fun _ _ => congrArg Host.Outcome.next (afterOps_nil h).symm
  | append_singleton done i ih =>
    intro rest hprogram hrest
    have hcons : program n = done ++ i :: rest := hprogram.trans (List.append_assoc done [i] rest)
    rw [List.length_append, List.length_singleton, run_succ (ih hcons (List.cons_ne_nil i rest))]
    exact step_call h hrec hcons hrest

/-! ### FIN (R171 to R173) -/

/-- A state that is `s` with another active engine, but for memory, is `s` but for memory once the engine is put back. -/
theorem putEng_eng_of_putEng {s t : State} {e : Engine} (h : { t.putEng (s.putEng e).eng with mem := s.mem } = s.putEng e) :
    { t.putEng s.eng with mem := s.mem } = s :=
  calc { t.putEng s.eng with mem := s.mem }
      = { (t.putEng (s.putEng e).eng).putEng s.eng with mem := s.mem } := by rw [putEng_putEng]
    _ = ({ t.putEng (s.putEng e).eng with mem := s.mem } : State).putEng s.eng := rfl
    _ = s := by rw [h, putEng_putEng, putEng_eng]

/-- The engines that deliver to `RES` have one lane (R200). -/
theorem lanes_of_not_multiLane {v : Variant} (h : v.multiLane = false) : v.lanes = 1 := by
  cases v with
  | dual => cases h
  | quad => cases h
  | _ => rfl

/-- The state of a call that comes to its FIN. -/
def State.beforeFin (s : State) (n : Norm) (iv : SipState) (record : Nat → List Byte) : State :=
  s.afterOps iv record (.init :: bodyOps n)

/-- The last step of a call is its FIN. -/
theorem run_beforeFin (h : AtCallStart s n iv) (hrec : CallRecords s n record) :
    Sys2Proof.core.run (programWords n).length s = execFin .v0 n.standard (s.beforeFin n iv record) := by
  have hprogram : program n = (.init :: bodyOps n) ++ .fin .v0 n.standard :: [] := program_eq n
  have hlength : (programWords n).length = (Instr.init :: bodyOps n).length + 1 := by
    rw [programWords, List.length_map, hprogram, List.length_append]; rfl
  rw [hlength, run_succ (run_call h hrec _ hprogram (List.cons_ne_nil _ _))]
  exact step_afterOps h hprogram

theorem written_beforeFin : Written (s.beforeFin n iv record) .v0 :=
  written_afterOps (program_eq n) .v0 (by simp [readsOf])

/-- What FIN delivers of a lane is the hash of its record (R171, R192). -/
theorem laneOut_run (h : AtCallStart s n iv) (hrec : CallRecords s n record) (l : Nat) (x : Lane) :
    laneOut n.standard .v0 (x.run iv (record l) (.init :: bodyOps n)) = hashFrom iv n (record l) := by
  have hword : (x.run iv (record l) (.init :: bodyOps n)).get .v0 = some (hash64From iv n (record l)) := by
    have hprogram := run_program iv (hrec.length h l) x
    rwa [program_eq, ← List.cons_append, lane_run_append] at hprogram
  rw [laneOut, hword]
  rfl

theorem outs_beforeFin (h : AtCallStart s n iv) (hrec : CallRecords s n record) :
    (s.beforeFin n iv record).eng.outs n.standard .v0 = s.eng.lanes.mapIdx fun l _ => hashFrom iv n (record l) := by
  rw [State.beforeFin, afterOps_eng, Engine.outs]
  exact List.ext_getElem? fun l => by simp [Function.comp_def, laneOut_run h hrec]

theorem cur_beforeFin : (s.beforeFin n iv record).eng.cur = n.size.toNat := by
  have hfin : loadBytes [.fin .v0 n.standard] = 0 := rfl
  rw [State.beforeFin, afterOps_eng, ← loadBytes_program, program_eq, ← List.cons_append, loadBytes_append, hfin]
  rfl

/-- A call on an engine that delivers to `RES`, SCALAR, SCALAR_IMM or REF: it stays BUSY up to FIN, which leaves the hash of the
record in `RES` (R172, R192). -/
theorem run_oneLane (h : AtCallStart s n iv) (hrec : CallRecords s n record) (hv : s.eng.variant.multiLane = false) :
    (∀ k < (programWords n).length, ∃ u : State, Sys2Proof.core.run k s = .next u ∧ u.eng.status = .busy ∧ u.eng.upc = k) ∧
    ∃ t : State, Sys2Proof.core.run (programWords n).length s = .next t ∧
      t.eng.res = some (hashFrom iv n (record 0)) ∧ t.eng.status = .ready ∧ t.eng.cur = n.size.toNat ∧
      { t.eng with lanes := s.eng.lanes, upc := s.eng.upc, cur := s.eng.cur, res := s.eng.res, status := s.eng.status } = s.eng ∧
      OutsideKept s t := by
  obtain ⟨-, hbusy, -, -, -, -, -, -, hlanes⟩ := id h
  constructor
  · intro k hk
    rw [programWords, List.length_map] at hk
    have hlength : ((program n).take k).length = k := List.length_take_of_le hk.le
    have hrun := run_call h hrec _ (List.take_append_drop k (program n)).symm (by simpa using hk)
    rw [hlength] at hrun
    exact ⟨_, hrun, by rw [afterOps_eng]; exact hbusy, by rw [afterOps_eng]; exact hlength⟩
  · obtain ⟨x, hx⟩ := List.length_eq_one_iff.1 (hlanes.trans (lanes_of_not_multiLane hv))
    have hdeliver : execFin .v0 n.standard (s.beforeFin n iv record) = deliverRes .v0 n.standard (s.beforeFin n iv record) :=
      execFin_oneLane (by rw [State.beforeFin, afterOps_eng]; exact hv) written_beforeFin
    refine ⟨_, (run_beforeFin h hrec).trans hdeliver, ?_, ?_, ?_, ?_, ?_⟩
    · rw [eng_putEng, outs_beforeFin h hrec, hx]; rfl
    · rw [eng_putEng]
    · rw [eng_putEng]; exact cur_beforeFin
    · rw [eng_putEng, State.beforeFin, afterOps_eng]
    · rw [State.beforeFin, State.afterOps, putEng_putEng]; exact outsideKept_putEng s _

/-- A call on an engine that delivers to slots, DUAL or QUAD: FIN leaves the hash of every lane's record in its slot (R172, R192). -/
theorem run_multiLane (h : AtCallStart s n iv) (hrec : CallRecords s n record) (hv : s.eng.variant.multiLane = true) {o : Word}
    (ho : s.eng.outPtr = some o) (hwrite : admitsWrite s.platform o.toNat (4 * s.eng.variant.lanes) = true) :
    ∃ t : State, Sys2Proof.core.run (programWords n).length s = .next t ∧
      t.mem = storeSlots s.mem o.toNat (s.eng.lanes.mapIdx fun l _ => hashFrom iv n (record l)) ∧
      t.eng.status = .ready ∧ t.eng.cur = n.size.toNat ∧
      { t.eng with lanes := s.eng.lanes, upc := s.eng.upc, cur := s.eng.cur, status := s.eng.status } = s.eng ∧
      { t.putEng s.eng with mem := s.mem } = s := by
  obtain ⟨-, -, -, -, -, -, -, ⟨-, -, hinternal⟩, hlanes⟩ := id h
  have hdeliver : execFin .v0 n.standard (s.beforeFin n iv record) = deliverSlots .v0 n.standard (s.beforeFin n iv record) := by
    rw [hinternal hv]
    exact execFin_multiLane (by rw [State.beforeFin, afterOps_eng]; exact hv) written_beforeFin
  have hslots : (s.beforeFin n iv record).eng.lanes.length = s.eng.variant.lanes := by
    rw [State.beforeFin, afterOps_eng, List.length_mapIdx, hlanes]
  obtain ⟨t, ht, hmem, heng, hback⟩ := deliverSlots_effect (rs := .v0) (standard := n.standard) (s := s.beforeFin n iv record)
    (by rw [State.beforeFin, afterOps_eng]; exact ho) (hslots ▸ hwrite)
  refine ⟨t, (run_beforeFin h hrec).trans (hdeliver.trans ht), ?_, ?_, ?_, ?_, ?_⟩
  · rw [hmem, outs_beforeFin h hrec]; rfl
  · rw [heng]
  · rw [heng]; exact cur_beforeFin
  · rw [heng, State.beforeFin, afterOps_eng]
  · exact putEng_eng_of_putEng hback

end call

/-! ### The statements (R192) -/

/-- Settles O53: a call that reads one record at `IN_PTR` is a one-lane call. -/
theorem scalarCallComputesHash : Obligations.ScalarCallComputesHash := by
  unfold Obligations.ScalarCallComputesHash
  intro s n iv p h hv hp hadmitted
  obtain ⟨himm, hmulti⟩ : s.eng.variant ≠ .scalarImm ∧ s.eng.variant.multiLane = false := by
    obtain hv | hv := hv <;> rw [hv] <;> decide
  exact run_oneLane h (.memory p himm hp ((lanes_of_not_multiLane hmulti).symm ▸ hadmitted)) hmulti

/-- Settles O54: a call that reads `ARG` is a one-lane call, of size 8. -/
theorem immediateCallComputesHash : Obligations.ImmediateCallComputesHash := by
  unfold Obligations.ImmediateCallComputesHash
  intro s n iv a h hv ha
  obtain ⟨-, -, -, -, -, -, -, ⟨-, himm, -⟩, -⟩ := id h
  obtain ⟨hsize, -⟩ := himm hv
  obtain ⟨-, t, hrun, hres, hready, hcur, hkept⟩ := run_oneLane h (.immediate a hv ha) (by rw [hv]; rfl)
  exact ⟨t, hrun, hres, hready, by rw [hcur, hsize]; rfl, hkept⟩

/-- Settles O55: the bytes of memory after a multi-lane call are as a row of slots leaves them. -/
theorem multiLaneCallComputesHash : Obligations.MultiLaneCallComputesHash := by
  unfold Obligations.MultiLaneCallComputesHash
  intro s n iv p o h hv hm hp ho hadmitted hwrite
  obtain ⟨-, -, -, -, -, -, -, -, hlanes⟩ := id h
  have himm : s.eng.variant ≠ .scalarImm := fun himm => by rw [himm] at hv; cases hv
  obtain ⟨t, hrun, hmem, hready, hcur, hcontrol, hkept⟩ := run_multiLane h (.memory p himm hp hadmitted) hv ho hwrite
  refine ⟨t, hrun, fun l hl k hk => ?_, fun a ha => ?_, hready, hcur, hcontrol, hkept⟩
  · rw [hmem]
    exact read_storeSlots o.toNat hm (by simp [hlanes, hl]) hk
  · rw [hmem]
    exact read_storeSlots_outside _ hm (by rw [List.length_mapIdx, hlanes]; exact ha)

end Sys2Proof.Machine
end

section
/-! Proofs of the variants family (45_variants), lane isolation (R208): a record is a function of its own bytes, and what a multi-lane
call leaves in a slot is a function of that lane's record (R192), whatever the rest of memory holds. -/

namespace Sys2Proof.Machine

/-- Two memories that agree on `n` bytes from `a` up give the same list of bytes there. -/
theorem readBytes_congr {m m' : Memory} {n a : Nat} (hagree : ∀ k < n, m'.read (a + k) = m.read (a + k)) :
    m'.readBytes a n = m.readBytes a n := by
  refine List.ext_getElem? fun k => ?_
  obtain hk | hk := Nat.lt_or_ge k n
  · rw [ByteLaws.readBytes_getElem? m' n a k hk, ByteLaws.readBytes_getElem? m n a k hk, hagree k hk]
  · rw [List.getElem?_eq_none (by simpa using hk), List.getElem?_eq_none (by simpa using hk)]

/-- Settles O56: both runs leave in slot `l` the hash of the record of lane `l`, which is the same record in both memories. -/
theorem laneIsolation : Obligations.LaneIsolation := by
  unfold Obligations.LaneIsolation
  intro s n iv p o mem' l h hv hm hm' hp ho hadmitted hwrite hl hagree
  have hrecord : recordAt mem' n p.toNat l = recordAt s.mem n p.toNat l := readBytes_congr hagree
  obtain ⟨t, hrun, hslots, -⟩ := multiLaneCallComputesHash s n iv p o h hv hm hp ho hadmitted hwrite
  obtain ⟨t', hrun', hslots', -⟩ :=
    multiLaneCallComputesHash { s with mem := mem' } n iv p o h hv hm' hp ho hadmitted hwrite
  refine ⟨t, t', hrun, hrun', fun k hk => ?_⟩
  calc Memory.read t'.mem (o.toNat + 4 * l + k)
      = slotByte (hashFrom iv n (recordAt mem' n p.toNat l)) k := hslots' l hl k hk
    _ = slotByte (hashFrom iv n (recordAt s.mem n p.toNat l)) k := by rw [hrecord]
    _ = Memory.read t.mem (o.toNat + 4 * l + k) := (hslots l hl k hk).symm

end Sys2Proof.Machine
end

section
/-! Proofs of the commands family (46_commands), one engine: what CONFIGURE and a call make of their engine, that a READY or BUSY engine
stays configured, the micro-op a step runs, the host's reads and the key of a seed. The invariant is read off `step_engine`. -/

namespace Sys2Proof.Machine

/-! ### The checks (R221, R222, R236) -/

/-- CONFIGURE passes its checks exactly with a size, and with flags and size that the variant takes. -/
theorem configCheck_eq_ok_iff {e : Engine} {n : Norm} : e.configCheck = .ok n ↔
    ∃ size, e.cfgSize = some size ∧ n = e.normalised size ∧
      (e.variant = .scalarImm → size = 8#16 ∧ n.asSpecified = false) ∧ (e.variant.multiLane = true → n.standard = false) := by
  unfold Engine.configCheck
  cases e.cfgSize with
  | none => simp
  | some size =>
    simp only [Option.some.injEq, exists_eq_left']
    split
    · next h => exact ⟨by simp, fun ⟨hn, himm, _⟩ => absurd (hn ▸ h.2) (Bool.eq_false_iff.1 (himm h.1).2)⟩
    · next has =>
      split
      · next h => exact ⟨by simp, fun ⟨_, himm, _⟩ => absurd (himm h.1).1 h.2⟩
      · next hsize =>
        split
        · next h => exact ⟨by simp, fun ⟨hn, _, hinternal⟩ => absurd (hn ▸ h.2) (Bool.eq_false_iff.1 (hinternal h.1))⟩
        · next hstd =>
          simp only [not_and, Bool.not_eq_true, Decidable.not_not] at has hsize hstd
          constructor
          · rintro ⟨rfl⟩
            exact ⟨rfl, fun himm => ⟨hsize himm, has himm⟩, hstd⟩
          · rintro ⟨rfl, -⟩
            rfl

/-- Batch set-up passes its checks exactly with a size, a width and no STANDARD. -/
theorem batchCheck_eq_ok_iff {e : Engine} {n : Norm} : e.batchCheck = .ok n ↔
    ∃ size, e.cfgSize = some size ∧ n = e.normalised size ∧ e.cfgWidth ≠ 0#16 ∧ n.standard = false := by
  unfold Engine.batchCheck
  cases e.cfgSize with
  | none => simp
  | some size =>
    simp only [Option.some.injEq, exists_eq_left']
    split
    · next hwidth => simp [hwidth]
    · next hwidth =>
      split
      · next hstd =>
        refine ⟨by simp, fun ⟨hn, _, hinternal⟩ => absurd hstd (Bool.eq_false_iff.1 ?_)⟩
        rw [hn] at hinternal
        exact hinternal
      · next hstd =>
        constructor
        · rintro ⟨rfl⟩
          exact ⟨rfl, hwidth, Bool.eq_false_of_not_eq_true hstd⟩
        · rintro ⟨rfl, -⟩
          rfl

/-! ### READY and BUSY engines are configured (R220 to R225) -/

/-- What `ConfiguredInv` says of the engine of variant `v`. -/
def Engine.ConfiguredFor (v : Variant) (e : Engine) : Prop :=
  e.status = .ready ∨ e.status = .busy →
    e.iv ≠ none ∧ ∃ n, e.norm = some n ∧ legalNorm v n ∧ e.prog = programWords n

theorem configuredInv_iff {s : State} : ConfiguredInv s ↔ ∀ v, (s.engine v).ConfiguredFor v := Iff.rfl

/-- STANDARD implies the as-specified policy (R221). -/
theorem normalised_asSpecified {e : Engine} {size : BitVec 16} (h : (e.normalised size).standard = true) :
    (e.normalised size).asSpecified = true :=
  Bool.or_eq_true_iff.2 (.inl h)

/-- The stride that the host wrote (R221). -/
theorem normalised_stride_written {e : Engine} {x : BitVec 32} (h : e.cfgStride = some x) (size : BitVec 16) :
    (e.normalised size).stride = x := by
  rw [Engine.normalised, h, Option.getD_some]

/-- With no stride written the stride is the size (R221). -/
theorem normalised_stride_absent {e : Engine} (h : e.cfgStride = none) (size : BitVec 16) :
    (e.normalised size).stride.toNat = size.toNat := by
  rw [Engine.normalised, h, Option.getD_none]
  exact BitVec.toNat_setWidth_of_le (by decide)

/-- A configuration that passes the checks of CONFIGURE is one its variant admits. -/
theorem legalNorm_of_configCheck {v : Variant} {e : Engine} {n : Norm} (hv : e.variant = v) (h : e.configCheck = .ok n) :
    legalNorm v n := by
  obtain ⟨size, -, rfl, himm, hmulti⟩ := configCheck_eq_ok_iff.1 h
  exact ⟨normalised_asSpecified, fun h => himm (hv.trans h), fun h => hmulti (hv ▸ h)⟩

/-- SCALAR_IMM is in no batch (R283). -/
theorem ne_scalarImm_of_mem_composerEngines {p : Platform} {v : Variant} (h : v ∈ composerEngines p) : v ≠ .scalarImm := by
  rintro rfl
  simp [composerEngines] at h

/-- Every engine of a batch admits a configuration that passes the checks of batch set-up. -/
theorem legalNorm_of_batchCheck {p : Platform} {v : Variant} {e : Engine} {n : Norm} (hv : v ∈ composerEngines p)
    (h : e.batchCheck = .ok n) : legalNorm v n := by
  obtain ⟨size, -, rfl, -, hinternal⟩ := batchCheck_eq_ok_iff.1 h
  exact ⟨normalised_asSpecified, fun himm => absurd himm (ne_scalarImm_of_mem_composerEngines hv), fun _ => hinternal⟩

theorem configuredFor_of_not_running {v : Variant} {e : Engine} (hready : e.status ≠ .ready) (hbusy : e.status ≠ .busy) :
    e.ConfiguredFor v :=
  fun h => absurd h (not_or.2 ⟨hready, hbusy⟩)

theorem configuredFor_raise (v : Variant) (e : Engine) (c : Cause) : (e.raise c).ConfiguredFor v :=
  configuredFor_of_not_running Status.noConfusion Status.noConfusion

theorem configuredFor_configured {v : Variant} {n : Norm} (h : legalNorm v n) (e : Engine) (ic : SipState) (key : List Byte) :
    (e.configured ic n key).ConfiguredFor v :=
  fun _ => ⟨Option.some_ne_none _, n, rfl, h, rfl⟩

/-- An accepted command configures its engine, or keeps `IV`, `N_*` and `PROG` of an engine that was READY or stays as it was, or takes
it out of both statuses. -/
theorem configuredFor_command {s : State} {v : Variant} {e e' : Engine} (hv : e.variant = v) (h : e.ConfiguredFor v)
    (hc : CommandEffect s v e e') : e'.ConfiguredFor v := by
  cases hc with
  | reset => exact configuredFor_of_not_running Status.noConfusion Status.noConfusion
  | fails c _ _ => exact configuredFor_raise v e c
  | configured n key _ hn => exact configuredFor_configured (legalNorm_of_configCheck hv hn) e _ key
  | call _ hr _ => exact fun _ => h (.inl hr)
  | callOut _ _ hr _ => exact fun _ => h (.inl hr)
  | callImm _ hr _ => exact fun _ => h (.inl hr)
  | write _ _ hw => obtain ⟨_, _, _, _, _, _, _, _, rfl, -⟩ := hw; exact h

/-- Each thing a step can make of an engine leaves it configured when READY or BUSY. -/
theorem configuredFor_engineStep {s : State} {v : Variant} {e' : Engine} (hv : (s.engine v).variant = v)
    (h : (s.engine v).ConfiguredFor v) (he : EngineStep s v e') : e'.ConfiguredFor v := by
  cases he with
  | same => exact h
  | micro _ _ _ hbusy hx _ =>
    intro _
    rw [hx.iv, hx.norm, hx.prog]
    exact h (.inr hbusy)
  | command _ hc => exact configuredFor_command hv h hc
  | batchFails c _ _ => exact configuredFor_raise v _ c
  | batchConfigured n key hmem _ hn => exact configuredFor_configured (legalNorm_of_batchCheck hmem hn) _ _ key

/-- Settles O40: `ConfiguredInv` is `ConfiguredFor` of every engine, which `configuredFor_engineStep` keeps. -/
theorem stepKeepsConfigured : Obligations.StepKeepsConfigured := by
  unfold Obligations.StepKeepsConfigured
  intro s t hshape hinv hstep
  refine configuredInv_iff.2 fun v => ?_
  obtain ⟨hvariant, -⟩ := hshape v
  exact configuredFor_engineStep hvariant (configuredInv_iff.1 hinv v) (step_engine hstep v)

/-! ### The key and the `IV` (R121, R223) -/

/-- The key that a CONFIGURE or a batch set-up takes from the key registers of `e`, or draws, with the number of draws after it. -/
def Engine.TakesKey (e : Engine) (draws : Nat) (key : List Byte) (draws' : Nat) : Prop :=
  (∀ k0 k1, e.key0 = some k0 → e.key1 = some k1 → key = keyBytes k0 k1 ∧ draws' = draws) ∧
  (e.key0 = none ∨ e.key1 = none → key = drawnKey draws ∧ draws' = draws + 1)

theorem takesKey_supplied {e : Engine} {key : List Byte} (h : e.suppliedKey = some key) (draws : Nat) :
    e.TakesKey draws key draws := by
  unfold Engine.suppliedKey at h
  split at h
  · next k0 k1 h0 h1 =>
    obtain rfl := Option.some.inj h
    simp [Engine.TakesKey, h0, h1]
  · cases h

theorem takesKey_drawn {e : Engine} (h : e.suppliedKey = none) (draws : Nat) :
    e.TakesKey draws (drawnKey draws) (draws + 1) := by
  refine ⟨fun k0 k1 h0 h1 => ?_, fun _ => ⟨rfl, rfl⟩⟩
  simp [Engine.suppliedKey, h0, h1] at h

/-- The `IV` of the key in the key registers (R121). -/
theorem initState_keyBytes (ic : SipState) (k0 k1 : Word) : initState ic (keyBytes k0 k1) =
    { v0 := ic.v0 ^^^ k0, v1 := ic.v1 ^^^ k1, v2 := ic.v2 ^^^ k0, v3 := ic.v3 ^^^ k1 } := by
  have hlow : leWord ((keyBytes k0 k1).take 8) = k0 := leWord_bytesLE k0
  have hhigh : leWord (((keyBytes k0 k1).drop 8).take 8) = k1 := leWord_bytesLE k1
  show (SipState.mk (ic.v0 ^^^ leWord ((keyBytes k0 k1).take 8)) (ic.v1 ^^^ leWord (((keyBytes k0 k1).drop 8).take 8))
    (ic.v2 ^^^ leWord ((keyBytes k0 k1).take 8)) (ic.v3 ^^^ leWord (((keyBytes k0 k1).drop 8).take 8))) = _
  rw [hlow, hhigh]

/-! ### CONFIGURE (R220 to R223) -/

/-- A first fault entry records its cause (R262). -/
theorem raise_of_cause_zero {e : Engine} (h : e.cause = 0#8) (c : Cause) :
    e.raise c = { e with status := .fault, cause := c.code, raised := some c, res := none } := by
  simp only [Engine.raise, if_pos h]

theorem configure_error {s : State} {v : Variant} {c : Cause} (h : (s.engine v).configCheck = .error c) :
    configure s v = s.setEngine v ((s.engine v).raise c) := by
  rw [configure, h]

theorem configure_ok {s : State} {v : Variant} {n : Norm} (h : (s.engine v).configCheck = .ok n) :
    ∃ key draws, (s.engine v).TakesKey s.draws key draws ∧
      configure s v = { s.setEngine v ((s.engine v).configured s.platform.initConst n key) with draws := draws } := by
  cases hkey : (s.engine v).suppliedKey with
  | some key => exact ⟨key, s.draws, takesKey_supplied hkey _, by rw [configure, h]; simp only [hkey]; rfl⟩
  | none => exact ⟨_, _, takesKey_drawn hkey _, by rw [configure, h]; simp only [hkey]⟩

/-- A step with an accepted command pending performs it. -/
theorem step_accepted {s : State} {v : Variant} {c : Command} {rest : List HostEvent} (hpend : s.pending = .issue v c :: rest)
    (h : accepts { s with pending := rest } v c = true) : step s = .next (perform { s with pending := rest } v c) := by
  rw [step_issue hpend, issue_accepted h]

/-- A CONFIGURE of a quiescent engine is accepted. -/
theorem step_configure {s : State} {v : Variant} {rest : List HostEvent} (hpend : s.pending = .issue v .configure :: rest)
    (hhas : s.platform.has v = true) (hstatus : (s.engine v).status = .unconfigured ∨ (s.engine v).status = .ready) :
    step s = .next ((configure { s with pending := rest } v).endSetup v) :=
  step_accepted hpend (Bool.and_eq_true_iff.2 ⟨hhas, quiescent_iff.2 hstatus⟩)

/-- The end of a set-up, for a state that still has the set-up in force of `s`. -/
theorem endsSetupOf_endSetup {s t : State} (hplatform : t.platform = s.platform) (hbatch : t.batch = s.batch) (v : Variant) :
    EndsSetupOf s (t.endSetup v) v := by
  constructor <;> intro hv <;> simp [hplatform, hbatch, hv]

/-- A state in which another engine was put is changed there only. -/
theorem onlyEngineOrSetup_setEngine (s : State) (v : Variant) (e : Engine) (rest : List HostEvent) (active : Variant) (draws : Nat)
    (batch : Option BatchConfig) : OnlyEngineOrSetup s
      { ({ s with pending := rest } : State).setEngine v e with active := active, draws := draws, batch := batch } v rest :=
  ⟨fun _ hu => engines_get_set_ne s.engines e hu, rfl, rfl, rfl⟩

/-- Settles O26: the checks pass, and the `IV` is that of the key taken. -/
theorem configureSucceeds : Obligations.ConfigureSucceeds := by
  unfold Obligations.ConfigureSucceeds
  intro s v rest size hpend hhas hstatus hsize himm hmulti
  have hcheck : (s.engine v).configCheck = .ok ((s.engine v).normalised size) := by
    refine configCheck_eq_ok_iff.2 ⟨size, hsize, rfl, fun h => ?_, hmulti⟩
    obtain ⟨hsize8, has, hstd⟩ := himm h
    exact ⟨hsize8, Bool.or_eq_false_iff.2 ⟨hstd, has⟩⟩
  obtain ⟨key, draws, ⟨hsupplied, hdrawn⟩, hconfigure⟩ := configure_ok (s := { s with pending := rest }) hcheck
  refine ⟨_, (s.engine v).normalised size, leWord (key.take 8), leWord ((key.drop 8).take 8),
    step_configure hpend hhas hstatus, rfl, fun x hx => normalised_stride_written hx size,
    fun hx => normalised_stride_absent hx size, rfl, rfl, rfl, ?_, fun a b ha hb => ?_, fun hnone => ?_, ?_, ?_, ?_⟩
  · exact Bool.or_eq_true_iff.trans or_comm
  · obtain ⟨rfl, rfl⟩ := hsupplied a b ha hb
    exact ⟨leWord_bytesLE a, leWord_bytesLE b, by rw [hconfigure]; rfl⟩
  · obtain ⟨-, rfl⟩ := hdrawn hnone
    rw [hconfigure]; rfl
  · rw [hconfigure, endSetup_engine, engine_draws, engine_setEngine]; rfl
  · rw [hconfigure]; exact onlyEngineOrSetup_setEngine s v _ rest _ _ _
  · rw [hconfigure]; exact endsSetupOf_endSetup rfl rfl v

/-- Settles O27: each of the four causes is that of the first check that fails. -/
theorem configureFails : Obligations.ConfigureFails := by
  unfold Obligations.ConfigureFails
  intro s v rest c hpend hhas hstatus hcause hfails
  have hcheck : (s.engine v).configCheck = .error c := by
    unfold Engine.configCheck
    obtain ⟨hsize, rfl⟩ | ⟨size, hsize, himm, hflags, rfl⟩ | ⟨size, hsize, himm, has, hstd, hne, rfl⟩ |
      ⟨size, hsize, hmulti, hstd, rfl⟩ := hfails
    · rw [hsize]
    · have has : ((s.engine v).normalised size).asSpecified = true := Bool.or_eq_true_iff.2 hflags.symm
      simp [hsize, himm, has]
    · have has : ((s.engine v).normalised size).asSpecified = false := Bool.or_eq_false_iff.2 ⟨hstd, has⟩
      simp [hsize, himm, has, hne]
    · have himm : (s.engine v).variant ≠ .scalarImm := fun himm => by rw [himm] at hmulti; cases hmulti
      have hstd : ((s.engine v).normalised size).standard = true := hstd
      simp [hsize, himm, hmulti, hstd]
  have hconfigure := configure_error (s := { s with pending := rest }) hcheck
  refine ⟨_, step_configure hpend hhas hstatus, ?_, ?_, ?_, ?_⟩
  · rw [hconfigure, endSetup_engine, engine_setEngine]
    exact raise_of_cause_zero hcause c
  · rw [hconfigure]; rfl
  · rw [hconfigure]; exact onlyEngineOrSetup_setEngine s v _ rest _ _ _
  · rw [hconfigure]; exact endsSetupOf_endSetup rfl rfl v

/-! ### CALL and CALL_IMM (R227, R228) -/

/-- A row of records, none of whose bytes, gaps included, is a byte of the row of slots: what R74 asks of a launch. -/
theorem overlaps_eq_false {n : Norm} {lanes p o : Nat} (h : n.size.toNat = 0 ∨ p + (lanes - 1) * n.stride.toNat + n.size.toNat ≤ o ∨
    o + 4 * lanes ≤ p) : (inputSpan n lanes p).overlaps (outputSpan lanes o) = false := by
  unfold inputSpan
  split
  · simp [Span.overlaps]
  · refine decide_eq_false ?_
    simp only [outputSpan, Config.slotBytes]
    omega

/-- With no device region and no engine BUSY, a launch is allowed if its input and its output are apart (R73, R74, R77). -/
theorem launchAllowed_of_idle {s : State} (hbusy : ∀ u, (s.engine u).status ≠ .busy)
    (hregions : ∀ r ∈ s.platform.regions, r.kind = .memory) {input output : Span} (hapart : input.overlaps output = false) (pointers : List Nat) :
    launchAllowed s pointers input output = true := by
  have hdevice : ∀ r ∈ s.platform.regions, r.kind ≠ .device := fun r hr => by rw [hregions r hr]; decide
  refine (launchAllowed_iff _ _ _ _).2 ⟨fun p _ => ?_, hapart, ?_, ?_, ?_⟩
  · simpa [deviceAt] using fun r hr _ => hdevice r hr
  · simpa [touchesDevice] using fun r hr hkind => absurd hkind (hdevice r hr)
  · simpa [touchesDevice] using fun r hr hkind => absurd hkind (hdevice r hr)
  · simpa [disjointFromBusy] using fun u _ => .inl (hbusy u)

section call
variable {s : State} {v : Variant} {n : Norm} (hready : (s.engine v).status = .ready) (hnorm : (s.engine v).norm = some n)
  (hhas : s.platform.has v = true) (hbusy : ∀ u, (s.engine u).status ≠ .busy)
  (hregions : ∀ r ∈ s.platform.regions, r.kind = .memory)
include hready hnorm hhas hbusy hregions

/-- With nothing in its way `CALL(in_ptr)` is accepted. -/
theorem accepts_call (hv : v = .scalar ∨ v = .ref) (p : Word) : accepts s v (.call p) = true := by
  have hlaunch := launchAllowed_of_idle hbusy hregions (input := inputSpan n v.lanes p.toNat) (output := ⟨0, 0⟩)
    (by simp [Span.overlaps]) [p.toNat]
  simp [accepts, acceptsCall, hhas, hnorm, hready, hv, hlaunch]

/-- With nothing in its way, and its slots apart from its records, `CALL(in_ptr, out_ptr)` is accepted. -/
theorem accepts_callOut (hv : v.multiLane = true) {p o : Word}
    (hapart : (inputSpan n v.lanes p.toNat).overlaps (outputSpan v.lanes o.toNat) = false) : accepts s v (.callOut p o) = true := by
  have hlaunch := launchAllowed_of_idle hbusy hregions hapart [p.toNat, o.toNat]
  simp [accepts, acceptsCallOut, hhas, hnorm, hready, hv, hlaunch]

end call

/-- An engine of variant `v` at the start of a call. -/
theorem startCall_eq {e : Engine} {v : Variant} (h : e.variant = v) :
    e.startCall = { e with lanes := List.replicate v.lanes Lane.empty, upc := 0, cur := 0, status := .busy } := by
  subst h; rfl

/-- Settles O29: each call is accepted, and `perform` starts its engine. -/
theorem callStarts : Obligations.CallStarts := by
  unfold Obligations.CallStarts
  intro s v rest n hready hnorm hvariant hhas hbusy hregions
  refine ⟨fun p hv hpend => ?_, fun p o hv hpend hapart => ?_, fun a hv hpend => ?_⟩
  · exact ⟨_, step_accepted hpend (accepts_call (n := n) hready hnorm hhas hbusy hregions hv p), rfl,
      ⟨onlyEngineOrSetup_setEngine s v _ rest _ _ _, rfl⟩, (engines_get_set s.engines v _).trans
        (congrArg (fun e : Engine => { e with inPtr := some p, res := none }) (startCall_eq hvariant))⟩
  · exact ⟨_, step_accepted hpend (accepts_callOut hready hnorm hhas hbusy hregions hv (overlaps_eq_false hapart)), rfl,
      ⟨onlyEngineOrSetup_setEngine s v _ rest _ _ _, rfl⟩, (engines_get_set s.engines v _).trans
        (congrArg (fun e : Engine => { e with inPtr := some p, outPtr := some o }) (startCall_eq hvariant))⟩
  · have haccepts : accepts { s with pending := rest } v (.callImm a) = true :=
      Bool.and_eq_true_iff.2 ⟨decide_eq_true hv, decide_eq_true hready⟩
    exact ⟨_, step_accepted hpend haccepts, rfl,
      ⟨onlyEngineOrSetup_setEngine s v _ rest _ _ _, rfl⟩, (engines_get_set s.engines v _).trans
        (congrArg (fun e : Engine => { e with arg := some a, res := none }) (startCall_eq hvariant))⟩

/-! ### The micro-op a step runs (R229) -/

/-- A BUSY active engine runs the micro-op its next word decodes to. -/
theorem engineStep_decoded {s : State} {w : MicroWord} {i : Instr} (hbusy : s.eng.status = .busy)
    (hword : s.eng.prog[s.eng.upc]? = some w) (hi : decode w = .ok i) : engineStep s = exec i s := by
  rw [engineStep, if_pos hbusy, fetchExec, hword]
  simp only [hi]

/-- While the active engine is BUSY it is the one that moves. -/
theorem step_active {s : State} (hpend : s.pending = []) (hbusy : s.eng.status = .busy) : step s = engineStep s := by
  rw [step, hpend]
  simp only [schedule, if_pos hbusy]

/-- Settles O22: without a host event the active engine moves, with `tick v` engine `v` does. -/
theorem stepRunsDecodedInstruction : Obligations.StepRunsDecodedInstruction := by
  unfold Obligations.StepRunsDecodedInstruction
  refine ⟨fun s w i hpend hbusy hword hi => ?_, fun s v rest w i hpend hbusy hword hi => ?_⟩
  · rw [step_active hpend hbusy]
    exact engineStep_decoded hbusy hword hi
  · rw [step, hpend]
    exact engineStep_decoded (s := { s with active := v, pending := rest }) hbusy hword hi

/-! ### Host reads and the key of a seed (R231, R238) -/

/-- What the host reads from `STATUS` (R40). -/
theorem hostRead_status {e : Engine} {st : Status} (h : e.status = st) : e.hostRead 0x14 = some ((statusWord st).setWidth 64) :=
  h ▸ rfl

/-- What the host reads from `ID` (R41). -/
theorem hostRead_id {e : Engine} {v : Variant} (h : e.variant = v) : e.hostRead 0x1F = some ((idWord v).setWidth 64) :=
  h ▸ rfl

/-- What the host reads from `CAUSE` after a first fault (R250). -/
theorem hostRead_cause_raise {e : Engine} (h : e.cause = 0#8) (c : Cause) :
    (e.raise c).hostRead 0x15 = some ((causeWord c.code).setWidth 64) := by
  show some ((causeWord (e.raise c).cause).setWidth 64) = _
  rw [raise_cause, if_pos h]

/-- A register of at most 64 bits is read as its number. -/
theorem exists_setWidth {k : Nat} (hk : k ≤ 64) (x : BitVec k) :
    ∃ w : Word, some (x.setWidth 64) = some w ∧ w.toNat = x.toNat :=
  ⟨_, rfl, BitVec.toNat_setWidth_of_le hk⟩

/-- A register of at most 64 bits that holds a value is read as its number. -/
theorem exists_map_setWidth {k : Nat} (hk : k ≤ 64) {r : Option (BitVec k)} {x : BitVec k} (h : r = some x) :
    ∃ w : Word, r.map (fun y => y.setWidth 64) = some w ∧ w.toNat = x.toNat :=
  h ▸ exists_setWidth hk x

/-- A number that names no register the host may read gives nothing. -/
theorem hostRead_eq_none (e : Engine) {k : Nat}
    (hk : k ∉ [0x00, 0x01, 0x02, 0x03, 0x04, 0x05, 0x13, 0x14, 0x15, 0x1F]) : e.hostRead k = none := by
  unfold Engine.hostRead
  split
  all_goals simp at hk ⊢

/-- Settles O34: one line for each register the host may read, the ten causes, and what it may not read. -/
theorem hostReads : Obligations.HostReads := by
  unfold Obligations.HostReads
  intro e
  refine ⟨congrArg (Option.map _), fun x h => exists_map_setWidth (by decide) h,
    congrArg (Option.map _), fun x h => exists_map_setWidth (by decide) h,
    exists_setWidth (by decide) e.cfgC, exists_setWidth (by decide) e.cfgD,
    exists_setWidth (by decide) e.cfgFlags, exists_setWidth (by decide) e.cfgWidth,
    hostRead_status, hostRead_status, hostRead_status, hostRead_status,
    ⟨_, rfl, ?_⟩, fun h => ?_, hostRead_id, hostRead_id, hostRead_id, hostRead_id, hostRead_id,
    fun x hidle hres => ?_, fun h => ?_, fun k hk => hostRead_eq_none e hk⟩
  · rw [causeWord, BitVec.toNat_setWidth_of_le (by decide), BitVec.toNat_setWidth_of_le (by decide)]
  · have hread := hostRead_cause_raise h
    exact ⟨hread _, hread _, hread _, fun size => hread (.immSize size), hread _, fun w u => hread (.loadUnsupported w u),
      fun w u => hread (.illegalOp w u), fun w u r => hread (.unwrittenReg w u r), fun u => hread (.noFin u),
      fun w u => hread (.finMode w u)⟩
  · exact exists_map_setWidth (by decide) ((if_neg hidle).trans hres)
  · have hnone : e.validRes = none := by
      obtain hbusy | hres := h
      · exact if_pos hbusy
      · exact ite_eq_left_iff.2 fun _ => hres
    exact congrArg (Option.map _) hnone

theorem leValue_replicate_zero (k : Nat) : leValue (List.replicate k 0#8) = 0 := by
  induction k with
  | zero => rfl
  | succ k ih => rw [List.replicate_succ, leValue, ih]; rfl

/-- Settles O35: the first half of the key is the seed and four zeros, the second half eight zeros. -/
theorem seedKey : Obligations.SeedKey := by
  unfold Obligations.SeedKey
  intro seed
  have hlow : (deriveKeyFromSeed seed).take 8 = bytesLE 4 seed.toNat ++ List.replicate 4 0#8 := rfl
  have hhigh : (deriveKeyFromSeed seed).drop 8 = List.replicate 8 0#8 := rfl
  refine ⟨rfl, fun k hk => ?_, fun k hk hk16 => ?_, ?_, ?_⟩
  · rw [deriveKeyFromSeed, List.getElem?_append_left (by simpa using hk)]
    exact bytesLE_getElem? _ hk
  · rw [deriveKeyFromSeed, List.getElem?_append_right (by simpa using hk), ByteLaws.bytesLE_length]
    exact List.getElem?_replicate_of_lt (by omega)
  · have hlt : seed.toNat < 256 ^ 4 := seed.isLt
    rw [hlow, ByteLaws.leValue_append, ByteLaws.leValue_bytesLE, leValue_replicate_zero, Nat.mod_eq_of_lt hlt, Nat.mul_zero, Nat.add_zero]
  · rw [hhigh, leValue_replicate_zero]

end Sys2Proof.Machine
end

section
/-! Proofs of the commands family (46_commands), batch set-up and the decomposition of a batch: what set-up configures, how it fails and
ends, and the records that the engine calls of a batch cover. -/

namespace Sys2Proof.Machine

/-! ### The decomposition (R232 to R234) -/

/-- The records of a row of `w` records from `input` up, each with its slot. -/
def slotRow (stride input output w : Nat) : List (Nat × Nat) :=
  (List.range w).map fun k => (input + k * stride, output + 4 * k)

/-- An engine call covers the row of its lanes. -/
theorem coveredBy_eq (stride : Nat) (c : EngineCall) : coveredBy stride c = slotRow stride c.input c.output c.variant.lanes := rfl

/-- A row in two parts. -/
theorem slotRow_append {stride input output a b input' output' w : Nat} (hinput : input' = input + a * stride)
    (houtput : output' = output + 4 * a) (hw : w = a + b) :
    slotRow stride input output a ++ slotRow stride input' output' b = slotRow stride input output w := by
  subst hinput houtput hw
  simp only [slotRow, List.range_add, List.map_append, List.map_map]
  congr 2
  funext k
  simp only [Function.comp_apply, Prod.mk.injEq]
  constructor <;> ring

section covers
variable (p : Platform) (stride input output : Nat)

theorem call1_covers : (call1 input output).flatMap (coveredBy stride) = slotRow stride input output 1 := by
  simp [call1, coveredBy_eq, Variant.lanes]

theorem call2_covers : (call2 p stride input output).flatMap (coveredBy stride) = slotRow stride input output 2 := by
  unfold call2
  split
  · simp [coveredBy_eq, Variant.lanes]
  · rw [List.flatMap_append, call1_covers, call1_covers]
    exact slotRow_append (by ring) rfl rfl

theorem call4_covers : (call4 p stride input output).flatMap (coveredBy stride) = slotRow stride input output 4 := by
  unfold call4
  split
  · simp [coveredBy_eq, Variant.lanes]
  · rw [List.flatMap_append, call2_covers, call2_covers]
    exact slotRow_append rfl rfl rfl

theorem call4s_covers (q : Nat) : ∀ input output : Nat,
    (call4s p stride q input output).flatMap (coveredBy stride) = slotRow stride input output (4 * q) := by
  induction q with
  | zero => exact fun _ _ => rfl
  | succ q ih =>
    intro input output
    rw [call4s, List.flatMap_append, call4_covers, ih]
    exact slotRow_append rfl rfl (by ring)

/-- A call that is made for a digit 1 and left out for a digit 0 covers the digit's share of the records. -/
theorem digit_covers {d size : Nat} (hd : d < 2) {calls : List EngineCall}
    (h : calls.flatMap (coveredBy stride) = slotRow stride input output size) :
    (if d = 1 then calls else []).flatMap (coveredBy stride) = slotRow stride input output (size * d) := by
  obtain rfl | rfl : d = 0 ∨ d = 1 := by omega
  · rfl
  · rw [if_pos rfl, h, Nat.mul_one]

end covers

/-- Settles O57: the calls cover `4 * (w / 4)` records, then 2 and 1 of them by the two low digits of `w`. -/
theorem batchCoversEveryRecordOnce : Obligations.BatchCoversEveryRecordOnce := by
  unfold Obligations.BatchCoversEveryRecordOnce
  intro p stride w input output
  have hfour : slotRow stride input output (4 * (w / 4)) ++
      slotRow stride (input + 4 * (w / 4) * stride) (output + 16 * (w / 4)) (2 * (w / 2 % 2)) =
      slotRow stride input output (4 * (w / 4) + 2 * (w / 2 % 2)) := slotRow_append rfl (by ring) rfl
  rw [batchCalls, List.flatMap_append, List.flatMap_append, call4s_covers,
    digit_covers _ _ _ (Nat.mod_lt _ two_pos) (call2_covers _ _ _ _),
    digit_covers _ _ _ (Nat.mod_lt _ two_pos) (call1_covers _ _ _), hfour]
  exact slotRow_append (by ring) (by ring) (by omega)

/-! ### Set-up (R232, R236, R240) -/

/-- A step with a batch set-up pending runs it. -/
theorem step_batchSetup {s : State} {rest : List HostEvent} (h : s.pending = .batchSetup :: rest) :
    step s = .next (batchSetup { s with pending := rest }) := by
  rw [step, h]; rfl

/-- A step with a BATCH pending starts it. -/
theorem step_batch {s : State} {i o : Word} {rest : List HostEvent} (h : s.pending = .batch i o :: rest) :
    step s = .next (startBatch { s with pending := rest } i o) := by
  rw [step, h]; rfl

/-- Batch set-up is accepted while the engines of the batch are quiescent. -/
theorem batchSetup_quiescent {s : State} (h : ∀ v, (s.engine v).status = .unconfigured ∨ (s.engine v).status = .ready) :
    (composerEngines s.platform).all (fun v => (s.engine v).status.quiescent) = true :=
  List.all_eq_true.2 fun v _ => quiescent_iff.2 (h v)

/-- The engines after the set-up of a batch. -/
theorem configureBatch_engine (s : State) (n : Norm) (key : List Byte) (v : Variant) : (configureBatch s n key).engine v =
    if v ∈ composerEngines s.platform then ((s.engine v).copyConfig (s.engine .scalar)).configured s.platform.initConst n key
    else s.engine v :=
  configureAll_engine (s.engine .scalar) n key v _ s (composerEngines_nodup s.platform)

/-- What the set-up of a batch leaves. -/
theorem configureBatch_frame (s : State) (n : Norm) (key : List Byte) : (configureBatch s n key).mem = s.mem ∧
    (configureBatch s n key).platform = s.platform ∧ (configureBatch s n key).draws = s.draws ∧
    (configureBatch s n key).pending = s.pending := by
  obtain ⟨hmem, hplatform, -, hdraws, -, hpending⟩ := configureAll_frame (s.engine .scalar) n key (composerEngines s.platform) s
  exact ⟨hmem, hplatform, hdraws, hpending⟩

section batchSetup
variable {s : State} (hquiescent : ∀ v, (s.engine v).status = .unconfigured ∨ (s.engine v).status = .ready)
include hquiescent

theorem batchSetup_error {c : Cause} (h : (s.engine .scalar).batchCheck = .error c) :
    batchSetup s = { s.setEngine .scalar ((s.engine .scalar).raise c) with batch := none } := by
  rw [batchSetup, if_pos (batchSetup_quiescent hquiescent), h]

theorem batchSetup_ok {n : Norm} (h : (s.engine .scalar).batchCheck = .ok n) :
    ∃ key draws, (s.engine .scalar).TakesKey s.draws key draws ∧
      batchSetup s = { configureBatch s n key with draws := draws } := by
  rw [batchSetup, if_pos (batchSetup_quiescent hquiescent), h]
  cases hkey : (s.engine .scalar).suppliedKey with
  | some key =>
    obtain ⟨-, -, hdraws, -⟩ := configureBatch_frame s n key
    exact ⟨key, s.draws, takesKey_supplied hkey _,
      congrArg (fun d => ({ configureBatch s n key with draws := d } : State)) hdraws⟩
  | none => exact ⟨_, _, takesKey_drawn hkey _, rfl⟩

end batchSetup

/-- With no set-up in force, a BATCH of a SCALAR engine that fails the checks left to it is recorded by that engine (R283). -/
theorem startBatch_ownError {s : State} {c : Cause} (hbatch : s.batch = none) (hown : (s.engine .scalar).ownBatch = some (.error c))
    (i o : Word) : startBatch s i o = s.setEngine .scalar ((s.engine .scalar).raise c) := by
  rw [startBatch, hbatch]
  simp only [hown]

/-- Settles O58: each cause is that of the first check that fails; `endsSetupOf_endSetup` is the end of a set-up with a RESET. -/
theorem batchSetupFails : Obligations.BatchSetupFails := by
  unfold Obligations.BatchSetupFails
  refine ⟨fun s rest c hpend hquiescent hcause hfails => ?_, fun s rest i o n iv c hpend hbatch hready hnorm hiv hcause hfails => ?_,
    fun s t v rest hpend hhas hstep => ?_⟩
  · have hcheck : (s.engine .scalar).batchCheck = .error c := by
      unfold Engine.batchCheck
      obtain ⟨hsize, rfl⟩ | ⟨hsize, hwidth, rfl⟩ | ⟨hsize, hwidth, hstd, rfl⟩ := hfails
      · rw [hsize]
      · obtain ⟨size, hsize⟩ := Option.ne_none_iff_exists'.1 hsize
        simp [hsize, hwidth]
      · obtain ⟨size, hsize⟩ := Option.ne_none_iff_exists'.1 hsize
        simp [hsize, hwidth, flagStandard, hstd]
    have hsetup := batchSetup_error (s := { s with pending := rest }) hquiescent hcheck
    refine ⟨_, step_batchSetup hpend, ?_, ?_, ?_, ?_⟩
    · rw [hsetup, engine_batch, engine_setEngine]
      exact raise_of_cause_zero hcause c
    · rw [hsetup]; rfl
    · rw [hsetup]; exact onlyEngineOrSetup_setEngine s _ _ rest _ _ _
    · rw [hsetup]
  · have hown : (s.engine .scalar).ownBatch = some (.error c) := by
      obtain ⟨hwidth, rfl⟩ | ⟨hwidth, hstd, rfl⟩ := hfails
      · simp [Engine.ownBatch, hnorm, hiv, hready, hwidth]
      · simp [Engine.ownBatch, hnorm, hiv, hready, hwidth, hstd]
    have hstart := startBatch_ownError (s := { s with pending := rest }) hbatch hown i o
    refine ⟨_, step_batch hpend, ?_, ?_, ?_, ?_⟩
    · rw [hstart, engine_setEngine]
      exact raise_of_cause_zero hcause c
    · rw [hstart]; rfl
    · rw [hstart]; exact onlyEngineOrSetup_setEngine s _ _ rest _ _ _
    · rw [hstart]; rfl
  · have hreset : step s = .next (perform { s with pending := rest } v .reset) := step_accepted hpend hhas
    obtain rfl := Host.Outcome.next.inj (hstep.symm.trans hreset)
    exact endsSetupOf_endSetup rfl rfl v

/-- Settles O59: the checks pass, and `configureAll` configures every engine of the batch alike. -/
theorem batchSetupConfigures : Obligations.BatchSetupConfigures := by
  unfold Obligations.BatchSetupConfigures
  intro s rest size hpend hquiescent hsize hwidth hstd
  have hcheck : (s.engine .scalar).batchCheck = .ok ((s.engine .scalar).normalised size) :=
    batchCheck_eq_ok_iff.2 ⟨size, hsize, rfl, hwidth, hstd⟩
  obtain ⟨key, draws, ⟨hsupplied, hdrawn⟩, hsetup⟩ := batchSetup_ok (s := { s with pending := rest }) hquiescent hcheck
  have hengine := configureBatch_engine { s with pending := rest } ((s.engine .scalar).normalised size) key
  obtain ⟨hmem, hplatform, -, hpending⟩ := configureBatch_frame { s with pending := rest } ((s.engine .scalar).normalised size) key
  refine ⟨_, ⟨(s.engine .scalar).cfgWidth, (s.engine .scalar).normalised size, initState s.platform.initConst key⟩,
    (step_batchSetup hpend).trans (congrArg _ hsetup), rfl, hpending, hmem, hplatform,
    rfl, rfl, hstd, ?_, rfl, rfl, fun x hx => normalised_stride_written hx size,
    fun hx => normalised_stride_absent hx size, fun k0 k1 h0 h1 => ?_, fun hnone => ?_, fun v hv => ?_, fun v hv => ?_⟩
  · show ((s.engine .scalar).cfgFlags.getLsbD 1 || (s.engine .scalar).cfgFlags.getLsbD 0) = _
    rw [hstd, Bool.false_or]
  · obtain ⟨rfl, rfl⟩ := hsupplied k0 k1 h0 h1
    exact ⟨rfl, initState_keyBytes _ k0 k1⟩
  · obtain ⟨rfl, rfl⟩ := hdrawn hnone
    exact ⟨rfl, rfl⟩
  · have hconfigured := (hengine v).trans (if_pos hv)
    exact ⟨congrArg Engine.status hconfigured, congrArg Engine.norm hconfigured, congrArg Engine.iv hconfigured,
      congrArg Engine.prog hconfigured⟩
  · exact (hengine v).trans (if_neg hv)

end Sys2Proof.Machine
end

section
/-! Proofs of the commands family (46_commands), a batch runs to its end (R235). A synchronous host waits for every call of the batch
(R233), so a call runs as it does with nothing pending, and leaves in memory the slots of its records; the calls of the batch follow
each other along the row of records (R232), and none writes a byte of a record that is still to be read (R74). -/

namespace Sys2Proof.Machine

/-! ### Runs -/

/-- Some run leads from `s` to `t`. -/
def Reaches (s t : State) : Prop :=
  ∃ k, Sys2Proof.core.run k s = .next t

theorem Reaches.refl (s : State) : Reaches s s := ⟨0, rfl⟩

/-- A run that answers a next state goes on from there. -/
theorem run_add {j : Nat} : ∀ {s t : State}, Sys2Proof.core.run j s = .next t → ∀ k,
    Sys2Proof.core.run (j + k) s = Sys2Proof.core.run k t := by
  induction j with
  | zero =>
    intro s t h k
    rw [Nat.zero_add, Host.Outcome.next.inj h]
  | succ j ih =>
    intro s t h k
    rw [Nat.succ_add]
    cases hstep : Sys2Proof.core.step s with
    | next s' => simp only [Host.Core.run, hstep] at h ⊢; exact ih h k
    | fault r => simp [Host.Core.run, hstep] at h
    | refused r => simp [Host.Core.run, hstep] at h

theorem Reaches.trans {s t u : State} (h : Reaches s t) (h' : Reaches t u) : Reaches s u := by
  obtain ⟨j, hj⟩ := h
  obtain ⟨k, hk⟩ := h'
  exact ⟨j + k, (run_add hj k).trans hk⟩

theorem Reaches.of_step {s t : State} (h : step s = .next t) : Reaches s t :=
  ⟨1, run_of_step h 0⟩

/-! ### A micro-op reads nothing of the host's queue -/

/-- The same outcome, with the queue `q` in a next state. -/
def withQueue (q : List HostEvent) : Host.Outcome State Fault Refusal → Host.Outcome State Fault Refusal
  | .next t => .next { t with pending := q }
  | .fault r => .fault r
  | .refused r => .refused r

theorem ite_queue {p : Prop} [Decidable p] (q : List HostEvent) {a b a' b' : Host.Outcome State Fault Refusal}
    (ha : a' = withQueue q a) (hb : b' = withQueue q b) : (if p then a' else b') = withQueue q (if p then a else b) := by
  split
  · exact ha
  · exact hb

section queue
variable (s : State) (q : List HostEvent)

theorem aluOp_queue (i : Instr) (reads : List Reg) (f : Lane → Lane) :
    aluOp i reads f { s with pending := q } = withQueue q (aluOp i reads f s) := by
  simp only [aluOp, eng_pending]
  cases s.eng.firstUnwritten reads <;> rfl

theorem memLoad_queue (n : Nat) (rd : Reg) : memLoad n rd { s with pending := q } = withQueue q (memLoad n rd s) := by
  have hstop : loadStop { s with pending := q } n = loadStop s n := rfl
  simp only [memLoad, hstop]
  cases loadStop s n <;> rfl

theorem immLoad_queue (rd : Reg) : immLoad rd { s with pending := q } = withQueue q (immLoad rd s) := by
  simp only [immLoad, eng_pending]
  cases s.eng.arg <;> rfl

theorem deliverSlots_queue (rs : Reg) (standard : Bool) :
    deliverSlots rs standard { s with pending := q } = withQueue q (deliverSlots rs standard s) := by
  simp only [deliverSlots, eng_pending]
  cases s.eng.outPtr with
  | none => rfl
  | some p => exact ite_queue q rfl rfl

theorem execFin_queue (rs : Reg) (standard : Bool) :
    execFin rs standard { s with pending := q } = withQueue q (execFin rs standard s) := by
  refine ite_queue q rfl ?_
  simp only [eng_pending]
  cases s.eng.firstUnwritten [rs] with
  | some r => rfl
  | none => exact ite_queue q (deliverSlots_queue s q rs standard) rfl

/-- With another queue a micro-op does the same, and leaves that queue. -/
theorem exec_queue (i : Instr) : exec i { s with pending := q } = withQueue q (exec i s) := by
  cases i with
  | init => rfl
  | ldi rd b => rfl
  | ld8 rd => exact ite_queue q rfl (memLoad_queue s q 1 rd)
  | ld16 rd => exact ite_queue q rfl (memLoad_queue s q 2 rd)
  | ld32 rd => exact ite_queue q rfl (memLoad_queue s q 4 rd)
  | ld64 rd => exact ite_queue q (ite_queue q (immLoad_queue s q rd) rfl) (memLoad_queue s q 8 rd)
  | fin rs standard => exact execFin_queue s q rs standard
  | _ => exact aluOp_queue s q _ _ _

theorem fetchExec_queue : fetchExec { s with pending := q } = withQueue q (fetchExec s) := by
  simp only [fetchExec, eng_pending]
  cases s.eng.prog[s.eng.upc]? with
  | none => rfl
  | some w =>
    simp only
    cases decode w with
    | error _ => rfl
    | ok i => exact exec_queue s q i

theorem engineStep_queue : engineStep { s with pending := q } = withQueue q (engineStep s) :=
  ite_queue q (fetchExec_queue s q) rfl

end queue

/-! ### A call that the host waits for (R77, R233) -/

/-- The state in which the host waits for engine `v` before it goes on with `q`. -/
def State.waiting (s : State) (v : Variant) (q : List HostEvent) : State :=
  { s with pending := .await v :: q }

/-- While the engine waited for is BUSY, the step is the one with nothing pending. -/
theorem step_waiting {s t : State} (hpend : s.pending = []) (hbusy : s.eng.status = .busy) (h : step s = .next t)
    (q : List HostEvent) : step (s.waiting s.active q) = .next (t.waiting s.active q) := by
  have hawait : step (s.waiting s.active q) = engineStep (s.waiting s.active q) := if_pos hbusy
  rw [hawait, State.waiting, engineStep_queue, ← step_active hpend hbusy, h]
  rfl

/-- Once the engine is not BUSY the host goes on. -/
theorem step_waited {s : State} {v : Variant} (h : (s.engine v).status ≠ .busy) (q : List HostEvent) :
    step (s.waiting v q) = .next { s with pending := q } :=
  if_neg h

section call
variable {s t : State} {n : Norm} {iv : SipState} {record : Nat → List Byte}

/-- The steps of a call, up to its FIN, while the host waits. -/
theorem run_waiting (h : AtCallStart s n iv) (hrec : CallRecords s n record) (q : List HostEvent) {k : Nat} :
    ∀ {t : State}, k ≤ (program n).length → Sys2Proof.core.run k s = .next t →
      Sys2Proof.core.run k (s.waiting s.active q) = .next (t.waiting s.active q) := by
  obtain ⟨hpend, hbusy, -⟩ := id h
  induction k with
  | zero =>
    intro t _ hrun
    rw [Host.Outcome.next.inj hrun]
    rfl
  | succ k ih =>
    intro t hk hrun
    have hlength : ((program n).take k).length = k := List.length_take_of_le (Nat.le_of_succ_le hk)
    have hbefore := run_call h hrec _ (List.take_append_drop k (program n)).symm (by simpa using hk)
    rw [hlength] at hbefore
    rw [run_succ hbefore] at hrun
    rw [run_succ (ih (Nat.le_of_succ_le hk) hbefore)]
    exact step_waiting (s := s.afterOps iv record ((program n).take k)) hpend (by rw [afterOps_eng]; exact hbusy) hrun q

/-- A call that completes with nothing pending completes while the host waits, and the host goes on. -/
theorem reaches_call_waited (h : AtCallStart s n iv) (hrec : CallRecords s n record)
    (hrun : Sys2Proof.core.run (programWords n).length s = .next t) (hready : (t.engine s.active).status = .ready)
    (q : List HostEvent) : Reaches (s.waiting s.active q) { t with pending := q } := by
  have hlength : (programWords n).length ≤ (program n).length := by rw [programWords, List.length_map]
  refine Reaches.trans ⟨_, run_waiting h hrec q hlength hrun⟩ (.of_step (step_waited ?_ q))
  rw [hready]
  decide

end call

/-! ### The engines of a batch (R232, R283) -/

/-- An engine of variant `v` that is READY with configuration `n`, its program and `iv`. -/
structure Engine.ReadyFor (e : Engine) (v : Variant) (n : Norm) (iv : SipState) : Prop where
  variant : e.variant = v
  status : e.status = .ready
  iv : e.iv = some iv
  norm : e.norm = some n
  prog : e.prog = programWords n

/-- From `e` to `e'` a call has changed at most the lanes, `upc`, `cur`, `RES` and STATUS. -/
def Engine.KeptByCall (e e' : Engine) : Prop :=
  { e' with lanes := e.lanes, upc := e.upc, cur := e.cur, res := e.res, status := e.status } = e

/-- A call that has kept `RES`, too. -/
theorem keptByCall_of_res {e e' : Engine}
    (h : { e' with lanes := e.lanes, upc := e.upc, cur := e.cur, status := e.status } = e) : e.KeptByCall e' :=
  (congrArg (fun x : Engine => { x with res := e.res }) h :)

/-- A READY engine that was called and is READY again. -/
theorem Engine.ReadyFor.after_call {e e' : Engine} {v : Variant} {n : Norm} {iv : SipState} (h : e.ReadyFor v n iv)
    {inPtr outPtr : Option Word} {res : Option OutWord}
    (hkept : Engine.KeptByCall { e.startCall with inPtr := inPtr, outPtr := outPtr, res := res } e') (hstatus : e'.status = .ready) :
    e'.ReadyFor v n iv :=
  ⟨(congrArg Engine.variant hkept :).trans h.variant, hstatus, (congrArg Engine.iv hkept :).trans h.iv,
    (congrArg Engine.norm hkept :).trans h.norm, (congrArg Engine.prog hkept :).trans h.prog⟩

/-- Every engine of a batch is one the host has. -/
theorem has_of_mem_composerEngines {p : Platform} {v : Variant} (h : v ∈ composerEngines p) : p.has v = true := by
  cases v <;> simp_all [composerEngines, Platform.has]

/-- The engine of a batch that delivers to `RES` is SCALAR. -/
theorem eq_scalar_of_mem_composerEngines {p : Platform} {v : Variant} (h : v ∈ composerEngines p) (hv : v.multiLane = false) :
    v = .scalar := by
  cases v <;> simp_all [composerEngines, Variant.multiLane]

/-- Every engine of a batch admits a configuration in the internal format. -/
theorem legalNorm_of_internal {p : Platform} {v : Variant} {n : Norm} (hv : v ∈ composerEngines p) (hn : n.standard = false) :
    legalNorm v n :=
  ⟨fun hstd => absurd (hn.symm.trans hstd) Bool.false_ne_true, fun himm => absurd himm (ne_scalarImm_of_mem_composerEngines hv),
    fun _ => hn⟩

/-! ### One engine call (R227, R233) -/

/-- The state in which engine `v` has become `e` at the start of a call, with nothing pending. -/
def State.calling (s : State) (v : Variant) (e : Engine) : State :=
  { s.setEngine v e with active := v, pending := [] }

theorem calling_eng (s : State) (v : Variant) (e : Engine) : (s.calling v e).eng = e :=
  engines_get_set s.engines v e

/-- A READY engine at the start of a call. -/
theorem atCallStart_calling {s : State} {v : Variant} {n : Norm} {iv : SipState} (h : (s.engine v).ReadyFor v n iv)
    (hlegal : legalNorm v n) (inPtr outPtr : Option Word) (res : Option OutWord) :
    AtCallStart (s.calling v { (s.engine v).startCall with inPtr := inPtr, outPtr := outPtr, res := res }) n iv := by
  rw [AtCallStart, calling_eng]
  exact ⟨rfl, rfl, rfl, rfl, h.iv, h.norm, h.prog, h.variant.symm ▸ hlegal, List.length_replicate⟩

/-- What a call leaves besides its engine and memory. -/
theorem calling_frame {s t : State} {v : Variant} {e : Engine} {m : List Host.Cell}
    (h : { t.putEng (s.calling v e).eng with mem := m } = s.calling v e) :
    t.platform = s.platform ∧ t.active = v ∧ ∀ u, u ≠ v → t.engine u = s.engine u := by
  have hactive : t.active = v := congrArg State.active h
  refine ⟨(congrArg State.platform h :), hactive, fun u hu => ?_⟩
  calc t.engine u = ({ t.putEng (s.calling v e).eng with mem := m } : State).engine u :=
        (engine_putEng_ne t _ (hactive ▸ hu)).symm
    _ = (s.calling v e).engine u := by rw [h]
    _ = s.engine u := engines_get_set_ne s.engines e hu

/-- What the words of the records of an engine call are, in the order of its lanes. -/
def callHashes (m : Memory) (n : Norm) (iv : SipState) (c : EngineCall) : List OutWord :=
  (List.range c.variant.lanes).map fun l => hashFrom iv n (recordAt m n c.input l)

/-- Engine call `c` can be issued in `s` and completes. -/
structure CallFits (s : State) (n : Norm) (iv : SipState) (c : EngineCall) : Prop where
  member : c.variant ∈ composerEngines s.platform
  ready : (s.engine c.variant).ReadyFor c.variant n iv
  internal : n.standard = false
  idle : ∀ u, (s.engine u).status ≠ .busy
  regions : ∀ r ∈ s.platform.regions, r.kind = .memory
  apart : (inputSpan n c.variant.lanes c.input).overlaps (outputSpan c.variant.lanes c.output) = false
  admitted : InputAdmitted s n c.input c.variant.lanes
  writes : admitsWrite s.platform c.output (4 * c.variant.lanes) = true
  input_lt : c.input < 2 ^ 64

/-- `t` is what the engine call `c` of a batch leaves of `s`, with the queue `q`: the hashes of its records in its slots, the engine
READY again, and nothing else changed in memory or in another engine. -/
structure CallDone (s t : State) (n : Norm) (iv : SipState) (c : EngineCall) (q : List HostEvent) : Prop where
  pending : t.pending = q
  platform : t.platform = s.platform
  mem : t.mem = storeSlots s.mem c.output (callHashes s.mem n iv c)
  ready : (t.engine c.variant).ReadyFor c.variant n iv
  others : ∀ u, u ≠ c.variant → t.engine u = s.engine u

/-- An address that may be written is below `2^64` (R64). -/
theorem lt_of_admitsWrite {p : Platform} {a k : Nat} (h : admitsWrite p a k = true) (hk : 0 < k) : a < 2 ^ 64 := by
  have hwritable : writable p.regions (a + 0) = true := List.all_eq_true.1 h 0 (List.mem_range.2 hk)
  simp only [writable, Bool.and_eq_true, decide_eq_true_eq] at hwritable
  exact hwritable.1.1

/-- The state of an engine call that was just accepted, with nothing pending. -/
def State.callStart (s : State) (c : EngineCall) (outPtr : Option Word) (res : Option OutWord) : State :=
  s.calling c.variant { (s.engine c.variant).startCall with inPtr := some (BitVec.ofNat 64 c.input), outPtr := outPtr, res := res }

/-- The result that the host may read is stored where the store is admitted (R233). -/
theorem step_storeRes {s : State} {slot : Nat} {r : OutWord} {rest : List HostEvent} (hpend : s.pending = .storeRes slot :: rest)
    (hr : (s.engine .scalar).validRes = some r) (ha : admitsWrite s.platform slot Config.slotBytes = true) :
    step s = .next { s with mem := storeSlots s.mem slot [r], pending := rest } := by
  rw [step, hpend]
  simp only [hostStep, storeRes, engine_pending, hr]
  exact if_pos ha

section engineCall
variable {s : State} {n : Norm} {iv : SipState} {c : EngineCall} {q : List HostEvent} (h : CallFits s n iv c)
include h

theorem CallFits.output_lt : c.output < 2 ^ 64 :=
  lt_of_admitsWrite h.writes (by cases c.variant <;> decide)

/-- The pointers of a call that fits are addresses. -/
theorem CallFits.addressed : c.addressed = true :=
  Bool.and_eq_true_iff.2 ⟨decide_eq_true h.input_lt, Bool.or_eq_true_iff.2 (.inr (decide_eq_true h.output_lt))⟩

theorem CallFits.toNat_input : (BitVec.ofNat 64 c.input).toNat = c.input := Nat.mod_eq_of_lt h.input_lt

theorem CallFits.toNat_output : (BitVec.ofNat 64 c.output).toNat = c.output := Nat.mod_eq_of_lt h.output_lt

section start
variable (outPtr : Option Word) (res : Option OutWord)

theorem CallFits.atCallStart : AtCallStart (s.callStart c outPtr res) n iv :=
  atCallStart_calling h.ready (legalNorm_of_internal h.member h.internal) _ _ _

theorem CallFits.start_variant : (s.callStart c outPtr res).eng.variant = c.variant := by
  rw [State.callStart, calling_eng]
  exact h.ready.variant

/-- An engine call reads its records from memory. -/
theorem CallFits.records : CallRecords (s.callStart c outPtr res) n (recordAt s.mem n c.input) := by
  rw [← h.toNat_input]
  refine .memory (BitVec.ofNat 64 c.input) ?_ ?_ ?_
  · rw [h.start_variant]
    exact ne_scalarImm_of_mem_composerEngines h.member
  · rw [State.callStart, calling_eng]
  · rw [h.start_variant, h.toNat_input]
    exact h.admitted

/-- The run of an engine call, as the host waits for it: the engine is READY again, and no other engine has changed. -/
theorem CallFits.reaches_waited {t : State} {m : List Host.Cell} (q : List HostEvent)
    (hrun : Sys2Proof.core.run (programWords n).length (s.callStart c outPtr res) = .next t) (hready : t.eng.status = .ready)
    (hkept : (s.callStart c outPtr res).eng.KeptByCall t.eng)
    (hback : { t.putEng (s.callStart c outPtr res).eng with mem := m } = s.callStart c outPtr res) :
    Reaches ((s.callStart c outPtr res).waiting c.variant q) { t with pending := q } ∧ t.platform = s.platform ∧
      (t.engine c.variant).ReadyFor c.variant n iv ∧ ∀ u, u ≠ c.variant → t.engine u = s.engine u := by
  obtain ⟨hplatform, hactive, hothers⟩ := calling_frame hback
  have heng : t.engine c.variant = t.eng := by rw [State.eng, hactive]
  have hafter : (t.engine c.variant).ReadyFor c.variant n iv := by
    rw [State.callStart, calling_eng] at hkept
    rw [heng]
    exact h.ready.after_call hkept hready
  exact ⟨reaches_call_waited (h.atCallStart outPtr res) (h.records outPtr res) hrun hafter.status q, hplatform, hafter, hothers⟩

/-- A function of the lanes' numbers, on the lanes of a call that has just started. -/
theorem CallFits.mapIdx_eq_callHashes :
    ((s.callStart c outPtr res).eng.lanes.mapIdx fun l _ => hashFrom iv n (recordAt s.mem n c.input l)) = callHashes s.mem n iv c := by
  obtain ⟨-, -, -, -, -, -, -, -, hlanes⟩ := h.atCallStart outPtr res
  rw [h.start_variant] at hlanes
  exact List.ext_getElem (by simp [callHashes, hlanes]) fun l _ _ => by simp [callHashes]

end start

/-- An engine call on DUAL or QUAD (R233). -/
theorem reaches_multiLaneCall (hv : c.variant.multiLane = true) (hpend : s.pending = callEvents c ++ q) :
    ∃ t, Reaches s t ∧ CallDone s t n iv c q := by
  rw [callEvents_addressed h.addressed, if_pos hv] at hpend
  have haccepts : accepts { s with pending := .await c.variant :: q } c.variant
      (.callOut (BitVec.ofNat 64 c.input) (BitVec.ofNat 64 c.output)) = true :=
    accepts_callOut h.ready.status h.ready.norm (has_of_mem_composerEngines h.member) h.idle h.regions hv
      (by rw [h.toNat_input, h.toNat_output]; exact h.apart)
  have hstep : step s = .next ((s.callStart c (some (BitVec.ofNat 64 c.output)) (s.engine c.variant).res).waiting c.variant q) :=
    step_accepted hpend haccepts
  have hout : (s.callStart c (some (BitVec.ofNat 64 c.output)) (s.engine c.variant).res).eng.outPtr = some (BitVec.ofNat 64 c.output) := by
    rw [State.callStart, calling_eng]
  obtain ⟨t, hrun, hmem, hready, -, hkept, hback⟩ := run_multiLane (h.atCallStart _ _) (h.records _ _)
    (by rw [h.start_variant]; exact hv) hout (by rw [h.start_variant, h.toNat_output]; exact h.writes)
  obtain ⟨hreaches, hplatform, hafter, hothers⟩ := h.reaches_waited _ _ q hrun hready
    (keptByCall_of_res hkept) hback
  refine ⟨_, (Reaches.of_step hstep).trans hreaches, rfl, hplatform, hmem.trans ?_, hafter, hothers⟩
  rw [h.toNat_output]
  exact congrArg (storeSlots s.mem c.output) (h.mapIdx_eq_callHashes _ _)

/-- An engine call on SCALAR, whose result the host stores (R233). -/
theorem reaches_scalarCall (hv : c.variant.multiLane = false) (hpend : s.pending = callEvents c ++ q) :
    ∃ t, Reaches s t ∧ CallDone s t n iv c q := by
  have hscalar : c.variant = .scalar := eq_scalar_of_mem_composerEngines h.member hv
  rw [callEvents_addressed h.addressed, if_neg (by simp [hv])] at hpend
  have haccepts : accepts { s with pending := .await c.variant :: .storeRes c.output :: q } c.variant
      (.call (BitVec.ofNat 64 c.input)) = true :=
    accepts_call h.ready.status h.ready.norm (has_of_mem_composerEngines h.member) h.idle h.regions (.inl hscalar) _
  have hstep : step s = .next ((s.callStart c (s.engine c.variant).outPtr none).waiting c.variant (.storeRes c.output :: q)) :=
    step_accepted hpend haccepts
  obtain ⟨-, t, hrun, hres, hready, -, hkept, hback, -⟩ := run_oneLane (h.atCallStart (s.engine c.variant).outPtr none)
    (h.records _ _) (by rw [h.start_variant]; exact hv)
  have hmem : t.mem = s.mem := (congrArg State.mem hback :)
  obtain ⟨hreaches, hplatform, hafter, hothers⟩ := h.reaches_waited _ _ (m := t.mem) (.storeRes c.output :: q) hrun hready hkept hback
  have hvalid : (t.engine .scalar).validRes = some (hashFrom iv n (recordAt s.mem n c.input 0)) := by
    have heng : t.engine .scalar = t.eng := by
      obtain ⟨-, hactive, -⟩ := calling_frame (m := t.mem) hback
      rw [State.eng, hactive, hscalar]
    rw [heng, Engine.validRes, hready]
    exact hres
  have hslot : admitsWrite t.platform c.output Config.slotBytes = true := by
    have hwrites := h.writes
    rw [hscalar] at hwrites
    rw [hplatform]
    exact hwrites
  have hstore := step_storeRes (s := { t with pending := .storeRes c.output :: q }) rfl hvalid hslot
  refine ⟨_, ((Reaches.of_step hstep).trans hreaches).trans (.of_step hstore), rfl, hplatform, ?_, hafter, hothers⟩
  rw [callHashes, hscalar]
  exact congrArg (fun m => storeSlots m c.output [hashFrom iv n (recordAt s.mem n c.input 0)]) hmem

end engineCall

/-! ### A row of records and slots in parts (R232, R237) -/

/-- An engine call that covers the first records of a row begins where the row does, and the rest covers the rest of the row. -/
theorem slotRow_of_coveredBy_append {stride i o w : Nat} {c : EngineCall} {rest : List (Nat × Nat)}
    (h : coveredBy stride c ++ rest = slotRow stride i o w) : c.input = i ∧ c.output = o ∧
      ∃ w', w = c.variant.lanes + w' ∧ rest = slotRow stride (i + c.variant.lanes * stride) (o + 4 * c.variant.lanes) w' := by
  have hw : w = c.variant.lanes + rest.length := by
    have hlength := congrArg List.length h
    simpa [coveredBy, slotRow] using hlength.symm
  rw [coveredBy_eq, ← slotRow_append rfl rfl hw] at h
  obtain ⟨hfirst, hrest⟩ := List.append_inj h (by simp [slotRow])
  have hhead : (c.input, c.output) = (i, o) := by
    have hzero := congrArg (fun row => row[0]?) hfirst
    have hlanes : 0 < c.variant.lanes := by cases c.variant <;> decide
    simpa [slotRow, hlanes] using hzero
  exact ⟨congrArg Prod.fst hhead, congrArg Prod.snd hhead, rest.length, hw, hrest⟩

/-- The regions of a part of a row are apart where those of the row are. -/
theorem overlaps_part {n : Norm} {i o w a b : Nat} (h : (inputSpan n w i).overlaps (outputSpan w o) = false) (hw : a + b ≤ w) :
    (inputSpan n b (i + a * n.stride.toNat)).overlaps (outputSpan b (o + 4 * a)) = false := by
  obtain hsize | hsize := Nat.eq_zero_or_pos n.size.toNat
  · exact overlaps_eq_false (.inl hsize)
  · have hrecords : a * n.stride.toNat + (b - 1) * n.stride.toNat ≤ (w - 1) * n.stride.toNat ∨ b = 0 := by
      obtain hb | hb := Nat.eq_zero_or_pos b
      · exact .inr hb
      · rw [← Nat.add_mul]
        exact .inl (Nat.mul_le_mul_right _ (by omega))
    rw [inputSpan, if_neg hsize.ne'] at h ⊢
    have hapart := of_decide_eq_false h
    refine decide_eq_false ?_
    simp only [outputSpan, Config.slotBytes] at hapart ⊢
    omega

/-- The records of a part of a row are admitted where those of the row are. -/
theorem inputAdmitted_part {s : State} {n : Norm} {i w a b : Nat} (h : InputAdmitted s n i w) (hw : a + b ≤ w) :
    InputAdmitted s n (i + a * n.stride.toNat) b := by
  intro l hl
  rw [Nat.add_assoc, ← Nat.add_mul]
  exact h (a + l) (by omega)

/-- A byte of a record of the row is outside its slots. -/
theorem outside_of_record {n : Norm} {i o w j k : Nat} (h : (inputSpan n w i).overlaps (outputSpan w o) = false) (hj : j < w)
    (hk : k < n.size.toNat) : i + j * n.stride.toNat + k < o ∨ o + 4 * w ≤ i + j * n.stride.toNat + k := by
  have hrecord : InRecords n i w (i + j * n.stride.toNat + k) := ⟨j, hj, by omega, by omega⟩
  by_contra hslot
  exact not_has_of_not_overlaps h (outputSpan_has (a := i + j * n.stride.toNat + k) ⟨by omega, by omega⟩) (inputSpan_has hrecord)

/-! ### The calls of a batch, one after the other (R232, R235) -/

/-- What is left of a batch in state `s`: the engine calls `calls` for the `w` records from `i` up, with the slots from `o` up. -/
structure BatchRest (s : State) (n : Norm) (iv : SipState) (calls : List EngineCall) (i o w : Nat) : Prop where
  pending : s.pending = calls.flatMap callEvents
  covers : calls.flatMap (coveredBy n.stride.toNat) = slotRow n.stride.toNat i o w
  members : ∀ c ∈ calls, c.variant ∈ composerEngines s.platform
  inputs : ∀ c ∈ calls, c.input < 2 ^ 64
  ready : ∀ v ∈ composerEngines s.platform, (s.engine v).ReadyFor v n iv
  internal : n.standard = false
  idle : ∀ v, (s.engine v).status ≠ .busy
  regions : ∀ r ∈ s.platform.regions, r.kind = .memory
  canonical : MemoryInv s
  apart : (inputSpan n w i).overlaps (outputSpan w o) = false
  admitted : InputAdmitted s n i w
  writes : admitsWrite s.platform o (4 * w) = true

section batchRest
variable {s t : State} {n : Norm} {iv : SipState} {c : EngineCall} {calls : List EngineCall} {i o w w' : Nat}

/-- The first call of what is left can be issued and completes. -/
theorem BatchRest.fits (h : BatchRest s n iv (c :: calls) i o w) (hi : c.input = i) (ho : c.output = o)
    (hw : w = c.variant.lanes + w') : CallFits s n iv c := by
  have hmember := h.members c List.mem_cons_self
  subst hi ho
  refine ⟨hmember, h.ready _ hmember, h.internal, h.idle, h.regions, ?_, ?_, ?_, h.inputs c List.mem_cons_self⟩
  · have hpart := overlaps_part (a := 0) (b := c.variant.lanes) h.apart (by omega)
    rwa [Nat.zero_mul, Nat.mul_zero, Nat.add_zero, Nat.add_zero] at hpart
  · exact fun l hl => h.admitted l (by omega)
  · exact allAddresses_part (c := 0) h.writes (by omega)

/-- What is left once the first call is done. -/
theorem BatchRest.tail (h : BatchRest s n iv (c :: calls) i o w) (hw : w = c.variant.lanes + w')
    (hcovers : calls.flatMap (coveredBy n.stride.toNat) =
      slotRow n.stride.toNat (i + c.variant.lanes * n.stride.toNat) (o + 4 * c.variant.lanes) w')
    (hdone : CallDone s t n iv c (calls.flatMap callEvents)) :
    BatchRest t n iv calls (i + c.variant.lanes * n.stride.toNat) (o + 4 * c.variant.lanes) w' where
  pending := hdone.pending
  covers := hcovers
  members c' hc' := hdone.platform ▸ h.members c' (List.mem_cons_of_mem c hc')
  inputs c' hc' := h.inputs c' (List.mem_cons_of_mem c hc')
  ready v hv := by
    by_cases hvc : v = c.variant
    · rw [hvc]; exact hdone.ready
    · rw [hdone.others v hvc]; exact h.ready v (hdone.platform ▸ hv)
  internal := h.internal
  idle v := by
    by_cases hvc : v = c.variant
    · rw [hvc, hdone.ready.status]; decide
    · rw [hdone.others v hvc]; exact h.idle v
  regions := hdone.platform ▸ h.regions
  canonical := by
    rw [MemoryInv, hdone.mem]
    exact MemoryLaws.wf_storeSlots _ _ h.canonical
  apart := overlaps_part h.apart hw.ge
  admitted := by
    intro l hl
    rw [hdone.platform]
    exact inputAdmitted_part h.admitted hw.ge l hl
  writes := by
    rw [hdone.platform]
    exact allAddresses_part h.writes (by omega)

end batchRest

@[simp] theorem callHashes_length (m : Memory) (n : Norm) (iv : SipState) (c : EngineCall) :
    (callHashes m n iv c).length = c.variant.lanes := by
  simp [callHashes]

/-- The engine calls that are left of a batch run to their end: every slot gets the hash of its record, and no other byte changes. -/
theorem reaches_batchEnd {n : Norm} {iv : SipState} (calls : List EngineCall) : ∀ {s : State} {i o w : Nat},
    BatchRest s n iv calls i o w → ∃ t, Reaches s t ∧ t.pending = [] ∧
      (∀ j < w, ∀ q < 4, Memory.read t.mem (o + 4 * j + q) = slotByte (hashFrom iv n (recordAt s.mem n i j)) q) ∧
      ∀ a, (a < o ∨ o + 4 * w ≤ a) → Memory.read t.mem a = Memory.read s.mem a := by
  induction calls with
  | nil =>
    intro s i o w h
    have hw : w = 0 := by simpa [slotRow] using h.covers
    subst hw
    exact ⟨s, .refl s, h.pending, fun j hj => absurd hj (Nat.not_lt_zero j), fun _ _ => rfl⟩
  | cons c calls ih =>
    intro s i o w h
    obtain ⟨hi, ho, w', hw, hcovers⟩ := slotRow_of_coveredBy_append h.covers
    have hfits := h.fits hi ho hw
    obtain ⟨u, hreaches, hdone⟩ : ∃ u, Reaches s u ∧ CallDone s u n iv c (calls.flatMap callEvents) := by
      cases hv : c.variant.multiLane with
      | true => exact reaches_multiLaneCall hfits hv h.pending
      | false => exact reaches_scalarCall hfits hv h.pending
    obtain ⟨t, hreaches', hend, hslots, hkept⟩ := ih (h.tail hw hcovers hdone)
    have houtside : ∀ a, (a < o ∨ o + 4 * c.variant.lanes ≤ a) → Memory.read u.mem a = Memory.read s.mem a := fun a ha => by
      rw [hdone.mem, ho]
      exact read_storeSlots_outside _ h.canonical (by rwa [callHashes_length])
    refine ⟨t, hreaches.trans hreaches', hend, fun j hj q hq => ?_, fun a ha => ?_⟩
    · obtain hfirst | hlater := Nat.lt_or_ge j c.variant.lanes
      · rw [hkept _ (by omega), hdone.mem, ho]
        exact read_storeSlots o h.canonical (by simp [callHashes, hfirst, hi]) hq
      · obtain ⟨l, rfl⟩ := Nat.exists_eq_add_of_le hlater
        have hrecord : recordAt u.mem n (i + c.variant.lanes * n.stride.toNat) l = recordAt s.mem n i (c.variant.lanes + l) := by
          rw [recordAt, Nat.add_assoc, ← Nat.add_mul]
          refine readBytes_congr fun k hk => houtside _ ?_
          have hslot := outside_of_record h.apart hj hk
          omega
        have haddr : o + 4 * (c.variant.lanes + l) + q = o + 4 * c.variant.lanes + 4 * l + q := by ring
        rw [haddr, hslots l (by omega) q hq, hrecord]
    · rw [hkept a (by omega), houtside a (by omega)]

/-! ### The launch (R232, R283) -/

section members
variable (p : Platform) (stride : Nat)

theorem mem_composerEngines_call1 {i o : Nat} : ∀ c ∈ call1 i o, c.variant ∈ composerEngines p := by
  simp [call1, composerEngines]

theorem mem_composerEngines_call2 {i o : Nat} : ∀ c ∈ call2 p stride i o, c.variant ∈ composerEngines p := by
  unfold call2
  split
  · next hdual => simp [composerEngines, hdual]
  · exact List.forall_mem_append.2 ⟨mem_composerEngines_call1 p, mem_composerEngines_call1 p⟩

theorem mem_composerEngines_call4 {i o : Nat} : ∀ c ∈ call4 p stride i o, c.variant ∈ composerEngines p := by
  unfold call4
  split
  · next hquad => simp [composerEngines, hquad]
  · exact List.forall_mem_append.2 ⟨mem_composerEngines_call2 p stride, mem_composerEngines_call2 p stride⟩

theorem mem_composerEngines_call4s (q : Nat) : ∀ {i o : Nat}, ∀ c ∈ call4s p stride q i o, c.variant ∈ composerEngines p := by
  induction q with
  | zero => exact fun c hc => absurd hc List.not_mem_nil
  | succ q ih => exact List.forall_mem_append.2 ⟨mem_composerEngines_call4 p stride, ih⟩

/-- The engine calls of a batch use engines of the batch only. -/
theorem mem_composerEngines_batchCalls {w i o : Nat} : ∀ c ∈ batchCalls p stride w i o, c.variant ∈ composerEngines p := by
  have hdigit : ∀ {d : Prop} [Decidable d] {calls : List EngineCall}, (∀ c ∈ calls, c.variant ∈ composerEngines p) →
      ∀ c ∈ if d then calls else [], c.variant ∈ composerEngines p := by
    intro d _ calls h
    split
    · exact h
    · exact fun c hc => absurd hc List.not_mem_nil
  exact List.forall_mem_append.2 ⟨List.forall_mem_append.2 ⟨mem_composerEngines_call4s p stride _,
    hdigit (mem_composerEngines_call2 p stride)⟩, hdigit (mem_composerEngines_call1 p)⟩

end members

/-- With its engines READY and alike, no engine BUSY, no device region and its regions apart, a batch is accepted. -/
theorem acceptsBatch_of_ready {s : State} {b : BatchConfig} {i o : Word}
    (hready : ∀ v ∈ composerEngines s.platform, (s.engine v).ReadyFor v b.norm b.iv) (hidle : ∀ v, (s.engine v).status ≠ .busy)
    (hregions : ∀ r ∈ s.platform.regions, r.kind = .memory)
    (hapart : (inputSpan b.norm b.width.toNat i.toNat).overlaps (outputSpan b.width.toNat o.toNat) = false) :
    acceptsBatch s b i o = true := by
  refine Bool.and_eq_true_iff.2 ⟨List.all_eq_true.2 fun c hc => ?_, launchAllowed_of_idle hidle hregions hapart _⟩
  have hengine := hready c.variant (mem_composerEngines_batchCalls _ _ c hc)
  simp [batchReady, hengine.status, hengine.norm, hengine.iv]

/-- A BATCH of the set-up in force, or of a READY SCALAR engine that passes the checks left to it, is the launch of that batch. -/
theorem startBatch_eq_launchBatch {s : State} {b : BatchConfig} (hscalar : (s.engine .scalar).ReadyFor .scalar b.norm b.iv)
    (hinternal : b.norm.standard = false)
    (hbatch : s.batch = some b ∨ (s.batch = none ∧ (s.engine .scalar).cfgWidth = b.width ∧ b.width ≠ 0#16)) (i o : Word) :
    startBatch s i o = launchBatch s b i o := by
  obtain hsetup | ⟨hnone, hwidth, hpositive⟩ := hbatch
  · rw [startBatch, hsetup]
  · have hown : (s.engine .scalar).ownBatch = some (.ok b) := by
      simp [Engine.ownBatch, hscalar.norm, hscalar.iv, hscalar.status, hwidth, hpositive, hinternal]
    rw [startBatch, hnone]
    simp only [hown]

/-- Settles O60: the batch is accepted, and its engine calls run to their end. -/
theorem batchDeliversEveryHash : Obligations.BatchDeliversEveryHash := by
  unfold Obligations.BatchDeliversEveryHash
  intro s b i o hpend hbatch hshape hconfigured hmem hinternal hengines hidle hregions hinputs hapart hadmitted hwrites
  have hready : ∀ v ∈ composerEngines s.platform, (s.engine v).ReadyFor v b.norm b.iv := fun v hv => by
    obtain ⟨hstatus, hnorm, hiv⟩ := hengines v hv
    obtain ⟨hvariant, -⟩ := hshape v
    obtain ⟨-, n, hn, -, hprog⟩ := hconfigured v (.inl hstatus)
    obtain rfl : n = b.norm := Option.some.inj (hn.symm.trans hnorm)
    exact ⟨hvariant, hstatus, hiv, hnorm, hprog⟩
  have hspans := overlaps_eq_false hapart
  have hstart : startBatch { s with pending := [] } i o = launchBatch { s with pending := [] } b i o :=
    startBatch_eq_launchBatch (s := { s with pending := [] }) (hready .scalar (by simp [composerEngines])) hinternal hbatch i o
  have haccepts : acceptsBatch { s with pending := [] } b i o = true := acceptsBatch_of_ready hready hidle hregions hspans
  have hstep := step_batch hpend
  rw [hstart, launchBatch, if_pos haccepts, List.append_nil] at hstep
  obtain ⟨t, hreaches, hend, hslots, hkept⟩ := reaches_batchEnd _
    (s := { s with
      pending := (batchCalls s.platform b.norm.stride.toNat b.width.toNat i.toNat o.toNat).flatMap callEvents })
    ⟨rfl, batchCoversEveryRecordOnce s.platform b.norm.stride.toNat b.width.toNat i.toNat o.toNat,
      mem_composerEngines_batchCalls _ _, hinputs, hready, hinternal, hidle, hregions, hmem, hspans, hadmitted, hwrites⟩
  obtain ⟨k, hrun⟩ := (Reaches.of_step hstep).trans hreaches
  exact ⟨k, t, hrun, hend, hslots, hkept⟩

end Sys2Proof.Machine
end

section
/-! Proofs of the exceptions family (60_exceptions): the two fetch faults, and FAULT as a status that only RESET leaves. -/

namespace Sys2Proof.Machine

/-! ### Fetch faults (R257, R259) -/

/-- A BUSY active engine with no word left takes `UE_NO_FIN`. -/
theorem engineStep_noFin {s : State} (hbusy : s.eng.status = .busy) (hend : s.eng.prog.length ≤ s.eng.upc) :
    engineStep s = .next (s.raise (.noFin s.eng.upc)) := by
  rw [engineStep, if_pos hbusy, fetchExec, List.getElem?_eq_none hend]

/-- A BUSY active engine whose next word does not decode takes `UE_ILLEGAL_OP`. -/
theorem engineStep_illegalOp {s : State} {w : MicroWord} {r : Illegal} (hbusy : s.eng.status = .busy)
    (hword : s.eng.prog[s.eng.upc]? = some w) (hr : decode w = .error r) :
    engineStep s = .next (s.raise (.illegalOp w s.eng.upc)) := by
  rw [engineStep, if_pos hbusy, fetchExec, hword]
  simp only [hr]

/-- Settles O23: the active engine moves, its fetch raises the fault, and that is the fault entry of R262. -/
theorem fetchFaults : Obligations.FetchFaults := by
  unfold Obligations.FetchFaults
  intro s hpend hbusy
  rw [step_active hpend hbusy]
  exact ⟨fun hend => ⟨_, engineStep_noFin hbusy hend, takesFault_raise s _⟩,
    fun w r hword hr => ⟨_, engineStep_illegalOp hbusy hword hr, takesFault_raise s _⟩⟩

/-! ### FAULT is sticky (R263) -/

/-- In FAULT no command but RESET is accepted: the others need a READY or a quiescent engine. -/
theorem commandEffect_of_fault {s : State} {v : Variant} {e e' : Engine} (hfault : e.status = .fault)
    (h : CommandEffect s v e e') : e' = e.reset := by
  have hready : e.status ≠ .ready := by rw [hfault]; decide
  cases h with
  | reset => rfl
  | fails _ hq _ => exact absurd hfault (ne_fault_of_quiescent hq)
  | configured _ _ hq _ => exact absurd hfault (ne_fault_of_quiescent hq)
  | call _ hr _ => exact absurd hr hready
  | callOut _ _ hr _ => exact absurd hr hready
  | callImm _ hr _ => exact absurd hr hready
  | write _ hq _ => exact absurd hfault (ne_fault_of_quiescent hq)

/-- Of the things a step can make of an engine, one in FAULT is open to two only: to stay as it is, and RESET. -/
theorem engineStep_of_fault {s : State} {v : Variant} {e' : Engine} (hfault : (s.engine v).status = .fault)
    (h : EngineStep s v e') : e' = s.engine v ∨ e' = (s.engine v).reset := by
  cases h with
  | same => exact .inl rfl
  | micro _ _ _ hbusy _ _ => exact absurd (hfault.symm.trans hbusy) Status.noConfusion
  | command _ hc => exact .inr (commandEffect_of_fault hfault hc)
  | batchFails _ _ hq => exact absurd hfault (ne_fault_of_quiescent hq)
  | batchConfigured _ _ _ hq _ => exact absurd hfault (ne_fault_of_quiescent hq)

/-- Settles O44: `engineStep_of_fault` for every engine; RESET leaves it as power-on does. -/
theorem faultIsSticky : Obligations.FaultIsSticky := by
  unfold Obligations.FaultIsSticky
  intro s t v hstep hfault
  rw [← engine_reset_eq_powerOn]
  exact engineStep_of_fault hfault (step_engine hstep v)

end Sys2Proof.Machine
end

section
/-! Proofs of the reset and hazards family (70_reset_and_hazards): the idle machine, RESET, refused commands, the quiescent
configuration of a BUSY engine, the life of an engine, and a control flow that reads no data. -/

namespace Sys2Proof.Machine

/-! ### The idle machine (R281) -/

/-- With no engine BUSY none is chosen to move. -/
theorem schedule_idle {s : State} (hidle : ∀ v, (s.engine v).status ≠ .busy) : schedule s = s := by
  have hnone : allVariants.find? (fun v => (s.engine v).status == .busy) = none :=
    List.find?_eq_none.2 fun v _ => by simpa using hidle v
  have hactive : s.eng.status ≠ .busy := hidle s.active
  rw [schedule, if_neg hactive, hnone]

/-- Settles O24: no engine is chosen, and the active one is not BUSY. -/
theorem idleMachineWaits : Obligations.IdleMachineWaits := by
  unfold Obligations.IdleMachineWaits
  intro s hpend hidle
  rw [step, hpend]
  simp only [schedule_idle hidle]
  exact if_neg (hidle s.active)

/-! ### RESET and refused commands (R263, R280, R282) -/

/-- Settles O32: RESET is accepted in any status, and `Engine.reset` writes every register but `ID`. -/
theorem resetEffect : Obligations.ResetEffect := by
  unfold Obligations.ResetEffect
  intro s v rest hpend hhas
  refine ⟨_, step_accepted hpend hhas, onlyEngineOrSetup_setEngine s v _ rest _ _ _, ?_⟩
  rw [perform, endSetup_engine, engine_setEngine]
  rfl

/-- `CALL(in_ptr)` is accepted on a READY SCALAR or REF engine only. -/
theorem of_accepts_call {s : State} {v : Variant} {p : Word} (h : accepts s v (.call p) = true) :
    (v = .scalar ∨ v = .ref) ∧ (s.engine v).status = .ready := by
  obtain ⟨-, hcall⟩ := Bool.and_eq_true_iff.1 h
  unfold acceptsCall at hcall
  split at hcall
  · cases hcall
  · simp only [Bool.and_eq_true, Bool.or_eq_true, decide_eq_true_eq] at hcall
    exact hcall.1

/-- The variants with slots (R172). -/
theorem multiLane_iff {v : Variant} : v.multiLane = true ↔ v = .dual ∨ v = .quad := by
  cases v <;> decide

/-- `CALL(in_ptr, out_ptr)` is accepted on a READY DUAL or QUAD engine only. -/
theorem of_accepts_callOut {s : State} {v : Variant} {p o : Word} (h : accepts s v (.callOut p o) = true) :
    (v = .dual ∨ v = .quad) ∧ (s.engine v).status = .ready := by
  obtain ⟨-, hcall⟩ := Bool.and_eq_true_iff.1 h
  unfold acceptsCallOut at hcall
  split at hcall
  · cases hcall
  · simp only [Bool.and_eq_true, decide_eq_true_eq] at hcall
    exact hcall.1.imp_left multiLane_iff.1

/-- `CALL_IMM(value)` is accepted on a READY SCALAR_IMM engine only. -/
theorem of_accepts_callImm {s : State} {v : Variant} {a : Word} (h : accepts s v (.callImm a) = true) :
    v = .scalarImm ∧ (s.engine v).status = .ready := by
  obtain ⟨hv, hready⟩ := Bool.and_eq_true_iff.1 h
  exact ⟨of_decide_eq_true hv, of_decide_eq_true hready⟩

/-- A command other than RESET is accepted on a quiescent engine only. -/
theorem quiescent_of_accepts {s : State} {v : Variant} {c : Command} (hc : c ≠ .reset) (h : accepts s v c = true) :
    (s.engine v).status.quiescent = true := by
  cases c with
  | reset => exact absurd rfl hc
  | call p => exact quiescent_iff.2 (.inr (of_accepts_call h).2)
  | callOut p o => exact quiescent_iff.2 (.inr (of_accepts_callOut h).2)
  | callImm a => exact quiescent_iff.2 (.inr (of_accepts_callImm h).2)
  | _ => exact (Bool.and_eq_true_iff.1 h).2

/-- A call of any form is accepted on a READY engine only. -/
theorem ready_of_accepts {s : State} {v : Variant} {c : Command}
    (hc : (∃ p, c = .call p) ∨ (∃ p o, c = .callOut p o) ∨ ∃ a, c = .callImm a) (h : accepts s v c = true) :
    (s.engine v).status = .ready := by
  obtain ⟨p, rfl⟩ | ⟨p, o, rfl⟩ | ⟨a, rfl⟩ := hc
  · exact (of_accepts_call h).2
  · exact (of_accepts_callOut h).2
  · exact (of_accepts_callImm h).2

/-- Settles O30: an accepted command would meet a status or a variant that the case at hand excludes. -/
theorem refusedCommandChangesNothing : Obligations.RefusedCommandChangesNothing := by
  unfold Obligations.RefusedCommandChangesNothing
  intro s v c rest hpend hrefused
  refine step_refused hpend fun haccepts => ?_
  obtain ⟨hc, hstatus⟩ | ⟨hstatus, hc⟩ | ⟨⟨p, rfl⟩, hscalar, href⟩ | ⟨⟨p, o, rfl⟩, hdual, hquad⟩ | ⟨⟨a, rfl⟩, himm⟩ := hrefused
  · have hquiescent := quiescent_of_accepts hc haccepts
    exact hstatus.elim (ne_busy_of_quiescent hquiescent) (ne_fault_of_quiescent hquiescent)
  · exact Status.noConfusion (hstatus.symm.trans (ready_of_accepts hc haccepts))
  · exact (of_accepts_call haccepts).1.elim hscalar href
  · exact (of_accepts_callOut haccepts).1.elim hdual hquad
  · exact himm (of_accepts_callImm haccepts).1

/-! ### A BUSY engine keeps its configuration (R213, R290) -/

/-- An engine that is neither UNCONFIGURED nor READY takes no command but RESET. -/
theorem commandEffect_of_not_quiescent {s : State} {v : Variant} {e e' : Engine} (hq : e.status.quiescent ≠ true)
    (h : CommandEffect s v e e') : e' = e.reset := by
  have hready : e.status ≠ .ready := fun hr => hq (quiescent_iff.2 (.inr hr))
  cases h with
  | reset => rfl
  | fails _ hq' _ => exact absurd hq' hq
  | configured _ _ hq' _ => exact absurd hq' hq
  | call _ hr _ => exact absurd hr hready
  | callOut _ _ hr _ => exact absurd hr hready
  | callImm _ hr _ => exact absurd hr hready
  | write _ hq' _ => exact absurd hq' hq

/-- A step leaves a BUSY engine as it is, or runs one micro-op on it, or resets it. -/
theorem engineStep_of_busy {s : State} {v : Variant} {e' : Engine} (hbusy : (s.engine v).status = .busy)
    (h : EngineStep s v e') :
    e' = s.engine v ∨ (∃ m m', ExecEffect (s.engine v) e' m m') ∨ e' = (s.engine v).reset := by
  have hq : (s.engine v).status.quiescent ≠ true := fun hq => ne_busy_of_quiescent hq hbusy
  cases h with
  | same => exact .inl rfl
  | micro _ m m' _ hx _ => exact .inr (.inl ⟨m, m', hx⟩)
  | command _ hc => exact .inr (.inr (commandEffect_of_not_quiescent hq hc))
  | batchFails _ _ hq' => exact absurd hq' hq
  | batchConfigured _ _ _ hq' _ => exact absurd hq' hq

/-- Settles O43: of the three things that can happen to a BUSY engine, a micro-op keeps the registers named and RESET is excluded. -/
theorem configurationIsQuiescent : Obligations.ConfigurationIsQuiescent := by
  unfold Obligations.ConfigurationIsQuiescent
  intro s t v hstep hbusy hconfigured
  obtain hsame | ⟨_, _, hx⟩ | hreset := engineStep_of_busy hbusy (step_engine hstep v)
  · rw [hsame]
    exact ⟨rfl, rfl, rfl, rfl, rfl, rfl, rfl, rfl, rfl, rfl, rfl⟩
  · exact ⟨hx.iv, hx.norm, hx.prog, hx.cfgSize, hx.cfgStride, hx.cfgC, hx.cfgD, hx.cfgFlags, hx.cfgWidth, hx.key0, hx.key1⟩
  · exact absurd (congrArg Engine.status hreset) hconfigured

/-! ### What a micro-op makes of the status (R262, R282) -/

/-- The active engine takes a usage error `UE_*` (R256 to R260). -/
def UsageError (s t : State) : Prop :=
  ∃ c : Cause, 16 ≤ c.code.toNat ∧ t = s.raise c

/-- An arithmetic micro-op takes `UE_UNWRITTEN_REG` or keeps the status. -/
theorem aluOp_status {i : Instr} {rs : List Reg} {f : Lane → Lane} {s t : State} (h : aluOp i rs f s = .next t) :
    UsageError s t ∨ t.eng.status = s.eng.status := by
  cases hfirst : s.eng.firstUnwritten rs with
  | some r =>
    rw [aluOp_unwritten hfirst] at h
    exact .inl ⟨_, by simp [Cause.code], (Host.Outcome.next.inj h).symm⟩
  | none =>
    rw [aluOp_written ((firstUnwritten_eq_none_iff _ _).1 hfirst)] at h
    obtain rfl := Host.Outcome.next.inj h
    exact .inr (by simp)

/-- A load from memory keeps the status. -/
theorem memLoad_status {n : Nat} {rd : Reg} {s t : State} (h : memLoad n rd s = .next t) : t.eng.status = s.eng.status := by
  obtain ⟨-, rfl⟩ := memLoad_next h
  simp

/-- A load that SCALAR_IMM does not support is a usage error. -/
theorem usageError_loadUnsupported {i : Instr} {s t : State} (h : loadUnsupported i s = .next t) : UsageError s t :=
  ⟨_, by simp [Cause.code], (Host.Outcome.next.inj h).symm⟩

/-- A load that is unsupported on SCALAR_IMM and reads memory elsewhere. -/
theorem load_status {p : Prop} [Decidable p] {i : Instr} {n : Nat} {rd : Reg} {s t : State}
    (h : (if p then loadUnsupported i s else memLoad n rd s) = .next t) : UsageError s t ∨ t.eng.status = s.eng.status := by
  split at h
  · exact .inl (usageError_loadUnsupported h)
  · exact .inr (memLoad_status h)

/-- A FIN takes a usage error or, delivering, ends the call. -/
theorem execFin_status {rs : Reg} {standard : Bool} {s t : State} (h : execFin rs standard s = .next t) :
    UsageError s t ∨ t.eng.status = .ready := by
  unfold execFin at h
  split at h
  · exact .inl ⟨_, by simp [Cause.code], (Host.Outcome.next.inj h).symm⟩
  · split at h
    · exact .inl ⟨_, by simp [Cause.code], (Host.Outcome.next.inj h).symm⟩
    · split at h
      · obtain ⟨p, -, -, rfl⟩ := deliverSlots_next h
        exact .inr (congrArg Engine.status (eng_putEng s _))
      · obtain rfl := Host.Outcome.next.inj h
        exact .inr (by simp)

/-- A micro-op takes a usage error, or keeps the status, or is a FIN that ends the call. -/
theorem exec_status {i : Instr} {s t : State} (h : exec i s = .next t) :
    (UsageError s t ∨ t.eng.status = s.eng.status) ∨ (t.eng.status = .ready ∧ ∃ rs standard, i = .fin rs standard) := by
  cases i with
  | init => obtain rfl := Host.Outcome.next.inj h; exact .inl (.inr (by simp))
  | ldi rd b => obtain rfl := Host.Outcome.next.inj h; exact .inl (.inr (by simp))
  | ld8 rd => exact .inl (load_status h)
  | ld16 rd => exact .inl (load_status h)
  | ld32 rd => exact .inl (load_status h)
  | ld64 rd =>
    simp only [exec, execLd64] at h
    split at h
    · split at h
      · obtain ⟨a, -, rfl⟩ := immLoad_next h
        exact .inl (.inr (by simp))
      · exact .inl (.inl (usageError_loadUnsupported h))
    · exact .inl (.inr (memLoad_status h))
  | fin rs standard => exact (execFin_status h).imp .inl fun hready => ⟨hready, rs, standard, rfl⟩
  | _ => exact .inl (aluOp_status h)

/-! ### The life of an engine (R282) -/

section transition
variable {s t : State} {v : Variant} {st : Status}

/-- A status that stays needs no event. -/
theorem transitionAllowed_of_eq {st' : Status} (h : st' = st) : transitionAllowed s t v st st' := by
  subst h; cases st' <;> trivial

/-- RESET takes an engine to UNCONFIGURED from any status. -/
theorem transitionAllowed_reset (h : ResetOf s v) : transitionAllowed s t v st .unconfigured := by
  cases st with
  | unconfigured => trivial
  | _ => exact h

/-- A CONFIGURE takes a quiescent engine to READY. -/
theorem transitionAllowed_configure (hst : st.quiescent = true) (h : ConfigureOf s v) : transitionAllowed s t v st .ready := by
  obtain rfl | rfl := quiescent_iff.1 hst
  · exact h
  · trivial

/-- A CONFIGURE that fails takes a quiescent engine to FAULT. -/
theorem transitionAllowed_configureFails (hst : st.quiescent = true) (h : ConfigureFailsOf s t v) :
    transitionAllowed s t v st .fault := by
  obtain rfl | rfl := quiescent_iff.1 hst
  · exact h
  · exact h

end transition

/-- What R282 asks of engine `v` over a step from `s` to `t`. -/
def LifeStep (s t : State) (v : Variant) : Prop :=
  transitionAllowed s t v (s.engine v).status (t.engine v).status

/-- An engine that the step leaves as it is. -/
theorem lifeStep_of_engine_eq {s t : State} {v : Variant} (h : t.engine v = s.engine v) : LifeStep s t v :=
  transitionAllowed_of_eq (congrArg Engine.status h)

/-- The checks of CONFIGURE give the configuration errors `CE_*`. -/
theorem code_of_configCheck {e : Engine} {c : Cause} (h : e.configCheck = .error c) : c.code.toNat ≤ 5 := by
  unfold Engine.configCheck at h
  repeat' split at h
  all_goals cases h
  all_goals simp [Cause.code]

/-- The checks of batch set-up give configuration errors. -/
theorem code_of_batchCheck {e : Engine} {c : Cause} (h : e.batchCheck = .error c) : c.code.toNat ≤ 5 := by
  unfold Engine.batchCheck at h
  repeat' split at h
  all_goals cases h
  all_goals simp [Cause.code]

/-- The checks left to a BATCH of engines configured one by one give configuration errors, of a READY SCALAR engine. -/
theorem of_ownBatch_error {e : Engine} {c : Cause} (h : e.ownBatch = some (.error c)) : e.status = .ready ∧ c.code.toNat ≤ 5 := by
  obtain ⟨_, _, -, -, hready, ⟨-, hc⟩ | ⟨-, -, hc⟩ | ⟨-, -, hc⟩⟩ := ownBatch_eq_some h
  all_goals cases hc
  all_goals exact ⟨hready, by simp [Cause.code]⟩

/-- A command leaves every other engine as it is. -/
theorem issue_engine_ne {s : State} {u v : Variant} (hv : v ≠ u) (c : Command) : (issue s u c).engine v = s.engine v := by
  obtain hs | ⟨e', _, _, _, -, hs⟩ := issue_cases s u c
  · rw [hs]
  · rw [hs]; exact engine_setEngine_ne s u e' hv

/-- An accepted call takes its engine from READY to BUSY. -/
theorem lifeStep_call {s t : State} {v : Variant} {c : Command} {rest : List HostEvent} (hpend : s.pending = .issue v c :: rest)
    (h : accepts { s with pending := rest } v c = true)
    (hcall : (∃ p, c = .call p) ∨ (∃ p o, c = .callOut p o) ∨ ∃ a, c = .callImm a) (hbusy : (t.engine v).status = .busy) :
    LifeStep s t v := by
  have hready : (s.engine v).status = .ready := ready_of_accepts hcall h
  rw [LifeStep, hbusy, hready]
  exact ⟨rest, c, hpend, h, hcall⟩

/-- An accepted command moves its engine along the table of R282. -/
theorem lifeStep_perform {s : State} {v : Variant} {c : Command} {rest : List HostEvent} (hpend : s.pending = .issue v c :: rest)
    (h : accepts { s with pending := rest } v c = true) : LifeStep s (perform { s with pending := rest } v c) v := by
  cases c with
  | reset =>
    rw [LifeStep, perform, endSetup_engine, engine_setEngine]
    exact transitionAllowed_reset ⟨rest, hpend⟩
  | configure =>
    have hquiescent : (s.engine v).status.quiescent = true :=
      quiescent_of_accepts (s := { s with pending := rest }) (c := .configure) Command.noConfusion h
    cases hcheck : (s.engine v).configCheck with
    | error c =>
      have hengine : (perform { s with pending := rest } v .configure).engine v = (s.engine v).raise c :=
        (congrArg (State.engine · v) (configure_error (s := { s with pending := rest }) hcheck)).trans
          (engines_get_set s.engines v _)
      rw [LifeStep, hengine]
      exact transitionAllowed_configureFails hquiescent
        ⟨⟨c, code_of_configCheck hcheck, hengine⟩, rest, .inl hpend⟩
    | ok n =>
      obtain ⟨key, draws, -, hconfigure⟩ := configure_ok (s := { s with pending := rest }) hcheck
      have hengine : (perform { s with pending := rest } v .configure).engine v =
          (s.engine v).configured s.platform.initConst n key :=
        (congrArg (State.engine · v) hconfigure).trans (engines_get_set s.engines v _)
      rw [LifeStep, hengine]
      exact transitionAllowed_configure hquiescent ⟨rest, .inl hpend⟩
  | call p => exact lifeStep_call hpend h (.inl ⟨p, rfl⟩) (congrArg Engine.status (engines_get_set s.engines v _))
  | callOut p o => exact lifeStep_call hpend h (.inr (.inl ⟨p, o, rfl⟩)) (congrArg Engine.status (engines_get_set s.engines v _))
  | callImm a => exact lifeStep_call hpend h (.inr (.inr ⟨a, rfl⟩)) (congrArg Engine.status (engines_get_set s.engines v _))
  | _ =>
    rw [LifeStep, perform, engine_setEngine]
    exact transitionAllowed_of_eq rfl

/-- A command moves an engine along the table of R282. -/
theorem lifeStep_issue {s : State} {u : Variant} {c : Command} {rest : List HostEvent} (hpend : s.pending = .issue u c :: rest)
    (v : Variant) : LifeStep s (issue { s with pending := rest } u c) v := by
  by_cases hv : v = u
  · subst hv
    by_cases haccepts : accepts { s with pending := rest } v c = true
    · rw [issue_accepted haccepts]
      exact lifeStep_perform hpend haccepts
    · rw [issue_refused haccepts]
      exact lifeStep_of_engine_eq rfl
  · exact lifeStep_of_engine_eq (issue_engine_ne hv c)

/-- A batch set-up, or a BATCH of engines configured one by one, whose error SCALAR records. -/
theorem lifeStep_scalarFails {s t : State} {c : Cause} (ht : t.engines = s.engines.set .scalar ((s.engine .scalar).raise c))
    (hquiescent : (s.engine .scalar).status.quiescent = true) (hcode : c.code.toNat ≤ 5)
    (hevent : ∃ rest, s.pending = .batchSetup :: rest ∨
      ((s.engine .scalar).status = .ready ∧ ∃ p o, s.pending = .batch p o :: rest)) (v : Variant) : LifeStep s t v := by
  by_cases hv : v = .scalar
  · subst hv
    have hengine : t.engine .scalar = (s.engine .scalar).raise c := (congrArg (·.get .scalar) ht).trans (engines_get_set _ _ _)
    obtain ⟨rest, hpend⟩ := hevent
    rw [LifeStep, hengine]
    exact transitionAllowed_configureFails hquiescent
      ⟨⟨c, hcode, hengine⟩, rest, .inr (hpend.imp (⟨rfl, ·⟩) (⟨rfl, ·⟩))⟩
  · exact lifeStep_of_engine_eq ((congrArg (·.get v) ht).trans (engines_get_set_ne _ _ hv))

/-- A batch set-up moves an engine along the table of R282. -/
theorem lifeStep_batchSetup {s : State} {rest : List HostEvent} (hpend : s.pending = .batchSetup :: rest) (v : Variant) :
    LifeStep s (batchSetup { s with pending := rest }) v := by
  obtain hs | ⟨c, hc, hquiescent, hs⟩ | ⟨n, key, d, hquiescent, -, hs⟩ := batchSetup_cases { s with pending := rest }
  · rw [hs]; exact lifeStep_of_engine_eq rfl
  · exact lifeStep_scalarFails (s := s) (congrArg State.engines hs) hquiescent (code_of_batchCheck hc) ⟨rest, .inl hpend⟩ v
  · have hengine := (congrArg (State.engine · v) hs).trans (configureBatch_engine { s with pending := rest } n key v)
    by_cases hv : v ∈ composerEngines s.platform
    · rw [LifeStep, hengine.trans (if_pos hv)]
      exact transitionAllowed_configure (hquiescent v hv) ⟨rest, .inr ⟨hv, hpend⟩⟩
    · exact lifeStep_of_engine_eq (hengine.trans (if_neg hv))

/-- A BATCH moves an engine along the table of R282. -/
theorem lifeStep_batch {s : State} {p o : Word} {rest : List HostEvent} (hpend : s.pending = .batch p o :: rest) (v : Variant) :
    LifeStep s (startBatch { s with pending := rest } p o) v := by
  obtain ⟨q, hs⟩ | ⟨c, hc, -, hs⟩ := startBatch_cases { s with pending := rest } p o
  · rw [hs]; exact lifeStep_of_engine_eq rfl
  · obtain ⟨hready, hcode⟩ := of_ownBatch_error hc
    exact lifeStep_scalarFails (s := s) (congrArg State.engines hs) (quiescent_iff.2 (.inr hready)) hcode
      ⟨rest, .inr ⟨hready, p, o, hpend⟩⟩ v

/-- A step of engine `u` moves an engine along the table of R282. -/
theorem lifeStep_engineStep {s t : State} {u : Variant} {p : List HostEvent}
    (h : engineStep { s with active := u, pending := p } = .next t) (v : Variant) : LifeStep s t v := by
  obtain ⟨-, rfl⟩ | ⟨hbusy, hmicro, -⟩ := engineStep_next h
  · exact lifeStep_of_engine_eq rfl
  obtain ⟨hactive, -, -, -, -, -, hothers⟩ := microOpTo_engine hmicro
  by_cases hv : v = u
  · subst hv
    have hfrom : (s.engine v).status = .busy := hbusy
    have hto : t.engine v = t.eng := congrArg t.engine hactive.symm
    have hfault : UsageError { s with active := v, pending := p } t → LifeStep s t v := by
      rintro ⟨c, hc, rfl⟩
      rw [LifeStep, hfrom, hto, stateRaise_eng]
      exact ⟨p, c, hc, rfl⟩
    rw [engineStep, if_pos hbusy] at h
    obtain ⟨-, hraise⟩ | ⟨_, _, -, -, hraise⟩ | ⟨w, i, hword, hi, hexec⟩ := fetchExec_next h
    · exact hfault ⟨_, by simp [Cause.code], hraise⟩
    · exact hfault ⟨_, by simp [Cause.code], hraise⟩
    · obtain (husage | hkept) | ⟨hready, rs, standard, rfl⟩ := exec_status hexec
      · exact hfault husage
      · exact transitionAllowed_of_eq ((congrArg Engine.status hto).trans hkept)
      · rw [LifeStep, hfrom, hto, hready]
        exact ⟨p, w, rs, standard, hword, hi, hexec⟩
  · exact lifeStep_of_engine_eq (hothers v hv)

/-- The host's oldest event moves an engine along the table of R282. -/
theorem lifeStep_hostStep {s t : State} {ev : HostEvent} {rest : List HostEvent} (hpend : s.pending = ev :: rest)
    (h : hostStep ev { s with pending := rest } = .next t) (v : Variant) : LifeStep s t v := by
  cases ev with
  | issue u c => obtain rfl := Host.Outcome.next.inj h; exact lifeStep_issue hpend v
  | tick u => exact lifeStep_engineStep (s := s) h v
  | await u =>
    simp only [hostStep, awaitEngine] at h
    split at h
    · exact lifeStep_engineStep (s := s) h v
    · obtain rfl := Host.Outcome.next.inj h
      exact lifeStep_of_engine_eq rfl
  | poke a b => obtain rfl := Host.Outcome.next.inj h; exact lifeStep_of_engine_eq rfl
  | declare regions => obtain rfl := Host.Outcome.next.inj h; exact lifeStep_of_engine_eq rfl
  | batchSetup => obtain rfl := Host.Outcome.next.inj h; exact lifeStep_batchSetup hpend v
  | batch p o => obtain rfl := Host.Outcome.next.inj h; exact lifeStep_batch hpend v
  | storeRes slot => cases storeRes_next h <;> exact lifeStep_of_engine_eq rfl
  | callBeyond => cases h

/-- With nothing pending some engine is chosen, and nothing else is done before it moves. -/
theorem exists_schedule (s : State) : ∃ u, schedule s = { s with active := u } := by
  unfold schedule
  split
  · exact ⟨s.active, rfl⟩
  · split
    · exact ⟨_, rfl⟩
    · exact ⟨s.active, rfl⟩

/-- Settles O45: a step is the host's oldest event or, with nothing pending, the step of the engine chosen. -/
theorem lifeOfAnEngine : Obligations.LifeOfAnEngine := by
  unfold Obligations.LifeOfAnEngine
  intro s t v hstep
  unfold step at hstep
  split at hstep
  · obtain ⟨u, hu⟩ := exists_schedule s
    rw [hu] at hstep
    exact lifeStep_engineStep (p := s.pending) hstep v
  · next hpend => exact lifeStep_hostStep hpend hstep v

/-! ### Control flow reads no data (R298) -/

/-- The registers of R298 that a micro-op may change. -/
def Engine.flow (e : Engine) : Nat × Nat × Status × BitVec 8 × Option Cause :=
  (e.upc, e.cur, e.status, e.cause, e.raised)

/-- What an outcome shows of the control flow: whether it is a next state, and the registers of R298 in it. -/
def flowOf : Host.Outcome State Fault Refusal → Option (Nat × Nat × Status × BitVec 8 × Option Cause)
  | .next t => some t.eng.flow
  | .fault _ => none
  | .refused _ => none

@[simp] theorem flowOf_putEng (s : State) (e : Engine) : flowOf (.next (s.putEng e)) = some e.flow :=
  congrArg (fun e : Engine => some e.flow) (eng_putEng s e)

/-- The control flow of a next state is that of its active engine, whatever is written to memory. -/
theorem flowOf_putEng_mem {s s' : State} {e e' : Engine} {m m' : Memory} (h : e'.flow = e.flow) :
    flowOf (.next { s'.putEng e' with mem := m' }) = flowOf (.next { s.putEng e with mem := m }) :=
  (flowOf_putEng s' e').trans ((congrArg some h).trans (flowOf_putEng s e).symm)

/-- A branch that both runs take alike. -/
theorem flowOf_ite {p : Prop} [Decidable p] {a b a' b' : Host.Outcome State Fault Refusal} (ha : flowOf a' = flowOf a)
    (hb : flowOf b' = flowOf b) : flowOf (if p then a' else b') = flowOf (if p then a else b) := by
  split
  · exact ha
  · exact hb

/-- The state with other values in the lanes and in `IV` of the active engine, and in memory. -/
def State.withData (s : State) (lanes : List Lane) (iv : Option SipState) (mem : Memory) : State :=
  { s.putEng { s.eng with lanes := lanes, iv := iv } with mem := mem }

section flow
variable {s : State} {lanes : List Lane} {iv : Option SipState} {mem : Memory}

@[simp] theorem withData_eng : (s.withData lanes iv mem).eng = { s.eng with lanes := lanes, iv := iv } := eng_putEng s _

@[simp] theorem withData_platform : (s.withData lanes iv mem).platform = s.platform := rfl

theorem flowOf_raise_withData (c : Cause) :
    flowOf (.next ((s.withData lanes iv mem).raise c)) = flowOf (.next (s.raise c)) := by
  rw [State.raise, State.raise, flowOf_putEng, flowOf_putEng, withData_eng]
  rfl

variable (h : SameWritten s.eng.lanes lanes)
include h

/-- The lanes hold values in the same places. -/
theorem map_isNone_withData (r : Reg) : lanes.map (fun x => (x.get r).isNone) = s.eng.lanes.map (fun x => (x.get r).isNone) := by
  obtain ⟨hlength, hsome⟩ := h
  refine List.ext_getElem (by simpa using hlength) fun l hl hl' => ?_
  have hvalue := hsome l _ _ (List.getElem?_eq_getElem (by simpa using hl')) (List.getElem?_eq_getElem (by simpa using hl)) r
  simpa [← Option.not_isSome] using hvalue

/-- The check on the operands sees where values are, not which. -/
theorem firstUnwritten_withData (rs : List Reg) : (s.withData lanes iv mem).eng.firstUnwritten rs = s.eng.firstUnwritten rs := by
  have hunwritten : (s.withData lanes iv mem).eng.unwritten = s.eng.unwritten := funext fun r => by
    have hmap := congrArg (List.any · id) (map_isNone_withData h r)
    simpa [Engine.unwritten, List.any_map] using hmap
  rw [Engine.firstUnwritten, hunwritten, Engine.firstUnwritten]

/-- What stops a load is the call and control registers, not the data. -/
theorem loadStop_withData (n : Nat) : loadStop (s.withData lanes iv mem) n = loadStop s n := by
  simp only [loadStop, withData_eng, withData_platform, h.1]
  rfl

theorem aluOp_flow (i : Instr) (reads : List Reg) (f : Lane → Lane) :
    flowOf (aluOp i reads f (s.withData lanes iv mem)) = flowOf (aluOp i reads f s) := by
  rw [aluOp, aluOp, firstUnwritten_withData h]
  cases s.eng.firstUnwritten reads with
  | some r => simpa using flowOf_raise_withData _
  | none => simp [Engine.flow]

theorem memLoad_flow (n : Nat) (rd : Reg) : flowOf (memLoad n rd (s.withData lanes iv mem)) = flowOf (memLoad n rd s) := by
  rw [memLoad, memLoad, loadStop_withData h]
  cases loadStop s n with
  | some _ => rfl
  | none => simp only [flowOf_putEng, withData_eng]; rfl

omit h in
theorem immLoad_flow (rd : Reg) : flowOf (immLoad rd (s.withData lanes iv mem)) = flowOf (immLoad rd s) := by
  simp only [immLoad, withData_eng]
  cases s.eng.arg with
  | none => rfl
  | some a => simp only [flowOf_putEng]; rfl

omit h in
theorem loadUnsupported_flow (i : Instr) :
    flowOf (loadUnsupported i (s.withData lanes iv mem)) = flowOf (loadUnsupported i s) := by
  simpa [loadUnsupported] using flowOf_raise_withData _

/-- A load that is unsupported on SCALAR_IMM and reads memory elsewhere. -/
theorem load_flow (i : Instr) (n : Nat) (rd : Reg) :
    flowOf (if (s.withData lanes iv mem).eng.variant = .scalarImm then loadUnsupported i (s.withData lanes iv mem)
      else memLoad n rd (s.withData lanes iv mem)) =
    flowOf (if s.eng.variant = .scalarImm then loadUnsupported i s else memLoad n rd s) := by
  simp only [withData_eng]
  exact flowOf_ite (loadUnsupported_flow i) (memLoad_flow h n rd)

theorem deliverSlots_flow (rs : Reg) (standard : Bool) :
    flowOf (deliverSlots rs standard (s.withData lanes iv mem)) = flowOf (deliverSlots rs standard s) := by
  simp only [deliverSlots, withData_eng, withData_platform, h.1]
  cases s.eng.outPtr with
  | none => rfl
  | some p => exact flowOf_ite (flowOf_putEng_mem rfl) rfl

omit h in
theorem deliverRes_flow (rs : Reg) (standard : Bool) :
    flowOf (deliverRes rs standard (s.withData lanes iv mem)) = flowOf (deliverRes rs standard s) := by
  simp [deliverRes, Engine.flow]

theorem execFin_flow (rs : Reg) (standard : Bool) :
    flowOf (execFin rs standard (s.withData lanes iv mem)) = flowOf (execFin rs standard s) := by
  rw [execFin, execFin, firstUnwritten_withData h]
  simp only [withData_eng]
  refine flowOf_ite (flowOf_raise_withData _) ?_
  cases s.eng.firstUnwritten [rs] with
  | some r => exact flowOf_raise_withData _
  | none => exact flowOf_ite (deliverSlots_flow h rs standard) (deliverRes_flow rs standard)

/-- With other data, values in the same places, a micro-op has the same control flow. -/
theorem exec_flow (i : Instr) : flowOf (exec i (s.withData lanes iv mem)) = flowOf (exec i s) := by
  cases i with
  | init => simp [exec, execInit, Engine.flow]
  | ldi rd b => simp [exec, execLdi, Engine.flow]
  | ld8 rd => exact load_flow h _ 1 rd
  | ld16 rd => exact load_flow h _ 2 rd
  | ld32 rd => exact load_flow h _ 4 rd
  | ld64 rd =>
    simp only [exec, execLd64, withData_eng]
    exact flowOf_ite (flowOf_ite (immLoad_flow rd) (loadUnsupported_flow _)) (memLoad_flow h 8 rd)
  | fin rs standard => exact execFin_flow h rs standard
  | _ => exact aluOp_flow h _ _ _

end flow

/-- An outcome with the control flow of a next state is a next state with those registers. -/
theorem next_of_flowOf {o : Host.Outcome State Fault Refusal} {e : Engine} (h : flowOf o = some e.flow) :
    ∃ t, o = .next t ∧ t.eng.upc = e.upc ∧ t.eng.cur = e.cur ∧ t.eng.status = e.status ∧ t.eng.cause = e.cause ∧
      t.eng.raised = e.raised := by
  cases o with
  | next t => exact ⟨t, rfl, by simpa [flowOf, Engine.flow] using h⟩
  | fault r => cases h
  | refused r => cases h

/-- Settles O25: `exec_flow`, read off the two outcomes. -/
theorem controlFlowIsConstant : Obligations.ControlFlowIsConstant := by
  unfold Obligations.ControlFlowIsConstant
  intro i s t lanes' iv' mem' hwritten hexec
  have hflow := exec_flow (iv := iv') (mem := mem') hwritten i
  rw [hexec] at hflow
  exact next_of_flowOf hflow

end Sys2Proof.Machine
end
